-- ==== Sys2Proof/Word.lean ====
section
/-! DEFINITION. The 32-bit word and the 8-bit byte of the PCC window (R9, R23, R65). -/

namespace Sys2Proof

/-- A register or buffer word: 32 bits, bit 0 least significant (R9, R23). -/
abbrev Word := BitVec 32

/-- A stored sample (R40, R43), or one byte lane of a word (R65). -/
abbrev Byte := BitVec 8

end Sys2Proof
end

