-- ==== Sys2Proof/Config.lean ====
section
/-! DEFINITION. What an implementation fixes (R7, R38) and the free values of everything the spec leaves unspecified. -/

namespace Sys2Proof

/-- The four kinds of error a command can complete with (R220). -/
inductive ErrKind where
  | unknownSymbol
  | malformedStream
  | illegalCommand
  | badOperand
deriving DecidableEq, Repr, Inhabited

/-- One entry (value, code) of CODE_TABLE; the code is a bit string in stream order (R10, R150). -/
structure Entry where
  value : Int
  code : List Bool
deriving DecidableEq, Repr, Inhabited

/-- CODE_TABLE: a list of K entries (R150). -/
abbrev CodeTable := List Entry

/-- K, the number of entries (R7). -/
def CodeTable.count (t : CodeTable) : Nat := t.length

/-- L_MAX, the longest code length (R7, R150). -/
def CodeTable.lMax (t : CodeTable) : Nat := (t.map fun e => e.code.length).foldl max 0

/-- The parameters of a PCC, fixed when the block is built (R7, R38, D27). -/
structure Params where
  /-- N, the side of the square raster. -/
  side : Nat
  /-- CODE_TABLE. -/
  table : CodeTable
  /-- BASE, the host address of the window. -/
  base : Nat
  /-- PLATFORM_STRONG_ORDER: the platform performs window accesses in program order (R70, D27). -/
  strongOrder : Bool
deriving DecidableEq, Repr, Inhabited

/-- CELLS = N·N (R7). -/
def Params.cells (p : Params) : Nat := p.side * p.side

/-- MAX_BITS, the capacity of BITBUF in bits (R7). -/
def Config.maxBits : Nat := 32768

/-- The longest code the code-word format holds (R86, W3 of R150). -/
def Config.maxCodeLength : Nat := 24

/-- The size in bytes of the host window (R60). -/
def Config.windowSize : Nat := 0x8000

/-- The interface revision that ID[31:24] reports (R34). -/
def Config.revision : BitVec 8 := 1#8

/-- DESIGN CHOICE (log 2), safe: the parameters of the machine that `State.reset` describes, uninterpreted. -/
opaque Config.params : Params

/-- DESIGN CHOICE (log 5), safe: the free value that draw number `draw` gives the location at window offset `offset`. -/
opaque Config.freeWord : Nat → Nat → Word

/-- DESIGN CHOICE (log 5, log 9), safe: the free outcome of a command spoilt by a forbidden host write, one of the
combinations of ERR and ERRCODE that R25 calls legal (`none` is no error). -/
opaque Config.freeOutcome : Nat → Option ErrKind

end Sys2Proof
end

