-- ==== Sys2Proof/Syntax.lean ====
section
/-! DEFINITION. The syntax of the PCC's commands: one constructor per row of the opcode table (R4, R81). -/

namespace Sys2Proof

/-- The seven prediction formulas that SEL = 1..7 select, by the names of R91 and R111.
SEL = 0 selects no formula (R83), so no constructor stands for it. -/
inductive Selector where
  | left
  | above
  | diag
  | plane
  | leftgrad
  | abovegrad
  | mean
deriving DecidableEq, Repr, Inhabited

/-- The twelve commands (R4), with the selector where the command uses SEL (R81). -/
inductive Instr where
  | nop
  | predict (f : Selector)
  | xformFwd (f : Selector)
  | xformInv (f : Selector)
  | symEnc
  | symDec
  | mapFwd
  | mapInv
  | pack
  | unpack
  | encode (f : Selector)
  | decode (f : Selector)
deriving DecidableEq, Repr, Inhabited

end Sys2Proof
end

