-- ==== Sys2Proof/WellFormed.lean ====
section
/-! DEFINITION. Well-formedness: which command words are legal (R82), which code tables (R150) and which builds (R7) are
admitted. Every term of `Instr` is a command the opcode table gives (SEL = 0 has no constructor), so the check on
instructions is the check on words. -/

namespace Sys2Proof

/-- R82 (1): the reserved field RSV = w[31:7] is 0. -/
def Word.reservedClear (w : Word) : Bool := w >>> 7 == 0#32

/-- R82 (2): w[3:0] ≤ 0xB. -/
def Word.opcodeAssigned (w : Word) : Bool := decide ((w &&& 0xF#32).toNat ≤ 0xB)

/-- The opcodes whose commands take a formula selector (R81). -/
def usesSelector (op : Nat) : Bool := op == 0x1 || op == 0x2 || op == 0x3 || op == 0xA || op == 0xB

/-- R82 (3): SEL is 1..7 where the opcode uses it, and 0 where it does not. -/
def Word.selectorFits (w : Word) : Bool :=
  if usesSelector (w &&& 0xF#32).toNat then (w >>> 4) &&& 0x7#32 != 0#32 else (w >>> 4) &&& 0x7#32 == 0#32

/-- A legal command word (R82). -/
def Word.legal (w : Word) : Bool := Word.reservedClear w && Word.opcodeAssigned w && Word.selectorFits w

/-- W1 of R150: 1 ≤ K ≤ 255. -/
def CodeTable.countOk (t : CodeTable) : Bool := decide (1 ≤ t.count) && decide (t.count ≤ 255)

/-- W2 of R150: the values are distinct signed 32-bit integers. -/
def CodeTable.valuesOk (t : CodeTable) : Bool :=
  decide (t.map Entry.value).Nodup && t.all fun e => decide (-2 ^ 31 ≤ e.value) && decide (e.value ≤ 2 ^ 31 - 1)

/-- W3 of R150: every code has 1 to 24 bits. -/
def CodeTable.lengthsOk (t : CodeTable) : Bool :=
  t.all fun e => decide (1 ≤ e.code.length) && decide (e.code.length ≤ Config.maxCodeLength)

/-- W4 of R150 and R161: no code is a prefix of another, over all ordered pairs of entries. -/
def CodeTable.prefixFree : CodeTable → Bool
  | [] => true
  | e :: t => (t.all fun e' => !e.code.isPrefixOf e'.code && !e'.code.isPrefixOf e.code) && CodeTable.prefixFree t

/-- W5 of R150: 0 is a value of the table. -/
def CodeTable.hasZero (t : CodeTable) : Bool := t.any fun e => e.value == 0

/-- W6 of R150: the code of 0 is a shortest code. -/
def CodeTable.zeroShortest (t : CodeTable) : Bool :=
  t.all fun z => z.value != 0 || t.all fun e => decide (z.code.length ≤ e.code.length)

/-- A well-formed code table (R150). -/
def CodeTable.wf (t : CodeTable) : Bool :=
  t.countOk && t.valuesOk && t.lengthsOk && t.prefixFree && t.hasZero && t.zeroShortest

/-- R7: 1 ≤ N ≤ 32. -/
def Params.sideOk (p : Params) : Bool := decide (1 ≤ p.side) && decide (p.side ≤ 32)

/-- R7 and R60: BASE is 32 KiB aligned. -/
def Params.baseOk (p : Params) : Bool := p.base % Config.windowSize == 0

/-- Admitted parameters (R7, R150); a model refuses every other configuration (I11, D27). -/
def Params.wf (p : Params) : Bool := p.sideOk && p.table.wf && p.baseOk && p.strongOrder

/-- A build of the PCC: parameters with the proof that they are admitted, so that no ill-formed configuration can be
put into a machine (R150 "A model refuses a configuration whose table is not well-formed"). -/
structure Build extends Params where
  ok : toParams.wf = true
deriving DecidableEq, Repr

/-- The least admitted parameters: one cell and a table of one code. -/
def Params.least : Params := { side := 1, table := [⟨0, [true]⟩], base := 0, strongOrder := true }

/-- DESIGN CHOICE (log 2), safe: the build of the reset machine. `Config.params` is uninterpreted, so nothing is known of
it but that it is admitted. -/
def Config.build : Build :=
  if h : Config.params.wf = true then ⟨Config.params, h⟩ else ⟨Params.least, by decide⟩

end Sys2Proof
end

