-- ==== Sys2Proof/Decode.lean ====
section
/-! DEFINITION. Decoding of command words, total on all 2^32 words and rejecting by name (R80 to R85), the encoder
(R81, R91), and the assembler text of a command (R91). -/

namespace Sys2Proof

/-- Why a command word is illegal (R82, R223). -/
inductive DecodeError where
  /-- RSV = w[31:7] is not 0. -/
  | reservedBits
  /-- w[3:0] is one of 0xC to 0xF. -/
  | reservedOpcode
  /-- SEL is 0 in a command that uses it. -/
  | selectorMissing
  /-- SEL is not 0 in a command that does not use it. -/
  | selectorNotAllowed
deriving DecidableEq, Repr

/-- OP = w[3:0] (R80). -/
def opField (w : Word) : BitVec 4 := w.extractLsb' 0 4

/-- SEL = w[6:4] (R80). -/
def selField (w : Word) : BitVec 3 := w.extractLsb' 4 3

/-- RSV = w[31:7] (R80). -/
def rsvField (w : Word) : BitVec 25 := w.extractLsb' 7 25

/-- The formula that a SEL value selects (R83, R111); 0 selects none. -/
def selectorOf (sel : BitVec 3) : Option Selector :=
  match sel.toNat with
  | 1 => some .left
  | 2 => some .above
  | 3 => some .diag
  | 4 => some .plane
  | 5 => some .leftgrad
  | 6 => some .abovegrad
  | 7 => some .mean
  | _ => none

/-- A command that takes no selector: SEL must be 0 (R82). -/
def decodePlain (w : Word) (i : Instr) : Except DecodeError Instr :=
  if selField w = 0#3 then .ok i else .error .selectorNotAllowed

/-- A command that takes a selector: SEL must be 1..7 (R82). -/
def decodeWithSelector (w : Word) (mk : Selector → Instr) : Except DecodeError Instr :=
  match selectorOf (selField w) with
  | some f => .ok (mk f)
  | none => .error .selectorMissing

/-- The command a word spells, or why it is illegal (R81, R82). -/
def decode (w : Word) : Except DecodeError Instr :=
  if rsvField w ≠ 0#25 then .error .reservedBits
  else
    match (opField w).toNat with
    | 0x0 => decodePlain w .nop
    | 0x1 => decodeWithSelector w .predict
    | 0x2 => decodeWithSelector w .xformFwd
    | 0x3 => decodeWithSelector w .xformInv
    | 0x4 => decodePlain w .symEnc
    | 0x5 => decodePlain w .symDec
    | 0x6 => decodePlain w .mapFwd
    | 0x7 => decodePlain w .mapInv
    | 0x8 => decodePlain w .pack
    | 0x9 => decodePlain w .unpack
    | 0xA => decodeWithSelector w .encode
    | 0xB => decodeWithSelector w .decode
    | _ => .error .reservedOpcode

/-- The SEL value of a formula (R83, R91). -/
def Selector.bits : Selector → BitVec 3
  | .left => 1#3
  | .above => 2#3
  | .diag => 3#3
  | .plane => 4#3
  | .leftgrad => 5#3
  | .abovegrad => 6#3
  | .mean => 7#3

/-- The opcode of a command (R81). -/
def Instr.opcode : Instr → BitVec 4
  | .nop => 0x0#4
  | .predict _ => 0x1#4
  | .xformFwd _ => 0x2#4
  | .xformInv _ => 0x3#4
  | .symEnc => 0x4#4
  | .symDec => 0x5#4
  | .mapFwd => 0x6#4
  | .mapInv => 0x7#4
  | .pack => 0x8#4
  | .unpack => 0x9#4
  | .encode _ => 0xA#4
  | .decode _ => 0xB#4

/-- The SEL field of a command: its selector, or 0 (R82). -/
def Instr.selBits : Instr → BitVec 3
  | .predict f | .xformFwd f | .xformInv f | .encode f | .decode f => f.bits
  | .nop | .symEnc | .symDec | .mapFwd | .mapInv | .pack | .unpack => 0#3

/-- The word of a command: RSV = 0, SEL, OP (R80, R91). -/
def encode (i : Instr) : Word := 0#25 ++ i.selBits ++ i.opcode

/-- The mnemonic of a command (R4, R81). -/
def Instr.mnemonic : Instr → String
  | .nop => "NOP"
  | .predict _ => "PREDICT"
  | .xformFwd _ => "XFORM_FWD"
  | .xformInv _ => "XFORM_INV"
  | .symEnc => "SYM_ENC"
  | .symDec => "SYM_DEC"
  | .mapFwd => "MAP_FWD"
  | .mapInv => "MAP_INV"
  | .pack => "PACK"
  | .unpack => "UNPACK"
  | .encode _ => "ENCODE"
  | .decode _ => "DECODE"

/-- The selector in assembler syntax (R91). -/
def Selector.text : Selector → String
  | .left => "p1"
  | .above => "p2"
  | .diag => "p3"
  | .plane => "p4"
  | .leftgrad => "p5"
  | .abovegrad => "p6"
  | .mean => "p7"

/-- The name R91 gives a selector. -/
def Selector.name : Selector → String
  | .left => "LEFT"
  | .above => "ABOVE"
  | .diag => "DIAG"
  | .plane => "PLANE"
  | .leftgrad => "LEFTGRAD"
  | .abovegrad => "ABOVEGRAD"
  | .mean => "MEAN"

/-- A command in assembler syntax: the mnemonic, and the selector where the command uses SEL (R91). -/
def Instr.text (i : Instr) : String :=
  match i with
  | .predict f | .xformFwd f | .xformInv f | .encode f | .decode f => i.mnemonic ++ " " ++ f.text
  | .nop | .symEnc | .symDec | .mapFwd | .mapInv | .pack | .unpack => i.mnemonic

/-- The instruction the decoder reads from a table word: `nbits` bits numbered from bit 0, the rest of the 32 bits 0. -/
def decodeTableWord (nbits w : Nat) : Option Instr :=
  if nbits ≤ 32 then
    match decode (BitVec.ofNat 32 (w % 2 ^ nbits)) with
    | .ok i => some i
    | .error _ => none
  else none

end Sys2Proof
end

