-- ==== Sys2Proof/Machine/State.lean ====
section
/-! DEFINITION. The state of the machine as plain data: every register, buffer and hidden state of 10_state.md, the
configuration, the inputs still to come, and the model's own counters. -/

namespace Sys2Proof.Machine

/-- Why a step stops with a fault. -/
inductive Fault where
  /-- Raised by a host access whose address lies outside BASE .. BASE + 0x7FFF (R60): it is no access to this hardware.
  DESIGN CHOICE (log 13). Safe: the hardware is not reached at all. -/
  | outsideWindow
deriving DecidableEq, Repr

/-- Why a step has no meaning. -/
inductive Refusal where
  /-- Raised by `exec` for an instruction whose meaning is not written yet (none in this model). Safe. -/
  | notModelled (mnemonic : String)
deriving DecidableEq, Repr

/-- A location of the window: a register, or a word of a buffer (R23, R40 to R44). -/
inductive Loc where
  | cmd
  | status
  | errIndex
  | id
  | opa
  | opb
  | opc
  | predOut
  | symIn
  | codeOut
  | cursor
  | symOut
  | consumed
  | bitLen
  | bitPos
  | raster (i : Nat)
  | resid (i : Nat)
  | codegrid (i : Nat)
  | recon (i : Nat)
  | bitbuf (j : Nat)
deriving DecidableEq, Repr

/-- What happens next to the machine: an access of the host (`MemRead`, `MemWrite` of R13, the width in bytes), an edge of
the reset input (R250), or the PCC's turn to complete the command in flight (R201). -/
inductive Event where
  | pccTurn
  | hostRead (addr width : Nat)
  | hostWrite (addr width : Nat) (value : Word)
  | resetAssert
  | resetRelease
deriving DecidableEq, Repr

/-- The fields of STATUS (R25). -/
structure Status where
  busy : Bool
  done : Bool
  err : Bool
  errCode : BitVec 4
deriving DecidableEq, Repr

/-- The storage of the five buffers: (window offset, byte) pairs, offsets strictly rising; an offset that is not listed
has not been written since reset. -/
abbrev Memory := List Host.Cell

/-- The state of the PCC (R20), its configuration, and its inputs. -/
structure State where
  /-- The configuration (R38): no step changes it. -/
  build : Build
  /-- CMD (R24). -/
  cmd : Word
  /-- STATUS (R25). -/
  status : Status
  /-- ERR_INDEX (R26). -/
  errIndex : BitVec 16
  /-- OPA (R27). -/
  opa : BitVec 16
  /-- OPB (R27). -/
  opb : BitVec 16
  /-- OPC (R27). -/
  opc : BitVec 16
  /-- PRED_OUT (R28). -/
  predOut : Word
  /-- SYM_IN (R29). -/
  symIn : Word
  /-- CODE_OUT (R30). -/
  codeOut : Word
  /-- CURSOR (R32). -/
  cursor : BitVec 16
  /-- SYM_OUT (R33). -/
  symOut : Word
  /-- CONSUMED (R33). -/
  consumed : BitVec 8
  /-- BIT_LEN (R31). -/
  bitLen : BitVec 16
  /-- BIT_POS (R35). -/
  bitPos : BitVec 16
  /-- RASTER, RESID, CODEGRID, RECON and BITBUF (R40 to R44). -/
  mem : Memory
  /-- The in-flight command (R37, `pending` of R200). -/
  inFlight : Option Word
  /-- The locations that forbidden host writes have hit while the command was in flight (R67; log 9). -/
  tainted : List Loc
  /-- The reset input is asserted (R250). -/
  inReset : Bool
  /-- The inputs still to come, the next one first (R70; log 3). -/
  agenda : List Event
  /-- The data of the last host read (R64; log 12). -/
  lastRead : Option Word
  /-- The host has broken R256 since reset (log 9). -/
  hostFault : Bool
  /-- The model's own: the number of the next free value (log 5). -/
  draws : Nat
  /-- The model's own: the draw that storage not written since reset reads from (log 6). -/
  resetDraw : Nat
deriving DecidableEq, Repr

/-- The machine right after reset (R251, R252, R253): every register 0, no command in flight, no buffer written.
DESIGN CHOICE (log 15): the two counters of free values. -/
def State.reset : State where
  build := Config.build
  cmd := 0#32
  status := { busy := false, done := false, err := false, errCode := 0#4 }
  errIndex := 0#16
  opa := 0#16
  opb := 0#16
  opc := 0#16
  predOut := 0#32
  symIn := 0#32
  codeOut := 0#32
  cursor := 0#16
  symOut := 0#32
  consumed := 0#8
  bitLen := 0#16
  bitPos := 0#16
  mem := []
  inFlight := none
  tainted := []
  inReset := false
  agenda := []
  lastRead := none
  hostFault := false
  draws := 1
  resetDraw := 0

end Sys2Proof.Machine
end

