-- ==== Sys2Proof/Machine/Flags.lean ====
section
/-! DEFINITION. The flags register STATUS: its word, and what acceptance and completion make of it (R25, R200, R201,
R220, R225). -/

namespace Sys2Proof.Machine

/-- ERRCODE of an error (R220). -/
def ErrKind.code : ErrKind → BitVec 4
  | .unknownSymbol => 1#4
  | .malformedStream => 2#4
  | .illegalCommand => 3#4
  | .badOperand => 4#4

/-- STATUS as the host reads it: [0] BUSY, [1] DONE, [2] ERR, [3] 0, [7:4] ERRCODE, [31:8] 0 (R25). -/
def Status.word (t : Status) : Word :=
  0#24 ++ t.errCode ++ 0#1 ++ BitVec.ofBool t.err ++ BitVec.ofBool t.done ++ BitVec.ofBool t.busy

/-- STATUS right after reset (R251). -/
def Status.idle : Status := { busy := false, done := false, err := false, errCode := 0#4 }

/-- STATUS after acceptance (R200). -/
def Status.inProgress : Status := { busy := true, done := false, err := false, errCode := 0#4 }

/-- STATUS after a completion: without an error (R201), or with one (R225). -/
def Status.completed : Option ErrKind → Status
  | none => { busy := false, done := true, err := false, errCode := 0#4 }
  | some k => { busy := false, done := true, err := true, errCode := ErrKind.code k }

/-- The combinations of fields that are ever read (R25). -/
def Status.legal (t : Status) : Bool :=
  t == Status.idle || t == Status.inProgress || t == Status.completed none
    || t == Status.completed (some .unknownSymbol) || t == Status.completed (some .malformedStream)
    || t == Status.completed (some .illegalCommand) || t == Status.completed (some .badOperand)

end Sys2Proof.Machine
end

