-- ==== Sys2Proof/Machine/Ops.lean ====
section
/-! DEFINITION. The shared operations: storage, the locations of the window, acceptance and completion of a command, and
error completion, which is this hardware's taking of an exception (R225). -/

namespace Sys2Proof.Machine

/-! ### Storage -/

/-- The byte stored at a window offset, if any has been written since reset. -/
def Memory.read? : Memory → Nat → Option Byte
  | [], _ => none
  | c :: m, a => if c.1 = a then some c.2 else Memory.read? m a

/-- Store one byte, keeping the offsets strictly rising. -/
def Memory.write : Memory → Nat → Byte → Memory
  | [], a, b => [(a, b)]
  | c :: m, a, b =>
    if a < c.1 then (a, b) :: c :: m
    else if a = c.1 then (a, b) :: m
    else c :: Memory.write m a b

/-- The canonical form of storage: offsets strictly rising. An offset that is not listed holds no written byte, so no
entry can equal what an unlisted offset holds. -/
abbrev Memory.wf (m : Memory) : Prop := (m.map Prod.fst).Pairwise (· < ·)

/-- Byte lane `m` of a word: bits [8m+7:8m] (R65). -/
def lane (w : Word) (m : Nat) : Byte := w.extractLsb' (8 * m) 8

/-- Store a word at a word offset, byte `a + m` taking lane `m` (R65). -/
def Memory.writeWord (m : Memory) (a : Nat) (w : Word) : Memory :=
  (((m.write a (lane w 0)).write (a + 1) (lane w 1)).write (a + 2) (lane w 2)).write (a + 3) (lane w 3)

/-- Store words at consecutive word offsets from `a`. -/
def Memory.writeWords (m : Memory) (a : Nat) : List Word → Memory
  | [] => m
  | w :: ws => Memory.writeWords (m.writeWord a w) (a + 4) ws

/-- Store 8-bit samples at consecutive word offsets from `a`: a sample fills lane 0 of its word, and the other lanes are
no storage (R40, R43). -/
def Memory.writeSamples (m : Memory) (a : Nat) : List Byte → Memory
  | [] => m
  | b :: bs => Memory.writeSamples (m.write a b) (a + 4) bs

/-- What a byte of storage that nothing has written since reset reads as: lane `a mod 4` of the free value of its word.
DEDUCED (log 6): it reads the same until it is written or the machine is reset. -/
def unwrittenByte (draw a : Nat) : Byte := lane (Config.freeWord draw (a - a % 4)) (a % 4)

/-- One byte of storage at a window offset. -/
def State.byteAt (s : State) (a : Nat) : Byte := (s.mem.read? a).getD (unwrittenByte s.resetDraw a)

/-- One word of storage at a word offset (R65). -/
def State.wordAt (s : State) (a : Nat) : Word :=
  s.byteAt (a + 3) ++ s.byteAt (a + 2) ++ s.byteAt (a + 1) ++ s.byteAt a

/-- Store one word. -/
def State.storeWord (s : State) (a : Nat) (w : Word) : State := { s with mem := s.mem.writeWord a w }

/-- Store one byte. -/
def State.storeByte (s : State) (a : Nat) (b : Byte) : State := { s with mem := s.mem.write a b }

/-! ### The window (R23, R60) -/

/-- The window offset of word 0 of RASTER (R40). -/
def rasterBase : Nat := 0x1000
/-- The window offset of word 0 of RESID (R41). -/
def residBase : Nat := 0x2000
/-- The window offset of word 0 of CODEGRID (R42). -/
def codegridBase : Nat := 0x3000
/-- The window offset of word 0 of RECON (R43). -/
def reconBase : Nat := 0x4000
/-- The window offset of word 0 of BITBUF (R44). -/
def bitbufBase : Nat := 0x5000
/-- The number of words of BITBUF (R44). -/
def bitbufWords : Nat := 1024

/-- The window offset of a location (R23, R40 to R44). -/
def Loc.offset : Loc → Nat
  | .cmd => 0x000
  | .status => 0x004
  | .errIndex => 0x008
  | .id => 0x00C
  | .opa => 0x010
  | .opb => 0x014
  | .opc => 0x018
  | .predOut => 0x01C
  | .symIn => 0x020
  | .codeOut => 0x024
  | .cursor => 0x028
  | .symOut => 0x02C
  | .consumed => 0x030
  | .bitLen => 0x034
  | .bitPos => 0x038
  | .raster i => rasterBase + 4 * i
  | .resid i => residBase + 4 * i
  | .codegrid i => codegridBase + 4 * i
  | .recon i => reconBase + 4 * i
  | .bitbuf j => bitbufBase + 4 * j

/-- Whether the window of a build has a location: every register, the grid words below CELLS, and the words of BITBUF
(R23, R40 to R44, R62). -/
def Loc.mapped (b : Build) : Loc → Bool
  | .raster i | .resid i | .codegrid i | .recon i => decide (i < b.cells)
  | .bitbuf j => decide (j < bitbufWords)
  | .cmd | .status | .errIndex | .id | .opa | .opb | .opc | .predOut | .symIn | .codeOut | .cursor | .symOut | .consumed
  | .bitLen | .bitPos => true

/-- The bytes of storage of a location: four for a word of RESID, CODEGRID or BITBUF, one for a sample of RASTER or RECON,
none for a register (R40 to R44). -/
def Loc.bytes (l : Loc) : List Nat :=
  match l with
  | .raster _ | .recon _ => [l.offset]
  | .resid _ | .codegrid _ | .bitbuf _ => [l.offset, l.offset + 1, l.offset + 2, l.offset + 3]
  | .cmd | .status | .errIndex | .id | .opa | .opb | .opc | .predOut | .symIn | .codeOut | .cursor | .symOut | .consumed
  | .bitLen | .bitPos => []

/-- The register at a word offset below 0x1000; offset 0x03C is reserved and 0x040 to 0x0FFC are unmapped (R23, R36). -/
def registerAt (off : Nat) : Option Loc :=
  match off with
  | 0x000 => some .cmd
  | 0x004 => some .status
  | 0x008 => some .errIndex
  | 0x00C => some .id
  | 0x010 => some .opa
  | 0x014 => some .opb
  | 0x018 => some .opc
  | 0x01C => some .predOut
  | 0x020 => some .symIn
  | 0x024 => some .codeOut
  | 0x028 => some .cursor
  | 0x02C => some .symOut
  | 0x030 => some .consumed
  | 0x034 => some .bitLen
  | 0x038 => some .bitPos
  | _ => none

/-- The location at an aligned window offset; `none` where the window holds nothing (R60, R62): a grid word at cell index
CELLS or above is unmapped. -/
def Loc.ofOffset (b : Build) (off : Nat) : Option Loc :=
  let cell := off % 0x1000 / 4
  let grid (mk : Nat → Loc) : Option Loc := if cell < b.cells then some (mk cell) else none
  match off / 0x1000 with
  | 0 => registerAt off
  | 1 => grid .raster
  | 2 => grid .resid
  | 3 => grid .codegrid
  | 4 => grid .recon
  | 5 => some (.bitbuf cell)
  | _ => none

/-- The locations a host write stores to (RW in R23; R40, R41, R42, R44). CMD is not among them: a write of CMD issues a
command (R63). -/
def Loc.hostWritable : Loc → Bool
  | .opa | .opb | .opc | .symIn | .cursor | .bitLen => true
  | .raster _ | .resid _ | .codegrid _ | .bitbuf _ => true
  | .cmd | .status | .errIndex | .id | .predOut | .codeOut | .symOut | .consumed | .bitPos | .recon _ => false

/-- ID: revision, K, L_MAX and N (R34). -/
def idWord (b : Build) : Word :=
  Config.revision ++ BitVec.ofNat 8 b.table.count ++ BitVec.ofNat 8 b.table.lMax ++ BitVec.ofNat 8 b.side

/-- The value of a location in the format its rule gives (R64): signed registers of 16 bits sign-extended, narrower fields
zero-extended. -/
def State.readLoc (s : State) : Loc → Word
  | .cmd => s.cmd
  | .status => s.status.word
  | .errIndex => s.errIndex.setWidth 32
  | .id => idWord s.build
  | .opa => s.opa.signExtend 32
  | .opb => s.opb.signExtend 32
  | .opc => s.opc.signExtend 32
  | .predOut => s.predOut
  | .symIn => s.symIn
  | .codeOut => s.codeOut
  | .cursor => s.cursor.setWidth 32
  | .symOut => s.symOut
  | .consumed => s.consumed.setWidth 32
  | .bitLen => s.bitLen.setWidth 32
  | .bitPos => s.bitPos.setWidth 32
  | .raster i => (s.byteAt (rasterBase + 4 * i)).setWidth 32
  | .resid i => s.wordAt (residBase + 4 * i)
  | .codegrid i => s.wordAt (codegridBase + 4 * i)
  | .recon i => (s.byteAt (reconBase + 4 * i)).setWidth 32
  | .bitbuf j => s.wordAt (bitbufBase + 4 * j)

/-- Put the bits of a word that a location stores into it (R36); CMD and STATUS are written by acceptance and completion
only, and ID is hardwired (R34), so nothing is stored there. -/
def State.storeLoc (s : State) (l : Loc) (w : Word) : State :=
  match l with
  | .cmd | .status | .id => s
  | .errIndex => { s with errIndex := w.setWidth 16 }
  | .opa => { s with opa := w.setWidth 16 }
  | .opb => { s with opb := w.setWidth 16 }
  | .opc => { s with opc := w.setWidth 16 }
  | .predOut => { s with predOut := w }
  | .symIn => { s with symIn := w }
  | .codeOut => { s with codeOut := w }
  | .cursor => { s with cursor := w.setWidth 16 }
  | .symOut => { s with symOut := w }
  | .consumed => { s with consumed := w.setWidth 8 }
  | .bitLen => { s with bitLen := w.setWidth 16 }
  | .bitPos => { s with bitPos := w.setWidth 16 }
  | .raster i => s.storeByte (rasterBase + 4 * i) (w.setWidth 8)
  | .resid i => s.storeWord (residBase + 4 * i) w
  | .codegrid i => s.storeWord (codegridBase + 4 * i) w
  | .recon i => s.storeByte (reconBase + 4 * i) (w.setWidth 8)
  | .bitbuf j => s.storeWord (bitbufBase + 4 * j) w

/-! ### Output sets -/

/-- The locations of a grid buffer. -/
def gridLocs (b : Build) (mk : Nat → Loc) : List Loc := (List.range b.cells).map mk

/-- The locations of BITBUF. -/
def bitbufLocs : List Loc := (List.range bitbufWords).map .bitbuf

/-- W(cmd), the output set of a command (R84). For PACK and ENCODE R84 names the BITBUF bits below the final BIT_LEN; as
locations all of BITBUF is listed, and `streamExtent` says which of its bits a completed run writes. -/
def outputs (i : Instr) (b : Build) : List Loc :=
  match i with
  | .nop => []
  | .predict _ => [.predOut]
  | .xformFwd _ => gridLocs b .resid
  | .xformInv _ => gridLocs b .recon
  | .symEnc => [.codeOut]
  | .symDec => [.symOut, .consumed, .cursor]
  | .mapFwd => gridLocs b .codegrid
  | .mapInv => gridLocs b .resid
  | .pack => .bitLen :: bitbufLocs
  | .unpack => .bitPos :: gridLocs b .codegrid
  | .encode _ => .bitLen :: (gridLocs b .resid ++ gridLocs b .codegrid ++ bitbufLocs)
  | .decode _ => .bitPos :: (gridLocs b .codegrid ++ gridLocs b .resid ++ gridLocs b .recon)

/-! ### Acceptance, completion, and error completion -/

/-- An error a command's rule raises, with the cell index it records (R13, R220). -/
structure CmdError where
  kind : ErrKind
  index : Nat
deriving DecidableEq, Repr

/-- Acceptance of a command word (R200). It also clears the error of the command before, which is this hardware's only
return from an error (R227). -/
def State.accept (s : State) (w : Word) : State :=
  { s with cmd := w, status := .inProgress, errIndex := 0#16, inFlight := some w, tainted := [] }

/-- Give each listed location the free value of one draw, and count the draw (R225 `x <- unspecified`). -/
def State.scramble (s : State) (ls : List Loc) : State :=
  { ls.foldl (fun t l => t.storeLoc l (Config.freeWord s.draws l.offset)) s with draws := s.draws + 1 }

/-- The end of a command that raised no error: BUSY falls, DONE rises (R201). -/
def State.completeOk (s : State) : State :=
  { s with status := .completed none, inFlight := none, tainted := [] }

/-- Error completion, the taking of an exception on this hardware (R225): every location of W(cmd) becomes unspecified,
ERR_INDEX takes the cell index, and STATUS reports the error. Nothing else is saved and no handler runs. -/
def State.completeError (s : State) (e : CmdError) (outs : List Loc) : State :=
  { s.scramble outs with
    errIndex := BitVec.ofNat 16 e.index, status := .completed (some e.kind), inFlight := none, tainted := [] }

/-- The completion step of a command from what its rule gives (R201): the written state, or the error it raised. -/
def finish (i : Instr) (s : State) (r : Except CmdError State) : Host.Outcome State Fault Refusal :=
  .next (match r with
    | .ok t => t.completeOk
    | .error e => s.completeError e (outputs i s.build))

/-- Walk a grid in row-major order; the first cell that raises an error ends the walk with it (R14, R226). -/
def mapCells {α β : Type} (f : Nat → α → Except CmdError β) : Nat → List α → Except CmdError (List β)
  | _, [] => .ok []
  | i, x :: xs =>
    match f i x with
    | .error e => .error e
    | .ok y =>
      match mapCells f (i + 1) xs with
      | .error e => .error e
      | .ok ys => .ok (y :: ys)

end Sys2Proof.Machine
end

