-- ==== Sys2Proof/Machine/Operands.lean ====
section
/-! DEFINITION. How commands read their operands and write their outputs (R84): the grids, the stream in BITBUF, and the
code-word format (R66, R86 to R88). -/

namespace Sys2Proof.Machine

/-! ### Bit strings and code words -/

/-- val(s): a bit string read as an unsigned number, first bit most significant (R87). -/
def bitsVal (bs : List Bool) : Nat := bs.foldl (fun acc b => 2 * acc + b.toNat) 0

/-- cw(s), the canonical code word of a bit string (R87). -/
def codeWord (bs : List Bool) : Word := BitVec.ofNat 8 bs.length ++ BitVec.ofNat 24 (bitsVal bs)

/-- LEN = w[31:24] of a code word (R86). -/
def codeLen (w : Word) : Nat := (w.extractLsb' 24 8).toNat

/-- str(w), the bit string a code word denotes: BITS[LEN−1] first (R86). -/
def codeBits (w : Word) : List Bool := (List.range (codeLen w)).map fun j => w.getLsbD (codeLen w - 1 - j)

/-- fc(v), the first-cell field: 8 bits, most significant first (R88). -/
def firstCellBits (v : Nat) : List Bool := (List.range 8).map fun k => v.testBit (7 - k)

/-! ### The stream in BITBUF -/

/-- BIT(k): bit 31 − (k mod 32) of BITBUF word k div 32 (R66). -/
def State.bit (s : State) (k : Nat) : Bool := (s.wordAt (bitbufBase + 4 * (k / 32))).getLsbD (31 - k % 32)

/-- The 32 stream bits of a BITBUF word, bit 31 first (R66). -/
def wordBits (w : Word) : List Bool := (List.range 32).map fun p => w.getLsbD (31 - p)

/-- The number of BITBUF words that hold `len` stream bits. -/
def wordsFor (len : Nat) : Nat := (len + 31) / 32

/-- The stream: the bits BIT(0) .. BIT(len − 1) (R44, R89), read word by word. -/
def State.streamBits (s : State) (len : Nat) : List Bool :=
  ((List.range (wordsFor len)).flatMap fun j => wordBits (s.wordAt (bitbufBase + 4 * j))).take len

/-- A BITBUF word after the first bits of `bs` (at most 32) are written into it from bit 31 down; the rest is kept (R180). -/
def mergeWord (old : Word) (bs : List Bool) : Word :=
  BitVec.ofNat 32 (bitsVal ((List.range 32).map fun p => bs.getD p (old.getLsbD (31 - p))))

/-- Write a stream to BITBUF from bit 0; the bits at and beyond its end keep their values (R180). -/
def State.writeStream (s : State) (bs : List Bool) : State :=
  { s with mem := s.mem.writeWords bitbufBase ((List.range (wordsFor bs.length)).map fun j =>
      mergeWord (s.wordAt (bitbufBase + 4 * j)) (bs.drop (32 * j))) }

/-! ### The grids -/

/-- RASTER as integers 0..255, row-major (R40, R84). -/
def State.rasterCells (s : State) : List Int :=
  (List.range s.build.cells).map fun i => ((s.byteAt (rasterBase + 4 * i)).toNat : Int)

/-- RESID as signed integers, row-major (R41, R84). -/
def State.residCells (s : State) : List Int :=
  (List.range s.build.cells).map fun i => (s.wordAt (residBase + 4 * i)).toInt

/-- CODEGRID as code words, row-major (R42). -/
def State.codeCells (s : State) : List Word :=
  (List.range s.build.cells).map fun i => s.wordAt (codegridBase + 4 * i)

/-- RECON as integers 0..255, row-major (R43). -/
def State.reconCells (s : State) : List Int :=
  (List.range s.build.cells).map fun i => ((s.byteAt (reconBase + 4 * i)).toNat : Int)

/-- Write RESID from cell 0, each value in two's complement (R41). -/
def State.writeResid (s : State) (es : List Int) : State :=
  { s with mem := s.mem.writeWords residBase (es.map (BitVec.ofInt 32)) }

/-- Write CODEGRID from cell 0 (R42). -/
def State.writeCodes (s : State) (ws : List Word) : State :=
  { s with mem := s.mem.writeWords codegridBase ws }

/-- Write RECON from cell 0, each value an 8-bit sample (R43). -/
def State.writeRecon (s : State) (xs : List Int) : State :=
  { s with mem := s.mem.writeSamples reconBase (xs.map (BitVec.ofInt 8)) }

/-! ### Register operands -/

/-- sext_16 of an operand register as an integer (R27, R84). -/
def sext16 (v : BitVec 16) : Int := v.toInt

end Sys2Proof.Machine
end

