-- ==== Sys2Proof/Machine/CodeTable.lean ====
section
/-! DEFINITION. The Huffman code table: lookups, SYM_ENC, SYM_DEC, MAP_FWD and MAP_INV (42_codetable.md). -/

namespace Sys2Proof.Machine

/-- encodeSymbol(v): the code of a value, none outside the alphabet (R153). -/
def encodeSymbol (t : CodeTable) (v : Int) : Option (List Bool) :=
  (t.find? fun e => e.value == v).map Entry.code

/-- The entry whose code the remaining stream begins with (R154). The matching set has at most one member by W4, so the
first match is the match (R151, C4). -/
def matchEntry (t : CodeTable) (rest : List Bool) : Option Entry :=
  t.find? fun e => e.code.isPrefixOf rest

/-- The entry whose canonical word a code word is (R159). -/
def wordEntry (t : CodeTable) (w : Word) : Option Entry :=
  t.find? fun e => codeWord e.code == w

/-- One cell of MAP_FWD: the first-cell field at cell 0, the table elsewhere (R155, R158). -/
def mapFwdCell (t : CodeTable) (i : Nat) (v : Int) : Except CmdError Word :=
  if i = 0 then
    if v < 0 ∨ 255 < v then .error ⟨.unknownSymbol, 0⟩ else .ok (codeWord (firstCellBits v.toNat))
  else
    match encodeSymbol t v with
    | none => .error ⟨.unknownSymbol, i⟩
    | some bs => .ok (codeWord bs)

/-- One cell of MAP_INV: an 8-bit first-cell word at cell 0, a canonical table word elsewhere (R159). -/
def mapInvCell (t : CodeTable) (i : Nat) (w : Word) : Except CmdError Int :=
  if i = 0 then
    if w.extractLsb' 8 24 ≠ 0x080000#24 then .error ⟨.malformedStream, 0⟩ else .ok (w.extractLsb' 0 8).toNat
  else
    match wordEntry t w with
    | none => .error ⟨.malformedStream, i⟩
    | some e => .ok e.value

/-- CODE_OUT takes the canonical word of SYM_IN's code (R156). -/
def symEncStage (s : State) : Except CmdError State :=
  match encodeSymbol s.build.table s.symIn.toInt with
  | none => .error ⟨.unknownSymbol, 0⟩
  | some bs => .ok { s with codeOut := codeWord bs }

/-- One code is matched at CURSOR: SYM_OUT, CONSUMED and CURSOR (R157). -/
def symDecStage (s : State) : Except CmdError State :=
  if Config.maxBits < s.bitLen.toNat then .error ⟨.badOperand, 0⟩
  else if s.bitLen.toNat < s.cursor.toNat then .error ⟨.badOperand, 0⟩
  else
    match matchEntry s.build.table ((s.streamBits s.bitLen.toNat).drop s.cursor.toNat) with
    | none => .error ⟨.malformedStream, 0⟩
    | some e =>
      .ok { s with
        symOut := BitVec.ofInt 32 e.value
        consumed := BitVec.ofNat 8 e.code.length
        cursor := s.cursor + BitVec.ofNat 16 e.code.length }

/-- CODEGRID takes the code words of RESID (R158). -/
def mapFwdStage (s : State) : Except CmdError State :=
  match mapCells (mapFwdCell s.build.table) 0 s.residCells with
  | .error e => .error e
  | .ok ws => .ok (s.writeCodes ws)

/-- RESID takes the values of CODEGRID's words (R159). -/
def mapInvStage (s : State) : Except CmdError State :=
  match mapCells (mapInvCell s.build.table) 0 s.codeCells with
  | .error e => .error e
  | .ok vs => .ok (s.writeResid vs)

/-- SYM_ENC (R156). -/
def execSymEnc (s : State) : Host.Outcome State Fault Refusal := finish .symEnc s (symEncStage s)

/-- SYM_DEC (R157). -/
def execSymDec (s : State) : Host.Outcome State Fault Refusal := finish .symDec s (symDecStage s)

/-- MAP_FWD (R158). -/
def execMapFwd (s : State) : Host.Outcome State Fault Refusal := finish .mapFwd s (mapFwdStage s)

/-- MAP_INV (R159). -/
def execMapInv (s : State) : Host.Outcome State Fault Refusal := finish .mapInv s (mapInvStage s)

end Sys2Proof.Machine
end

