-- ==== Sys2Proof/Machine/Bitstream.lean ====
section
/-! DEFINITION. The bitstream packer and unpacker: PACK and UNPACK (43_bitstream.md). -/

namespace Sys2Proof.Machine

/-- The stream bits of one code-grid cell; a LEN above 24 raises BadOperand (R180). -/
def packCell (i : Nat) (w : Word) : Except CmdError (List Bool) :=
  if Config.maxCodeLength < codeLen w then .error ⟨.badOperand, i⟩ else .ok (codeBits w)

/-- The stream of a code grid: its cells' bits in row-major order with no separators (R89, R180). -/
def packGrid (ws : List Word) : Except CmdError (List Bool) :=
  match mapCells packCell 0 ws with
  | .error e => .error e
  | .ok bss => .ok bss.flatten

/-- The cells after the first (R181): `k` cells from index `i` are matched one after another at the front of the remaining
stream; the result is their code words and the number of bits used. -/
def unpackCells (t : CodeTable) : Nat → Nat → List Bool → Except CmdError (List Word × Nat)
  | 0, _, _ => .ok ([], 0)
  | k + 1, i, rest =>
    match matchEntry t rest with
    | none => .error ⟨.malformedStream, i⟩
    | some e =>
      match unpackCells t k (i + 1) (rest.drop e.code.length) with
      | .error err => .error err
      | .ok (ws, n) => .ok (codeWord e.code :: ws, e.code.length + n)

/-- The code grid of a stream and the number of bits used (R181): eight bits for cell 0, a table code for each other cell. -/
def unpackGrid (t : CodeTable) (cells : Nat) (bs : List Bool) : Except CmdError (List Word × Nat) :=
  if bs.length < 8 then .error ⟨.malformedStream, 0⟩
  else
    match unpackCells t (cells - 1) 1 (bs.drop 8) with
    | .error e => .error e
    | .ok (ws, n) => .ok (codeWord (bs.take 8) :: ws, 8 + n)

/-- BITBUF takes the stream of CODEGRID and BIT_LEN its length (R180). -/
def packStage (s : State) : Except CmdError State :=
  match packGrid s.codeCells with
  | .error e => .error e
  | .ok bs => .ok { s.writeStream bs with bitLen := BitVec.ofNat 16 bs.length }

/-- CODEGRID takes the code words of the stream and BIT_POS the bits used (R181). -/
def unpackStage (s : State) : Except CmdError State :=
  if Config.maxBits < s.bitLen.toNat then .error ⟨.badOperand, 0⟩
  else
    match unpackGrid s.build.table s.build.cells (s.streamBits s.bitLen.toNat) with
    | .error e => .error e
    | .ok (ws, n) => .ok { s.writeCodes ws with bitPos := BitVec.ofNat 16 n }

/-- PACK (R180). -/
def execPack (s : State) : Host.Outcome State Fault Refusal := finish .pack s (packStage s)

/-- UNPACK (R181). -/
def execUnpack (s : State) : Host.Outcome State Fault Refusal := finish .unpack s (unpackStage s)

end Sys2Proof.Machine
end

