-- ==== Sys2Proof/Machine/Predict.lean ====
section
/-! DEFINITION. The prediction filter and PREDICT (40_predict.md). -/

namespace Sys2Proof.Machine

/-- Division by two truncating toward zero (R12). -/
def tdiv2 (n : Int) : Int := n.tdiv 2

/-- The seven formulas over left `a`, above `b` and above-left `c` (R111), exact integers. -/
def predict (f : Selector) (a b c : Int) : Int :=
  match f with
  | .left => a
  | .above => b
  | .diag => c
  | .plane => a + b - c
  | .leftgrad => a + tdiv2 (b - c)
  | .abovegrad => b + tdiv2 (a - c)
  | .mean => tdiv2 (a + b)

/-- PRED_OUT takes the prediction from the operand registers (R112). -/
def predictStage (f : Selector) (s : State) : State :=
  { s with predOut := BitVec.ofInt 32 (predict f (sext16 s.opa) (sext16 s.opb) (sext16 s.opc)) }

/-- PREDICT (R112). -/
def execPredict (f : Selector) (s : State) : Host.Outcome State Fault Refusal :=
  finish (.predict f) s (.ok (predictStage f s))

end Sys2Proof.Machine
end

