-- ==== Sys2Proof/Machine/Transform.lean ====
section
/-! DEFINITION. The residual transform unit: XFORM_FWD and XFORM_INV (41_transform.md). -/

namespace Sys2Proof.Machine

/-- What is subtracted from the sample of cell `i` to give its residual (R130): nothing at cell (0,0), the left neighbour in
the first row, the one above in the first column, and the prediction elsewhere. `y` gives the samples by cell index. -/
def predictionAt (n : Nat) (f : Selector) (y : Nat → Int) (i : Nat) : Int :=
  if i / n = 0 then
    if i % n = 0 then 0 else y (i - 1)
  else if i % n = 0 then y (i - n)
  else predict f (y (i - 1)) (y (i - n)) (y (i - n - 1))

/-- The residual grid of a raster (R130, R131). -/
def residuals (n : Nat) (f : Selector) (xs : List Int) : List Int :=
  (List.range (n * n)).map fun i => xs.getD i 0 - predictionAt n f (fun j => xs.getD j 0) i

/-- The reconstruction walk (R132): `acc` holds the samples of the cells before the next one; a value outside 0..255 raises
MalformedStream at its cell. -/
def reconstructFrom (n : Nat) (f : Selector) : List Int → List Int → Except CmdError (List Int)
  | acc, [] => .ok acc
  | acc, e :: es =>
    let x := e + predictionAt n f (fun j => acc.getD j 0) acc.length
    if x < 0 ∨ 255 < x then .error ⟨.malformedStream, acc.length⟩
    else reconstructFrom n f (acc ++ [x]) es

/-- The raster that a residual grid gives, or the range error (R132). -/
def reconstruct (n : Nat) (f : Selector) (es : List Int) : Except CmdError (List Int) := reconstructFrom n f [] es

/-- RESID takes the residual grid of RASTER (R131). -/
def xformFwdStage (f : Selector) (s : State) : State :=
  s.writeResid (residuals s.build.side f s.rasterCells)

/-- RECON takes the raster that RESID gives, or the range error is raised (R132). -/
def xformInvStage (f : Selector) (s : State) : Except CmdError State :=
  match reconstruct s.build.side f s.residCells with
  | .error e => .error e
  | .ok xs => .ok (s.writeRecon xs)

/-- XFORM_FWD (R131). -/
def execXformFwd (f : Selector) (s : State) : Host.Outcome State Fault Refusal :=
  finish (.xformFwd f) s (.ok (xformFwdStage f s))

/-- XFORM_INV (R132). -/
def execXformInv (f : Selector) (s : State) : Host.Outcome State Fault Refusal :=
  finish (.xformInv f) s (xformInvStage f s)

end Sys2Proof.Machine
end

