-- ==== Sys2Proof/Machine/Pipeline.lean ====
section
/-! DEFINITION. NOP and the composite commands ENCODE and DECODE (44_pipeline.md). -/

namespace Sys2Proof.Machine

/-- The stages of ENCODE in order, each reading what the one before wrote (R204). -/
def encodeStage (f : Selector) (s : State) : Except CmdError State :=
  match mapFwdStage (xformFwdStage f s) with
  | .error e => .error e
  | .ok t => packStage t

/-- The stages of DECODE in order (R205). -/
def decodeStage (f : Selector) (s : State) : Except CmdError State :=
  match unpackStage s with
  | .error e => .error e
  | .ok t =>
    match mapInvStage t with
    | .error e => .error e
    | .ok u => xformInvStage f u

/-- NOP (R202): no operand and no output, only completion. -/
def execNop (s : State) : Host.Outcome State Fault Refusal := finish .nop s (.ok s)

/-- ENCODE (R204). -/
def execEncode (f : Selector) (s : State) : Host.Outcome State Fault Refusal := finish (.encode f) s (encodeStage f s)

/-- DECODE (R205). -/
def execDecode (f : Selector) (s : State) : Host.Outcome State Fault Refusal := finish (.decode f) s (decodeStage f s)

end Sys2Proof.Machine
end

