-- ==== Sys2Proof/Machine/Dispatch.lean ====
section
/-! DEFINITION. Which meaning runs a command: one arm per constructor of Instr (R81). -/

namespace Sys2Proof.Machine

def exec (i : Instr) (s : State) : Host.Outcome State Fault Refusal :=
  match i with
  | .nop => Sys2Proof.Machine.execNop s
  | .predict f => Sys2Proof.Machine.execPredict f s
  | .xformFwd f => Sys2Proof.Machine.execXformFwd f s
  | .xformInv f => Sys2Proof.Machine.execXformInv f s
  | .symEnc => Sys2Proof.Machine.execSymEnc s
  | .symDec => Sys2Proof.Machine.execSymDec s
  | .mapFwd => Sys2Proof.Machine.execMapFwd s
  | .mapInv => Sys2Proof.Machine.execMapInv s
  | .pack => Sys2Proof.Machine.execPack s
  | .unpack => Sys2Proof.Machine.execUnpack s
  | .encode f => Sys2Proof.Machine.execEncode f s
  | .decode f => Sys2Proof.Machine.execDecode f s

end Sys2Proof.Machine
end

