-- ==== Sys2Proof/Machine/HostAccess.lean ====
section
/-! DEFINITION. Accesses of the host to the window, and the reset input (20_memory.md, R250). -/

namespace Sys2Proof.Machine

/-- The window offset of a host address, none outside BASE .. BASE + 0x7FFF (R60). -/
def windowOffset (b : Build) (addr : Nat) : Option Nat :=
  if b.base ≤ addr ∧ addr < b.base + Config.windowSize then some (addr - b.base) else none

/-- The only supported access: four bytes at a multiple of four (R61). -/
def supported (off width : Nat) : Bool := width == 4 && off % 4 == 0

/-- The number of leading BITBUF bits in W(cmd): the BIT_LEN a PACK or ENCODE will write; all of them where the command
fails, since BIT_LEN itself is then unspecified (R84, R225; log 8). -/
def streamExtent (i : Instr) (s : State) : Nat :=
  let extent (r : Except CmdError State) : Nat :=
    match r with
    | .ok t => t.bitLen.toNat
    | .error _ => Config.maxBits
  match i with
  | .pack => extent (packStage s)
  | .encode f => extent (encodeStage f s)
  | .nop | .predict _ | .xformFwd _ | .xformInv _ | .symEnc | .symDec | .mapFwd | .mapInv | .unpack | .decode _ => 0

/-- Whether a location belongs to W(cmd) of the command in flight (R67). A BITBUF word belongs to it when one of its bits
does (log 11), or when the command has been spoilt and its extent is unspecified. -/
def State.unsettled (s : State) (l : Loc) : Bool :=
  match s.inFlight with
  | none => false
  | some w =>
    match decode w with
    | .error _ => false
    | .ok i =>
      (outputs i s.build).contains l &&
        match l with
        | .bitbuf j => !s.tainted.isEmpty || decide (32 * j < streamExtent i s)
        | _ => true

/-- A read that returns an unspecified value: the free value of a fresh draw (R67, R250). DESIGN CHOICE (log 23), safe: all 32
bits are free, also those that the location does not store and R36 says read 0. -/
def State.readFree (s : State) (off : Nat) : State :=
  { s with lastRead := some (Config.freeWord s.draws off), draws := s.draws + 1 }

/-- The effect of a host read at a window offset, outside reset: an unsupported access and an unmapped word read 0 (R61,
R62); while BUSY a location of W(cmd) reads as a free value, everything else as it stands (R64, R67). -/
def State.readWindow (s : State) (off width : Nat) : State :=
  if supported off width then
    match Loc.ofOffset s.build off with
    | none => { s with lastRead := some 0#32 }
    | some l =>
      if s.status.busy && s.unsettled l then s.readFree off
      else { s with lastRead := some (s.readLoc l) }
  else { s with lastRead := some 0#32 }

/-- A host write that R67 and R256 forbid, at a location other than CMD while BUSY: the model records it as a host fault
and lets the location, and at completion the command's outcome, be free (log 9). -/
def State.taint (s : State) (l : Loc) : State :=
  { (if l.hostWritable then s.storeLoc l (Config.freeWord s.draws l.offset) else s) with
    draws := s.draws + 1, tainted := l :: s.tainted, hostFault := true }

/-- The effect of a host write at a window offset, outside reset: an unsupported access and an unmapped word have no effect
(R61, R62); a write of CMD issues a command when the PCC is idle and is dropped while BUSY (R200); a write of a RW location
stores, and one of a read-only location does nothing (R63). -/
def State.writeWindow (s : State) (off width : Nat) (value : Word) : State :=
  if supported off width then
    match Loc.ofOffset s.build off with
    | none => s
    | some .cmd => if s.status.busy then s else s.accept value
    | some l =>
      if s.status.busy then s.taint l
      else if l.hostWritable then s.storeLoc l value
      else s
  else s

/-- `MemRead(addr, width)` (R13, R60). While reset is asserted the value is unspecified (R250). -/
def hostRead (addr width : Nat) (s : State) : Host.Outcome State Fault Refusal :=
  match windowOffset s.build addr with
  | none => .fault .outsideWindow
  | some off => .next (if s.inReset then s.readFree off else s.readWindow off width)

/-- `MemWrite(addr, width, value)` (R13, R60). While reset is asserted it has no effect (R250). -/
def hostWrite (addr width : Nat) (value : Word) (s : State) : Host.Outcome State Fault Refusal :=
  match windowOffset s.build addr with
  | none => .fault .outsideWindow
  | some off => .next (if s.inReset then s else s.writeWindow off width value)

/-- Reset asserted (R250, R251, R252): every register takes its reset value, the in-flight command is discarded, and the
buffers are unspecified afresh. The configuration, the inputs still to come and the host's last read stand (log 14). -/
def State.assertReset (s : State) : State :=
  { State.reset with
    build := s.build, inReset := true, agenda := s.agenda, lastRead := s.lastRead
    draws := s.draws + 1, resetDraw := s.draws }

/-- Reset released: the PCC stands idle in its reset state (R253). -/
def State.releaseReset (s : State) : State := { s with inReset := false }

end Sys2Proof.Machine
end

