-- ==== Sys2Proof/Machine/Turn.lean ====
section
/-! DEFINITION. The PCC's turn (R201) and the effect of each input event. -/

namespace Sys2Proof.Machine

/-- W(cmd) of a command word: empty for an illegal word (R203). -/
def wordOutputs (w : Word) (b : Build) : List Loc :=
  match decode w with
  | .ok i => outputs i b
  | .error _ => []

/-- Completion of a command that a forbidden host write has spoilt (R67): BUSY falls and DONE rises; ERR, ERRCODE,
ERR_INDEX, every location of W(cmd) and the written locations are free (log 9). -/
def State.completeTainted (s : State) (w : Word) : State :=
  { s.scramble (wordOutputs w s.build ++ s.tainted) with
    errIndex := (Config.freeWord s.draws Loc.errIndex.offset).setWidth 16
    status := .completed (Config.freeOutcome s.draws)
    inFlight := none, tainted := [] }

/-- The completion step of the command in flight (R201): a legal word runs its command, an illegal one completes with
IllegalCommand and changes nothing else (R203). -/
def completeWord (w : Word) (s : State) : Host.Outcome State Fault Refusal :=
  match decode w with
  | .ok i => exec i s
  | .error _ => .next (s.completeError ⟨.illegalCommand, 0⟩ [])

/-- The PCC's turn: nothing in reset (R250) and nothing without a command in flight (R253). -/
def pccTurn (s : State) : Host.Outcome State Fault Refusal :=
  if s.inReset then .next s
  else
    match s.inFlight with
    | none => .next s
    | some w => if s.tainted.isEmpty then completeWord w s else .next (s.completeTainted w)

/-- The effect of one input event. -/
def runEvent (e : Event) (s : State) : Host.Outcome State Fault Refusal :=
  match e with
  | .pccTurn => pccTurn s
  | .hostRead addr width => hostRead addr width s
  | .hostWrite addr width value => hostWrite addr width value s
  | .resetAssert => .next s.assertReset
  | .resetRelease => .next s.releaseReset

/-- An accepted command with the PCC's turn next: how a command comes to run (R200; log 4). -/
def State.issueNext (s : State) (w : Word) : State :=
  { s.accept w with inReset := false, agenda := .pccTurn :: s.agenda }

end Sys2Proof.Machine
end

