-- ==== Sys2Proof/Machine/Step.lean ====
section
/-! DEFINITION. One step of the machine: the next input event, or, when none is left, the PCC's turn (R262, log 3). -/

namespace Sys2Proof.Machine

/-- One step. With no input left the PCC has the turn, so an accepted command always completes (R201, R262). -/
def step (s : State) : Host.Outcome State Fault Refusal :=
  match s.agenda with
  | [] => pccTurn s
  | e :: rest => runEvent e { s with agenda := rest }

/-- The state in which the very next step runs the command word `w` (of `nbits` bits, the rest 0). The PCC fetches nothing
(R22): a word reaches it as the data of a host write to CMD, so this is that write's acceptance (log 4). -/
def State.withFetchWord (s : State) (nbits w : Nat) : State :=
  s.issueNext (BitVec.ofNat 32 (w % 2 ^ nbits))

end Sys2Proof.Machine
end

