-- ==== Sys2Proof/Machine/HostProgram.lean ====
section
/-! DEFINITION. Host programs as lists of events: the syntax WR and RD of R91, and POLL, RUN and CHECK of R92. -/

namespace Sys2Proof.Machine

/-- `WR loc, value` (R91). -/
def wr (b : Build) (l : Loc) (value : Word) : Event := .hostWrite (b.base + l.offset) 4 value

/-- `RD loc` (R91). -/
def rd (b : Build) (l : Loc) : Event := .hostRead (b.base + l.offset) 4

/-- `POLL` (R92) when `k` reads of STATUS find BUSY = 1 before the command completes and one finds BUSY = 0. -/
def poll (b : Build) (k : Nat) : List Event := List.replicate k (rd b .status) ++ [.pccTurn, rd b .status]

/-- `RUN w` (R92): the word written to CMD, then POLL. -/
def run (b : Build) (w : Word) (k : Nat) : List Event := wr b .cmd w :: poll b k

/-- `CHECK` (R92): the accesses it makes. -/
def check (b : Build) : List Event := [rd b .status, rd b .errIndex]

/-- What `CHECK` concludes from the words it reads: the error code and the cell, where STATUS[2] is 1 (R92). -/
def checkResult (status errIndex : Word) : Option (BitVec 4 × Word) :=
  if status.getLsbD 2 then some (status.extractLsb' 4 4, errIndex) else none

end Sys2Proof.Machine
end

