-- ==== Sys2Proof/Safety.lean ====
section
/-! DEFINITION. What counts as a safe run, and the invariant of the machine. -/

namespace Sys2Proof.Machine

/-- A host that respects R256 so far, and no command spoilt. -/
def State.hostObedient (s : State) : Prop := s.hostFault = false ∧ s.tainted = []

/-- A step that goes on and keeps the host's duty R256. -/
def SafeStep (s : State) : Prop := ∃ t, step s = .next t ∧ (s.hostObedient → t.hostObedient)

/-- The PCC is idle: no command in flight and reset released (R253). -/
def State.idle (s : State) : Prop := s.inReset = false ∧ s.inFlight = none ∧ s.status.busy = false

/-- A window offset that is a byte of storage of a build (R40 to R44, R62). -/
def storageByte (b : Build) (a : Nat) : Prop := ∃ l : Loc, l.mapped b = true ∧ a ∈ l.bytes

/-- `t` differs from `s` in the window at most at the mapped locations `exc` admits: every other location reads the same,
every byte of storage outside their bytes is the same, and the configuration, the inputs, the host's last read, the reset
input, the host-fault record and the contents of unwritten storage stand. -/
structure State.SameBut (exc : Loc → Prop) (s t : State) : Prop where
  locs : ∀ l : Loc, l.mapped s.build = true → ¬ exc l → t.readLoc l = s.readLoc l
  bytes : ∀ a, (∀ l : Loc, l.mapped s.build = true → exc l → a ∉ l.bytes) → t.byteAt a = s.byteAt a
  build : t.build = s.build
  agenda : t.agenda = s.agenda
  lastRead : t.lastRead = s.lastRead
  inReset : t.inReset = s.inReset
  hostFault : t.hostFault = s.hostFault
  resetDraw : t.resetDraw = s.resetDraw

/-- The invariant of the machine. -/
structure State.Inv (s : State) : Prop where
  /-- Storage keeps its canonical form. -/
  memWf : s.mem.wf
  /-- Only bytes the window stores are listed. -/
  memStored : ∀ c ∈ s.mem, storageByte s.build c.1
  /-- No combination of STATUS fields other than the legal ones of R25. -/
  statusLegal : s.status.legal = true
  /-- BUSY is 1 exactly while an accepted command is in flight (R25, R37). -/
  busyInFlight : s.status.busy = s.inFlight.isSome
  /-- The command in flight is readable as CMD (R37). -/
  cmdInFlight : ∀ w, s.inFlight = some w → s.cmd = w
  /-- ERR_INDEX is 0 while a command is in flight (R26, R200). -/
  errIndexInFlight : s.inFlight.isSome → s.errIndex = 0#16
  /-- With a host that keeps R256, ERR_INDEX names a cell, and is 0 unless ERR is 1 (R26). -/
  errIndexCell : s.hostFault = false → s.errIndex.toNat < s.build.cells ∧ (s.status.err = false → s.errIndex = 0#16)
  /-- Only a command in flight can be spoilt, and only by a host fault. -/
  taintedInFlight : s.tainted ≠ [] → s.inFlight.isSome ∧ s.hostFault = true
  /-- Spoilt locations are locations of the window. -/
  taintedMapped : ∀ l ∈ s.tainted, l.mapped s.build = true
  /-- Nothing is in flight while reset is asserted (R250). -/
  resetIdle : s.inReset = true → s.inFlight = none
  /-- Storage not written since reset reads from a draw already counted. -/
  drawn : s.resetDraw < s.draws

end Sys2Proof.Machine
end

