-- ==== Sys2Proof/Certificates/Slice0/Obligations.lean ====
section
/-! DEFINITION. The statements for the provers. Each docstring names the rule of the spec it formalises. -/

open Sys2Proof Sys2Proof.Machine

/-! ### Encoding (30_encoding.md) -/

/-- Each word spells at most one command and each command has one word: decoding gives `i` exactly on the word of `i`, over
all 2^32 words and all commands with all selectors (R80, R81, R91). -/
def Obligations.DecodeAndEncodeAgree : Prop := ∀ (w : Word) (i : Instr), decode w = .ok i ↔ encode i = w

/-- R82: the three conditions of legality, their match/mask form, and that an illegal word is accepted like any other and
completes with IllegalCommand; decoding is total, a function on all words. -/
def Obligations.LegalWordsAreTheDecodedOnes : Prop :=
  ∀ w : Word,
    ((∃ i, decode w = .ok i) ↔
      w.extractLsb' 7 25 = 0#25 ∧ (w.extractLsb' 0 4).toNat ≤ 0xB ∧
        (if (w.extractLsb' 0 4).toNat ∈ [0x1, 0x2, 0x3, 0xA, 0xB]
         then 1 ≤ (w.extractLsb' 4 3).toNat ∧ (w.extractLsb' 4 3).toNat ≤ 7
         else (w.extractLsb' 4 3).toNat = 0)) ∧
    ((∃ i, decode w = .ok i) ↔
      (w &&& 0xFFFFFFFF#32 ∈ [0x0#32, 0x4#32, 0x5#32, 0x6#32, 0x7#32, 0x8#32, 0x9#32]) ∨
      (w &&& 0xFFFFFF8F#32 ∈ [0x1#32, 0x2#32, 0x3#32, 0xA#32, 0xB#32] ∧ w.extractLsb' 4 3 ≠ 0#3)) ∧
    ((∃ i, decode w = .ok i) ↔ Word.legal w = true) ∧
    ((¬ ∃ i, decode w = .ok i) → ∀ s : State, s.inReset = false → s.status.busy = false →
      hostWrite s.build.base 4 w s = .next (s.accept w) ∧
      ∃ t, pccTurn (s.accept w) = .next t ∧ t.readLoc .status = 0x36#32)

/-- Words written out from the encodings of R81 and R91 decode to the commands they stand for. -/
def Obligations.SampleWordsDecode : Prop :=
  decode 0x00000000#32 = .ok .nop ∧ decode 0x00000061#32 = .ok (.predict .abovegrad) ∧
  decode 0x00000072#32 = .ok (.xformFwd .mean) ∧ decode 0x00000013#32 = .ok (.xformInv .left) ∧
  decode 0x00000004#32 = .ok .symEnc ∧ decode 0x00000005#32 = .ok .symDec ∧ decode 0x00000006#32 = .ok .mapFwd ∧
  decode 0x00000007#32 = .ok .mapInv ∧ decode 0x00000008#32 = .ok .pack ∧ decode 0x00000009#32 = .ok .unpack ∧
  decode 0x0000004A#32 = .ok (.encode .plane) ∧ decode 0x0000004B#32 = .ok (.decode .plane) ∧
  decode 0x0000000A#32 = .error .selectorMissing ∧ decode 0x00000018#32 = .error .selectorNotAllowed ∧
  decode 0x0000000C#32 = .error .reservedOpcode ∧ decode 0x00000080#32 = .error .reservedBits

/-- R87 and R88: the canonical word of a bit string of 1 to 24 bits holds its length and its value, and denotes it; the
first-cell field of a sample has its 8 bits, most significant first, and its code word is 0x08000000 plus the sample. R86: a
word with LEN at most 24, canonical or not, denotes its LEN bits BITS[LEN-1] to BITS[0]; the bits above are ignored. -/
def Obligations.CodeWordsDenoteTheirBits : Prop :=
  (∀ bs : List Bool, 1 ≤ bs.length → bs.length ≤ 24 →
    ((codeWord bs).extractLsb' 24 8).toNat = bs.length ∧
    ((codeWord bs).extractLsb' 0 24).toNat = ((List.range bs.length).map fun k =>
      (bs.getD k false).toNat * 2 ^ (bs.length - 1 - k)).sum ∧
    codeBits (codeWord bs) = bs) ∧
  (∀ w : Word, (w.extractLsb' 24 8).toNat ≤ 24 →
    (codeBits w).length = (w.extractLsb' 24 8).toNat ∧
    ∀ k, k < (w.extractLsb' 24 8).toNat → (codeBits w).getD k false = w.getLsbD ((w.extractLsb' 24 8).toNat - 1 - k)) ∧
  (∀ v : Byte, (firstCellBits v.toNat).length = 8 ∧
    (∀ k, k < 8 → (firstCellBits v.toNat).getD k false = v.getLsbD (7 - k)) ∧
    bitsVal (firstCellBits v.toNat) = v.toNat ∧
    codeWord (firstCellBits v.toNat) = 0x08000000#32 + v.setWidth 32) ∧
  codeWord [false, false, true, true] = 0x04000003#32 ∧
  codeWord [false, true, true, false, false, true, false, false] = 0x08000064#32 ∧
  firstCellBits 100 = [false, true, true, false, false, true, false, false]

/-! ### The life of a command (44_pipeline.md) -/

/-- R200: a write of any word to CMD while idle is accepted in one step; a write while BUSY has no effect at all. -/
def Obligations.CmdWriteAcceptsOrIsDropped : Prop :=
  ∀ (s : State) (w : Word), s.inReset = false →
    (s.status.busy = false →
      hostWrite s.build.base 4 w s = .next { s with
        cmd := w, status := { busy := true, done := false, err := false, errCode := 0#4 }, errIndex := 0#16,
        inFlight := some w, tainted := [] }) ∧
    (s.status.busy = true → hostWrite s.build.base 4 w s = .next s)

/-- A step runs the decoded command: when the command in flight decodes to `i`, no forbidden write has spoilt it, and the
PCC has the turn, the step is `exec i` after that turn is taken from the inputs (R201). Whose turn it is stands in the
model's `agenda` (log 3). -/
def Obligations.StepRunsTheDecodedCommand : Prop :=
  ∀ (s : State) (w : Word) (i : Instr), s.inReset = false → s.inFlight = some w → s.tainted = [] → decode w = .ok i →
    (s.agenda = [] → step s = exec i s) ∧
    (∀ rest, s.agenda = .pccTurn :: rest → step s = exec i { s with agenda := rest })

/-- R203: an illegal word completes with IllegalCommand, ERR_INDEX 0, and changes nothing else. -/
def Obligations.IllegalWordChangesNothingElse : Prop :=
  ∀ (s : State) (w : Word), s.inReset = false → s.inFlight = some w → s.tainted = [] →
    (w.extractLsb' 7 25 ≠ 0#25 ∨ 0xC ≤ (w.extractLsb' 0 4).toNat ∨
      ((w.extractLsb' 0 4).toNat ∈ [0x1, 0x2, 0x3, 0xA, 0xB] ∧ w.extractLsb' 4 3 = 0#3) ∨
      ((w.extractLsb' 0 4).toNat ∉ [0x1, 0x2, 0x3, 0xA, 0xB] ∧ w.extractLsb' 4 3 ≠ 0#3)) →
    ∃ t, pccTurn s = .next t ∧ t.readLoc .status = 0x36#32 ∧ t.readLoc .errIndex = 0#32 ∧ t.inFlight = none ∧
      s.SameBut (fun l => l = .status ∨ l = .errIndex) t

/-- Every accepted command completes (R201, R262): with no reset and no access outside the window among the inputs, some
number of steps, at most one more than the inputs, ends with the command no longer in flight and DONE = 1. The bound rests
on the model's `agenda`, which gives the PCC the turn when no input is left (log 3). -/
def Obligations.AcceptedCommandCompletes : Prop :=
  ∀ (s : State) (w : Word), s.inReset = false → s.inFlight = some w → s.status.busy = true →
    (∀ e ∈ s.agenda, e = .pccTurn ∨
      (∃ addr width, e = .hostRead addr width ∧ s.build.base ≤ addr ∧ addr < s.build.base + 0x8000) ∨
      (∃ addr width v, e = .hostWrite addr width v ∧ s.build.base ≤ addr ∧ addr < s.build.base + 0x8000)) →
    ∃ k t, k ≤ s.agenda.length + 1 ∧ Sys2Proof.core.run k s = .next t ∧ t.inFlight = none ∧ t.status.done = true ∧
      t.status.busy = false

/-- RUN of R92 gives the same result at every latency (R262): the state the command's rule gives from the accepted state,
with STATUS as the host's last read. Latency is the number of reads before the PCC's turn in the model's `agenda` (log 3), and
`lastRead` is the model's record of what the host read (log 12). -/
def Obligations.RunIsTheSameAtEveryLatency : Prop :=
  ∀ (s : State) (i : Instr) (k : Nat), s.inReset = false → s.status.busy = false →
    ∃ u, exec i (s.accept (encode i)) = .next u ∧
      Sys2Proof.core.run (k + 3) { s with agenda := run s.build (encode i) k ++ s.agenda } =
        .next { u with lastRead := some (u.readLoc .status) }

/-! ### Host accesses (20_memory.md) -/

/-- R61 and R62: an access of another width or not at a multiple of four, and an access to a reserved or unmapped offset or
to a grid word at cell index CELLS or above, has no effect as a write and reads 0, with no error, at any time outside
reset. That such a write has no effect while BUSY, and spoils nothing, is the model's reading (log 10); so is that an access
which starts in the window and runs past its end is an unsupported access of the window (log 13); `lastRead` is the model's
record of what a read returned (log 12). -/
def Obligations.UnsupportedAndUnmappedAccesses : Prop :=
  ∀ (s : State) (off width : Nat) (v : Word), s.inReset = false → off < 0x8000 →
    (width ≠ 4 ∨ off % 4 ≠ 0 ∨ (0x03C ≤ off ∧ off < 0x1000) ∨ 0x6000 ≤ off ∨
      (0x1000 ≤ off ∧ off < 0x5000 ∧ s.build.cells ≤ off % 0x1000 / 4)) →
    hostWrite (s.build.base + off) width v s = .next s ∧
    hostRead (s.build.base + off) width s = .next { s with lastRead := some 0#32 }

/-- R63, while idle: a write of a RW location stores the bits its rule names (R27, R29, R31, R32, R40 to R42, R44), which
read back, and every other location and byte stands; a write of a read-only register or of RECON has no effect; a write of
CMD issues a command. -/
def Obligations.HostWritesStoreTheNamedBits : Prop :=
  ∀ (s : State) (l : Loc) (v : Word), s.inReset = false → s.status.busy = false → l.mapped s.build = true →
    (l ∈ [.opa, .opb, .opc, .symIn, .cursor, .bitLen] ∨ (∃ i, l = .raster i ∨ l = .resid i ∨ l = .codegrid i ∨ l = .bitbuf i) →
      ∃ t, hostWrite (s.build.base + l.offset) 4 v s = .next t ∧
        t.readLoc l = (match l with
          | .opa | .opb | .opc => (v.extractLsb' 0 16).signExtend 32
          | .cursor | .bitLen => (v.extractLsb' 0 16).zeroExtend 32
          | .raster _ => (v.extractLsb' 0 8).zeroExtend 32
          | _ => v) ∧
        s.SameBut (· = l) t ∧ t.inFlight = s.inFlight) ∧
    (l ∈ [.status, .errIndex, .id, .predOut, .codeOut, .symOut, .consumed, .bitPos] ∨ (∃ i, l = .recon i) →
      hostWrite (s.build.base + l.offset) 4 v s = .next s) ∧
    (l = .cmd → hostWrite (s.build.base + l.offset) 4 v s = .next (s.accept v))

/-- R69: a host read changes nothing of the PCC (only the host's own data, and the model's count of free values), and a
write of a RW location while idle is idempotent. `lastRead` and `draws` are the model's own fields (log 12, log 5). -/
def Obligations.ReadsHaveNoSideEffect : Prop :=
  (∀ (s t : State) (addr width : Nat), hostRead addr width s = .next t →
    t = { s with lastRead := t.lastRead, draws := t.draws }) ∧
  (∀ (s t : State) (l : Loc) (v : Word), s.status.busy = false → l.mapped s.build = true → l.hostWritable = true →
    hostWrite (s.build.base + l.offset) 4 v s = .next t → hostWrite (s.build.base + l.offset) 4 v t = .next t)

/-- Host reads outside reset (R64, R67). A location reads as it stands while idle; and while BUSY, where it is not in W(cmd) of
the command in flight: every location where the word is illegal (R203), every location that R84 does not list, and, while an
unspoilt PACK or ENCODE that will complete without an error is in flight, every word of BITBUF that holds none of the bits below
the BIT_LEN it will write. `lastRead` is the model's record of what a read returned (log 12), and that a word of BITBUF partly
in W(cmd) is left out is the model's choice (log 11). -/
def Obligations.BusyReadsOutsideTheOutputsAreExact : Prop :=
  ∀ (s : State) (l : Loc), s.inReset = false → l.mapped s.build = true →
    (s.status.busy = false ∨ ∃ w, s.inFlight = some w ∧
      ((∀ i, decode w ≠ .ok i) ∨ ∃ i, decode w = .ok i ∧
        (l ∉ outputs i s.build ∨
          ((i = .pack ∨ ∃ f, i = .encode f) ∧ s.tainted = [] ∧ ∃ t j, exec i s = .next t ∧ t.status.err = false ∧
            l = .bitbuf j ∧ t.bitLen.toNat ≤ 32 * j)))) →
    hostRead (s.build.base + l.offset) 4 s = .next { s with lastRead := some (s.readLoc l) }

/-- Writes while BUSY (R67, R256), whatever word is in flight, legal or not (log 20), and however many such writes came before: a
write to a location other than CMD leaves the command in flight and records the host fault; at the PCC's turn the command still
completes (BUSY = 0, DONE = 1), and no location outside W(cmd), this and the earlier written locations, STATUS and ERR_INDEX
has changed. W(cmd) of an illegal word is empty (R203). `hostFault` and `tainted`, the record of forbidden writes, are the
model's own (log 9); that the recorded locations are locations of the window is an invariant (EveryStepKeepsTheInvariant). -/
def Obligations.BusyWriteSpoilsTheCommand : Prop :=
  ∀ (s : State) (w v : Word) (l : Loc), s.inReset = false → s.status.busy = true → s.inFlight = some w →
    (∀ x ∈ s.tainted, x.mapped s.build = true) → l.mapped s.build = true → l ≠ .cmd →
    ∃ t u, hostWrite (s.build.base + l.offset) 4 v s = .next t ∧ t.inFlight = some w ∧ t.status = s.status ∧
      t.hostFault = true ∧
      pccTurn t = .next u ∧ u.status.busy = false ∧ u.status.done = true ∧ u.inFlight = none ∧ u.hostFault = true ∧
      ∀ l' : Loc, l'.mapped s.build = true → (∀ i, decode w = .ok i → l' ∉ outputs i s.build) → l' ≠ l → l' ∉ s.tainted →
        l' ≠ .status → l' ≠ .errIndex → u.readLoc l' = s.readLoc l'

/-- R34: ID reports N, L_MAX, K and the revision, before and after reset, and a write to it has no effect on it. -/
def Obligations.IdReportsTheConfiguration : Prop :=
  ∀ s : State,
    ((s.readLoc .id).extractLsb' 0 8).toNat = s.build.side ∧
    ((s.readLoc .id).extractLsb' 8 8).toNat = s.build.table.lMax ∧
    ((s.readLoc .id).extractLsb' 16 8).toNat = s.build.table.count ∧
    (s.readLoc .id).extractLsb' 24 8 = 0x01#8 ∧
    s.assertReset.readLoc .id = s.readLoc .id ∧
    ∀ (v : Word) (t : State), hostWrite (s.build.base + 0x00C) 4 v s = .next t → t.readLoc .id = s.readLoc .id

/-! ### Reset (70_reset_and_hazards.md) -/

/-- R251: every register other than ID reads 0 after reset, no command is in flight, and ID is unaffected; the same of the
reset state. That this holds also of the registers in W(cmd) of a command that the reset aborts is the model's reading of R250
and R251 (log 14). -/
def Obligations.RegistersAfterReset : Prop :=
  ∀ s : State, ∀ t ∈ [s.assertReset.releaseReset, State.reset],
    (∀ l ∈ [Loc.cmd, .status, .errIndex, .opa, .opb, .opc, .predOut, .symIn, .codeOut, .cursor, .symOut, .consumed, .bitLen,
      .bitPos], t.readLoc l = 0#32) ∧
    t.readLoc .id = idWord t.build ∧ t.inFlight = none ∧ s.assertReset.releaseReset.readLoc .id = s.readLoc .id

/-- Reset while it is asserted (R250): the in-flight command is discarded, writes have no effect, reads change nothing
but the host's own data and the model's count of free values (log 12, log 5), and the PCC does nothing. -/
def Obligations.NothingHappensDuringReset : Prop :=
  (∀ s : State, s.assertReset.inFlight = none ∧ s.assertReset.inReset = true) ∧
  (∀ (s : State) (off width : Nat) (v : Word), s.inReset = true → off < 0x8000 →
    hostWrite (s.build.base + off) width v s = .next s ∧
    (∃ r, hostRead (s.build.base + off) width s = .next { s with lastRead := some r, draws := s.draws + 1 }) ∧
    pccTurn s = .next s)

/-! ### The prediction filter (40_predict.md) -/

/-- R12 and R111: halving truncates toward zero, and the seven formulas by their SEL values; SEL 0 selects none and makes
the five commands that would call the filter illegal. -/
def Obligations.SevenFormulasWithTruncation : Prop :=
  ((∀ n : Int, 0 ≤ n → 2 * tdiv2 n ≤ n ∧ n < 2 * tdiv2 n + 2) ∧
    (∀ n : Int, n < 0 → 2 * -tdiv2 n ≤ -n ∧ -n < 2 * -tdiv2 n + 2) ∧
    tdiv2 3 = 1 ∧ tdiv2 (-3) = -1 ∧ tdiv2 (-1) = 0 ∧ tdiv2 (-4) = -2) ∧
  selectorOf 0#3 = none ∧
  (∀ w ∈ [0x1#32, 0x2#32, 0x3#32, 0xA#32, 0xB#32], decode w = .error .selectorMissing) ∧
  ∀ sel : BitVec 3, sel ≠ 0#3 → ∃ f, selectorOf sel = some f ∧ ∀ a b c : Int,
    predict f a b c = (match sel.toNat with
      | 1 => a
      | 2 => b
      | 3 => c
      | 4 => a + b - c
      | 5 => a + tdiv2 (b - c)
      | 6 => b + tdiv2 (a - c)
      | _ => tdiv2 (a + b))

/-- R113: predictions from samples. -/
def Obligations.PredictionsFromSamplesAreBounded : Prop :=
  ∀ (f : Selector) (a b c : Int), 0 ≤ a ∧ a ≤ 255 → 0 ≤ b ∧ b ≤ 255 → 0 ≤ c ∧ c ≤ 255 →
    (f ∈ [.left, .above, .diag, .mean] → 0 ≤ predict f a b c ∧ predict f a b c ≤ 255) ∧
    (f = .plane → -255 ≤ predict f a b c ∧ predict f a b c ≤ 510) ∧
    (f ∈ [.leftgrad, .abovegrad] → -127 ≤ predict f a b c ∧ predict f a b c ≤ 382)

/-- R114: equal neighbours predict their value, under every formula. -/
def Obligations.EqualNeighboursPredictTheirValue : Prop := ∀ (f : Selector) (k : Int), predict f k k k = k

/-- PREDICT (R112): PRED_OUT takes the exact prediction of the sign-extended operands, which fits; nothing else changes but
completion. -/
def Obligations.PredictWritesTheExactPrediction : Prop :=
  ∀ (f : Selector) (s : State), ∃ t, exec (.predict f) s = .next t ∧
    (t.readLoc .predOut).toInt = predict f (s.readLoc .opa).toInt (s.readLoc .opb).toInt (s.readLoc .opc).toInt ∧
    -98303 ≤ (t.readLoc .predOut).toInt ∧ (t.readLoc .predOut).toInt ≤ 98302 ∧
    t = { s with predOut := t.predOut, status := .completed none, inFlight := none, tainted := [] }

/-! ### The residual transform (41_transform.md) -/

/-- R130: XFORM_FWD writes the residual grid with its border rules, and never fails. -/
def Obligations.XformFwdWritesTheResidualGrid : Prop :=
  ∀ (f : Selector) (s : State), ∃ t, exec (.xformFwd f) s = .next t ∧ t.status = .completed none ∧
    let n := s.build.side
    let X := fun r c => (s.readLoc (.raster (r * n + c))).toInt
    let E := fun r c => (t.readLoc (.resid (r * n + c))).toInt
    E 0 0 = X 0 0 ∧
    (∀ c, 0 < c → c < n → E 0 c = X 0 c - X 0 (c - 1)) ∧
    (∀ r, 0 < r → r < n → E r 0 = X r 0 - X (r - 1) 0) ∧
    (∀ r c, 0 < r → r < n → 0 < c → c < n →
      E r c = X r c - predict f (X r (c - 1)) (X (r - 1) c) (X (r - 1) (c - 1)))

/-- R134: the ranges of the residuals. -/
def Obligations.ResidualsAreBounded : Prop :=
  ∀ (f : Selector) (s t : State), exec (.xformFwd f) s = .next t →
    let n := s.build.side
    let E := fun i => (t.readLoc (.resid i)).toInt
    (0 ≤ E 0 ∧ E 0 ≤ 255) ∧
    (∀ i, 0 < i → i < n * n → (i < n ∨ i % n = 0 ∨ f ∈ [.left, .above, .diag, .mean]) → -255 ≤ E i ∧ E i ≤ 255) ∧
    (∀ i, n ≤ i → i < n * n → i % n ≠ 0 → f = .plane → -510 ≤ E i ∧ E i ≤ 510) ∧
    (∀ i, n ≤ i → i < n * n → i % n ≠ 0 → f ∈ [.leftgrad, .abovegrad] → -382 ≤ E i ∧ E i ≤ 382) ∧
    (∀ i, i < n * n → -1024 ≤ E i ∧ E i < 1024)

/-- XFORM_INV (R132): on the residual grid of any raster it completes and RECON is that raster. -/
def Obligations.XformInvRebuildsTheRaster : Prop :=
  ∀ (f : Selector) (s : State) (ys : List Int), ys.length = s.build.cells → (∀ y ∈ ys, 0 ≤ y ∧ y ≤ 255) →
    s.residCells = residuals s.build.side f ys →
    ∃ t, exec (.xformInv f) s = .next t ∧ t.status = .completed none ∧
      ∀ i, i < s.build.cells → ((t.readLoc (.recon i)).toNat : Int) = ys.getD i 0

/-- XFORM_INV (R132, R222): the first cell whose value leaves 0..255 is reported with MalformedStream. -/
def Obligations.XformInvReportsTheFirstBadCell : Prop :=
  ∀ (f : Selector) (s : State) (ys : List Int) (x : Int), ys.length < s.build.cells → (∀ y ∈ ys, 0 ≤ y ∧ y ≤ 255) →
    (∀ j, j < ys.length →
      ys.getD j 0 = s.residCells.getD j 0 + predictionAt s.build.side f (fun k => ys.getD k 0) j) →
    x = s.residCells.getD ys.length 0 + predictionAt s.build.side f (fun k => ys.getD k 0) ys.length →
    (x < 0 ∨ 255 < x) →
    ∃ t, exec (.xformInv f) s = .next t ∧ t.readLoc .status = 0x26#32 ∧ (t.readLoc .errIndex).toNat = ys.length

/-- R133, the round-trip law of the transform: for every RASTER content and every formula, XFORM_FWD then XFORM_INV leaves
RECON equal to RASTER cell for cell, with no error. -/
def Obligations.TransformRoundTrip : Prop :=
  ∀ (f : Selector) (s : State), ∃ t u, exec (.xformFwd f) s = .next t ∧ t.status = .completed none ∧
    exec (.xformInv f) (t.accept (encode (.xformInv f))) = .next u ∧ u.status = .completed none ∧
    ∀ i, i < s.build.cells → u.readLoc (.recon i) = s.readLoc (.raster i)

/-- Causality (R135): the residual of a cell depends only on the samples up to that cell, and the reconstruction of a cell
only on the residuals up to it, whatever the rest of the machine holds. -/
def Obligations.ResidualsAreCausal : Prop :=
  ∀ (f : Selector) (s s' t t' : State) (i : Nat), s'.build = s.build → i < s.build.cells →
    ((∀ j, j ≤ i → s'.readLoc (.raster j) = s.readLoc (.raster j)) →
      exec (.xformFwd f) s = .next t → exec (.xformFwd f) s' = .next t' →
      t'.readLoc (.resid i) = t.readLoc (.resid i)) ∧
    ((∀ j, j ≤ i → s'.readLoc (.resid j) = s.readLoc (.resid j)) →
      exec (.xformInv f) s = .next t → exec (.xformInv f) s' = .next t' → t.status.err = false → t'.status.err = false →
      t'.readLoc (.recon i) = t.readLoc (.recon i))

/-! ### The code table (42_codetable.md) -/

/-- R151: the order of the table's entries has no effect on any lookup. -/
def Obligations.TableOrderHasNoEffect : Prop :=
  ∀ t t' : CodeTable, t.wf = true → t.Perm t' →
    t'.wf = true ∧ (∀ v, encodeSymbol t' v = encodeSymbol t v) ∧ (∀ bs, matchEntry t' bs = matchEntry t bs) ∧
    ∀ w, wordEntry t' w = wordEntry t w

/-- R160: the lookups are inverse to each other at a code boundary. -/
def Obligations.LookupsAreInverse : Prop :=
  ∀ t : CodeTable, t.wf = true →
    (∀ (v : Int) (bs tail : List Bool), encodeSymbol t v = some bs →
      ∃ e, matchEntry t (bs ++ tail) = some e ∧ e.value = v ∧ e.code = bs) ∧
    (∀ e ∈ t, ∃ e', matchEntry t e.code = some e' ∧ encodeSymbol t e'.value = some e.code)

/-- At the command level (R160): MAP_INV restores RESID from what MAP_FWD made of it, and the word SYM_ENC gives for a symbol
is read back as that symbol by MAP_INV at every cell after the first. -/
def Obligations.GridMappingIsInverse : Prop :=
  (∀ s t : State, exec .mapFwd s = .next t → t.status.err = false →
    ∃ u, exec .mapInv (t.accept (encode .mapInv)) = .next u ∧ u.status = .completed none ∧
      ∀ i, i < s.build.cells → u.readLoc (.resid i) = s.readLoc (.resid i)) ∧
  (∀ (s t u v : State) (i : Nat), exec .symEnc s = .next t → t.status.err = false → u.build = s.build →
    0 < i → i < u.build.cells → u.readLoc (.codegrid i) = t.readLoc .codeOut → exec .mapInv u = .next v →
    v.status.err = false → v.readLoc (.resid i) = s.readLoc .symIn)

/-- SYM_ENC (R156): a symbol of the alphabet gives its canonical code word; any other raises UnknownSymbol(0). -/
def Obligations.SymEncLooksUpTheSymbol : Prop :=
  ∀ s : State,
    (∀ e ∈ s.build.table, s.symIn.toInt = e.value → exec .symEnc s = .next { s with
      codeOut := codeWord e.code, status := .completed none, inFlight := none, tainted := [] }) ∧
    ((∀ e ∈ s.build.table, s.symIn.toInt ≠ e.value) →
      ∃ t, exec .symEnc s = .next t ∧ t.readLoc .status = 0x16#32 ∧ t.readLoc .errIndex = 0#32)

/-- SYM_DEC (R157): the entry whose code stands at CURSOR, within BIT_LEN, gives SYM_OUT, CONSUMED and the new CURSOR. -/
def Obligations.SymDecMatchesAtTheCursor : Prop :=
  ∀ (s : State) (e : Entry), e ∈ s.build.table → s.bitLen.toNat ≤ 32768 →
    s.cursor.toNat + e.code.length ≤ s.bitLen.toNat →
    (∀ j, j < e.code.length → s.bit (s.cursor.toNat + j) = e.code.getD j false) →
    ∃ t, exec .symDec s = .next t ∧ (t.readLoc .symOut).toInt = e.value ∧ (t.readLoc .consumed).toNat = e.code.length ∧
      (t.readLoc .cursor).toNat = s.cursor.toNat + e.code.length ∧
      t = { s with symOut := t.symOut, consumed := t.consumed, cursor := t.cursor, status := .completed none,
                   inFlight := none, tainted := [] }

/-- SYM_DEC's errors (R157): BadOperand where BIT_LEN exceeds MAX_BITS or CURSOR exceeds BIT_LEN, MalformedStream where no
code stands at CURSOR within BIT_LEN; ERR_INDEX 0. -/
def Obligations.SymDecReportsItsErrors : Prop :=
  ∀ s : State,
    ((32768 < s.bitLen.toNat ∨ s.bitLen.toNat < s.cursor.toNat) →
      ∃ t, exec .symDec s = .next t ∧ t.readLoc .status = 0x46#32 ∧ t.readLoc .errIndex = 0#32) ∧
    (s.bitLen.toNat ≤ 32768 → s.cursor.toNat ≤ s.bitLen.toNat →
      (∀ e ∈ s.build.table, s.cursor.toNat + e.code.length ≤ s.bitLen.toNat →
        ∃ j, j < e.code.length ∧ s.bit (s.cursor.toNat + j) ≠ e.code.getD j false) →
      ∃ t, exec .symDec s = .next t ∧ t.readLoc .status = 0x26#32 ∧ t.readLoc .errIndex = 0#32)

/-- MAP_FWD (R158) on a grid whose cell 0 is a byte and whose other cells lie in the alphabet: it completes, cell 0 holds
the first-cell word and every other cell the canonical word of its code. -/
def Obligations.MapFwdCodesTheGrid : Prop :=
  ∀ s : State, (0 ≤ (s.readLoc (.resid 0)).toInt ∧ (s.readLoc (.resid 0)).toInt ≤ 255) →
    (∀ i, 0 < i → i < s.build.cells → ∃ e ∈ s.build.table, e.value = (s.readLoc (.resid i)).toInt) →
    ∃ t, exec .mapFwd s = .next t ∧ t.status = .completed none ∧
      t.readLoc (.codegrid 0) = 0x08000000#32 + s.readLoc (.resid 0) ∧
      ∀ i, 0 < i → i < s.build.cells → ∀ e ∈ s.build.table, e.value = (s.readLoc (.resid i)).toInt →
        t.readLoc (.codegrid i) = codeWord e.code

/-- MAP_FWD's error (R158, R226): UnknownSymbol at the first cell that cannot be coded. -/
def Obligations.MapFwdReportsTheFirstUncodableCell : Prop :=
  ∀ (s : State) (i : Nat), i < s.build.cells →
    (∀ j, j < i → if j = 0 then 0 ≤ (s.readLoc (.resid 0)).toInt ∧ (s.readLoc (.resid 0)).toInt ≤ 255
      else ∃ e ∈ s.build.table, e.value = (s.readLoc (.resid j)).toInt) →
    (if i = 0 then (s.readLoc (.resid 0)).toInt < 0 ∨ 255 < (s.readLoc (.resid 0)).toInt
      else ∀ e ∈ s.build.table, e.value ≠ (s.readLoc (.resid i)).toInt) →
    ∃ t, exec .mapFwd s = .next t ∧ t.readLoc .status = 0x16#32 ∧ (t.readLoc .errIndex).toNat = i

/-- MAP_INV (R159) on a grid of canonical words: it completes and gives the residuals. -/
def Obligations.MapInvReadsCanonicalWords : Prop :=
  ∀ (s : State) (v : Byte), s.readLoc (.codegrid 0) = 0x08000000#32 + v.setWidth 32 →
    (∀ i, 0 < i → i < s.build.cells → ∃ e ∈ s.build.table, s.readLoc (.codegrid i) = codeWord e.code) →
    ∃ t, exec .mapInv s = .next t ∧ t.status = .completed none ∧ t.readLoc (.resid 0) = v.setWidth 32 ∧
      ∀ i, 0 < i → i < s.build.cells → ∀ e ∈ s.build.table, s.readLoc (.codegrid i) = codeWord e.code →
        (t.readLoc (.resid i)).toInt = e.value

/-- MAP_INV's error (R159, R226): MalformedStream at the first word that is not the canonical word of its cell kind. -/
def Obligations.MapInvReportsTheFirstBadWord : Prop :=
  ∀ (s : State) (i : Nat), i < s.build.cells →
    (∀ j, j < i → if j = 0 then (s.readLoc (.codegrid 0)).extractLsb' 8 24 = 0x080000#24
      else ∃ e ∈ s.build.table, s.readLoc (.codegrid j) = codeWord e.code) →
    (if i = 0 then (s.readLoc (.codegrid 0)).extractLsb' 8 24 ≠ 0x080000#24
      else ∀ e ∈ s.build.table, s.readLoc (.codegrid i) ≠ codeWord e.code) →
    ∃ t, exec .mapInv s = .next t ∧ t.readLoc .status = 0x26#32 ∧ (t.readLoc .errIndex).toNat = i

/-! ### The bitstream (43_bitstream.md) -/

/-- PACK (R180) on cells with LEN at most 24: it completes, BIT_LEN is the sum of the lengths, the stream is the cells'
bits in row-major order (R89), and the bits beyond keep their values. -/
def Obligations.PackConcatenatesTheCells : Prop :=
  ∀ s : State, (∀ i, i < s.build.cells → ((s.readLoc (.codegrid i)).extractLsb' 24 8).toNat ≤ 24) →
    ∃ t, exec .pack s = .next t ∧ t.status = .completed none ∧
      (t.readLoc .bitLen).toNat = ((List.range s.build.cells).map fun i =>
        ((s.readLoc (.codegrid i)).extractLsb' 24 8).toNat).sum ∧
      (∀ k, k < (t.readLoc .bitLen).toNat → t.bit k =
        ((List.range s.build.cells).flatMap fun i => codeBits (s.readLoc (.codegrid i))).getD k false) ∧
      (∀ k, (t.readLoc .bitLen).toNat ≤ k → t.bit k = s.bit k)

/-- UNPACK (R181, R183) on a stream that begins with a first-cell field and a table code for every other cell: it completes,
CODEGRID holds the canonical words and BIT_POS the bits used; what follows in the stream is ignored. -/
def Obligations.UnpackParsesTheStream : Prop :=
  ∀ (s : State) (v : Byte) (es : List Entry), s.bitLen.toNat ≤ 32768 → es.length + 1 = s.build.cells →
    (∀ e ∈ es, e ∈ s.build.table) → firstCellBits v.toNat ++ es.flatMap Entry.code <+: s.streamBits s.bitLen.toNat →
    ∃ t, exec .unpack s = .next t ∧ t.status = .completed none ∧
      t.readLoc (.codegrid 0) = 0x08000000#32 + v.setWidth 32 ∧
      (∀ i (hi : i < es.length), t.readLoc (.codegrid (i + 1)) = codeWord es[i].code) ∧
      (t.readLoc .bitPos).toNat = 8 + (es.map fun e => e.code.length).sum

/-- UNPACK's parse errors (R181, R222): MalformedStream at cell 0 when the stream has fewer than 8 bits, and at the first
cell at which no table code begins the rest of the stream. -/
def Obligations.UnpackReportsTheFirstCellItCannotFill : Prop :=
  ∀ s : State, s.bitLen.toNat ≤ 32768 →
    (s.bitLen.toNat < 8 → ∃ t, exec .unpack s = .next t ∧ t.readLoc .status = 0x26#32 ∧ t.readLoc .errIndex = 0#32) ∧
    (∀ (first rest : List Bool) (es : List Entry), first.length = 8 → es.length + 1 < s.build.cells →
      (∀ e ∈ es, e ∈ s.build.table) → s.streamBits s.bitLen.toNat = first ++ es.flatMap Entry.code ++ rest →
      (∀ e ∈ s.build.table, ¬ e.code <+: rest) →
      ∃ t, exec .unpack s = .next t ∧ t.readLoc .status = 0x26#32 ∧ (t.readLoc .errIndex).toNat = es.length + 1)

/-- No bit of BITBUF at or beyond BIT_LEN, and nothing else in storage, changes a result of UNPACK, DECODE or SYM_DEC
(R182): with the same registers and the same stream bits the same error or the same outputs come out. -/
def Obligations.OnlyTheStreamBitsMatter : Prop :=
  ∀ (s : State) (m : Memory) (i : Instr) (t t' : State), (i = .unpack ∨ i = .symDec ∨ ∃ f, i = .decode f) →
    (∀ k, k < s.bitLen.toNat → State.bit { s with mem := m } k = s.bit k) →
    exec i s = .next t → exec i { s with mem := m } = .next t' →
    t'.status = t.status ∧ t'.errIndex = t.errIndex ∧
      (t.status.err = false → ∀ l ∈ outputs i s.build, t'.readLoc l = t.readLoc l)

/-- R184: a stream that UNPACK uses up completely fails with MalformedStream when it is cut short. -/
def Obligations.TruncationAlwaysFails : Prop :=
  ∀ (s t : State) (len : BitVec 16), exec .unpack s = .next t → t.status.err = false →
    (t.readLoc .bitPos).toNat = s.bitLen.toNat → len.toNat < s.bitLen.toNat →
    ∃ u, exec .unpack { s with bitLen := len } = .next u ∧ u.status = .completed (some .malformedStream)

/-- R186: the length of the stream PACK makes of a grid from MAP_FWD, and its bounds. -/
def Obligations.StreamLengthOfAMappedGrid : Prop :=
  ∀ (s t : State), exec .mapFwd s = .next t → t.status.err = false →
    ∃ u e0, exec .pack (t.accept (encode .pack)) = .next u ∧ u.status = .completed none ∧
      e0 ∈ s.build.table ∧ e0.value = 0 ∧
      (∃ es : List Entry, es.length + 1 = s.build.cells ∧ (∀ e ∈ es, e ∈ s.build.table) ∧
        (∀ i (hi : i < es.length), es[i].value = (s.readLoc (.resid (i + 1))).toInt) ∧
        (u.readLoc .bitLen).toNat = 8 + (es.map fun e => e.code.length).sum) ∧
      8 + (s.build.cells - 1) * e0.code.length ≤ (u.readLoc .bitLen).toNat ∧
      (u.readLoc .bitLen).toNat ≤ 8 + (s.build.cells - 1) * s.build.table.lMax

/-- R187: for every code grid MAP_FWD writes, PACK then UNPACK completes, restores CODEGRID and ends with
BIT_POS = BIT_LEN. -/
def Obligations.PackThenUnpackRestoresTheGrid : Prop :=
  ∀ s t : State, exec .mapFwd s = .next t → t.status.err = false →
    ∃ u v, exec .pack (t.accept (encode .pack)) = .next u ∧ u.status = .completed none ∧
      exec .unpack (u.accept (encode .unpack)) = .next v ∧ v.status = .completed none ∧
      (∀ i, i < s.build.cells → v.readLoc (.codegrid i) = t.readLoc (.codegrid i)) ∧
      v.readLoc .bitPos = v.readLoc .bitLen

/-! ### The composite commands (44_pipeline.md) -/

/-- ENCODE (R204) on a raster whose residuals after cell 0 lie in the alphabet: it completes; the stream is the first-cell
field and the codes, and RESID holds the residual grid. -/
def Obligations.EncodeWritesTheStream : Prop :=
  ∀ (f : Selector) (s : State) (es : List Entry), (∀ e ∈ es, e ∈ s.build.table) →
    es.map Entry.value = (residuals s.build.side f s.rasterCells).tail →
    ∃ t, exec (.encode f) s = .next t ∧ t.status = .completed none ∧
      t.residCells = residuals s.build.side f s.rasterCells ∧
      (t.readLoc .bitLen).toNat = 8 + (es.map fun e => e.code.length).sum ∧
      t.streamBits (t.readLoc .bitLen).toNat = firstCellBits (s.readLoc (.raster 0)).toNat ++ es.flatMap Entry.code

/-- The boundary scenario of R204: a constant raster gives the first-cell field and the code of 0, a shortest code, for
every other cell, under every formula. -/
def Obligations.ConstantRasterEncodesToTheShortestCode : Prop :=
  ∀ (f : Selector) (s : State) (k : Byte), (∀ i, i < s.build.cells → s.readLoc (.raster i) = k.setWidth 32) →
    ∃ t e0, exec (.encode f) s = .next t ∧ t.status = .completed none ∧ e0 ∈ s.build.table ∧ e0.value = 0 ∧
      (∀ e ∈ s.build.table, e0.code.length ≤ e.code.length) ∧
      (t.readLoc .bitLen).toNat = 8 + (s.build.cells - 1) * e0.code.length ∧
      t.streamBits (t.readLoc .bitLen).toNat =
        firstCellBits k.toNat ++ (List.replicate (s.build.cells - 1) e0.code).flatten

/-- DECODE (R205) on a stream that begins with the coding of a raster under the same formula: it completes, RECON is the
raster and BIT_POS the bits used; what follows in the stream is ignored. -/
def Obligations.DecodeRecoversTheRaster : Prop :=
  ∀ (f : Selector) (s : State) (ys : List Int) (es : List Entry), s.bitLen.toNat ≤ 32768 → ys.length = s.build.cells →
    (∀ y ∈ ys, 0 ≤ y ∧ y ≤ 255) → (∀ e ∈ es, e ∈ s.build.table) →
    es.map Entry.value = (residuals s.build.side f ys).tail →
    firstCellBits (ys.getD 0 0).toNat ++ es.flatMap Entry.code <+: s.streamBits s.bitLen.toNat →
    ∃ t, exec (.decode f) s = .next t ∧ t.status = .completed none ∧ t.residCells = residuals s.build.side f ys ∧
      (∀ i, i < s.build.cells → ((t.readLoc (.recon i)).toNat : Int) = ys.getD i 0) ∧
      (t.readLoc .bitPos).toNat = 8 + (es.map fun e => e.code.length).sum

/-- ENCODE is its stages (R204): run one after the other they give the same state, and the first stage to fail gives
ENCODE's error. -/
def Obligations.EncodeIsItsStages : Prop :=
  ∀ (f : Selector) (s a b c t : State), exec (.xformFwd f) s = .next a → exec .mapFwd a = .next b → exec .pack b = .next c →
    exec (.encode f) s = .next t →
    (b.status.err = false → t = c) ∧
    (b.status.err = true → t.status = b.status ∧ t.errIndex = b.errIndex)

/-- DECODE is its stages (R205, R226): run one after the other they give the same state, and the first stage to fail gives
DECODE's error. -/
def Obligations.DecodeIsItsStages : Prop :=
  ∀ (f : Selector) (s a b c t : State), exec .unpack s = .next a → exec .mapInv a = .next b →
    exec (.xformInv f) b = .next c → exec (.decode f) s = .next t →
    (a.status.err = true → t.status = a.status ∧ t.errIndex = a.errIndex) ∧
    (a.status.err = false → b.status.err = false ∧ t.status = c.status ∧ t.errIndex = c.errIndex ∧
      (c.status.err = false → t = c))

/-- R206, the round-trip law: if ENCODE completes without an error, a DECODE with the same selector that finds the same
BIT_LEN and the same stream bits completes without an error, RECON is the raster, and BIT_POS = BIT_LEN. Everything else
may have been rewritten in between. -/
def Obligations.EncodeThenDecodeIsLossless : Prop :=
  ∀ (f : Selector) (s t t' : State), exec (.encode f) s = .next t → t.status.err = false → t'.build = t.build →
    t'.bitLen = t.bitLen → (∀ k, k < t.bitLen.toNat → t'.bit k = t.bit k) →
    ∃ u, exec (.decode f) (t'.accept (encode (.decode f))) = .next u ∧ u.status = .completed none ∧
      (∀ i, i < s.build.cells → u.readLoc (.recon i) = s.readLoc (.raster i)) ∧ u.readLoc .bitPos = u.readLoc .bitLen

/-- NOP (R202): completion and nothing else. -/
def Obligations.NopOnlyCompletes : Prop :=
  ∀ s : State, exec .nop s = .next { s with
    status := { busy := false, done := true, err := false, errCode := 0#4 }, inFlight := none, tainted := [] }

/-! ### Errors (60_exceptions.md) -/

/-- The error codes of R220 and which commands raise which: every command completes, without an error or with one of its
own codes, whose number STATUS reports. -/
def Obligations.ErrorCodesByCommand : Prop :=
  ∀ (i : Instr) (s : State), ∃ t, exec i s = .next t ∧
    (t.readLoc .status = 0x02#32 ∨
      t.readLoc .status ∈ (match i with
        | .nop | .predict _ | .xformFwd _ => []
        | .symEnc | .mapFwd | .encode _ => [0x16#32]
        | .xformInv _ | .mapInv => [0x26#32]
        | .symDec | .unpack | .decode _ => [0x26#32, 0x46#32]
        | .pack => [0x46#32]))

/-- R224: the causes of BadOperand, and that ENCODE cannot raise it. -/
def Obligations.BadOperandCauses : Prop :=
  (∀ (s : State) (i : Instr), (i = .symDec ∨ i = .unpack ∨ ∃ f, i = .decode f) → 32768 < s.bitLen.toNat →
    ∃ t, exec i s = .next t ∧ t.status = .completed (some .badOperand) ∧ t.readLoc .errIndex = 0#32) ∧
  (∀ s : State, s.bitLen.toNat < s.cursor.toNat →
    ∃ t, exec .symDec s = .next t ∧ t.status = .completed (some .badOperand) ∧ t.readLoc .errIndex = 0#32) ∧
  (∀ (s : State) (i : Nat), i < s.build.cells → 24 < ((s.readLoc (.codegrid i)).extractLsb' 24 8).toNat →
    (∀ j, j < i → ((s.readLoc (.codegrid j)).extractLsb' 24 8).toNat ≤ 24) →
    ∃ t, exec .pack s = .next t ∧ t.status = .completed (some .badOperand) ∧ (t.readLoc .errIndex).toNat = i) ∧
  (∀ (f : Selector) (s t : State), exec (.encode f) s = .next t → t.status ≠ .completed (some .badOperand))

/-! ### Frames -/

/-- What NOP, PREDICT, SYM_ENC and SYM_DEC leave unchanged (R84, R201): all storage, and every location but STATUS and, per
command, none, PRED_OUT, CODE_OUT, or SYM_OUT, CONSUMED and CURSOR; ERR_INDEX changes only with an error. -/
def Obligations.RegisterCommandsFrame : Prop :=
  ∀ s t : State,
    (exec .nop s = .next t → s.SameBut (fun l => l = .status) t) ∧
    (∀ f, exec (.predict f) s = .next t → s.SameBut (fun l => l = .status ∨ l = .predOut) t) ∧
    (exec .symEnc s = .next t →
      s.SameBut (fun l => l = .status ∨ l = .codeOut ∨ l = .errIndex ∧ t.status.err = true) t) ∧
    (exec .symDec s = .next t →
      s.SameBut (fun l => l = .status ∨ l = .symOut ∨ l = .consumed ∨ l = .cursor ∨
        l = .errIndex ∧ t.status.err = true) t) ∧
    ((exec .nop s = .next t ∨ (∃ f, exec (.predict f) s = .next t) ∨ exec .symEnc s = .next t ∨ exec .symDec s = .next t) →
      ∀ a, t.byteAt a = s.byteAt a)

/-- What XFORM_FWD, XFORM_INV, MAP_FWD and MAP_INV leave unchanged (R84, R201): every location but STATUS and, per command,
the cells of RESID, RECON, CODEGRID or RESID, and every byte outside those cells; ERR_INDEX changes only with an error. -/
def Obligations.GridCommandsFrame : Prop :=
  ∀ s t : State,
    (∀ f, exec (.xformFwd f) s = .next t → s.SameBut (fun l => l = .status ∨ ∃ i, l = .resid i) t) ∧
    (∀ f, exec (.xformInv f) s = .next t →
      s.SameBut (fun l => l = .status ∨ (∃ i, l = .recon i) ∨ l = .errIndex ∧ t.status.err = true) t) ∧
    (exec .mapFwd s = .next t →
      s.SameBut (fun l => l = .status ∨ (∃ i, l = .codegrid i) ∨ l = .errIndex ∧ t.status.err = true) t) ∧
    (exec .mapInv s = .next t →
      s.SameBut (fun l => l = .status ∨ (∃ i, l = .resid i) ∨ l = .errIndex ∧ t.status.err = true) t)

/-- What PACK, UNPACK, ENCODE and DECODE leave unchanged (R84, R201): every location but STATUS and, per command, BIT_LEN
and BITBUF; BIT_POS and CODEGRID; BIT_LEN, BITBUF, RESID and CODEGRID; BIT_POS, CODEGRID, RESID and RECON; every byte outside
those; and, after a PACK or ENCODE without an error, every bit of BITBUF from BIT_LEN on. ERR_INDEX changes only with an
error. -/
def Obligations.StreamCommandsFrame : Prop :=
  ∀ s t : State,
    (exec .pack s = .next t →
      s.SameBut (fun l => l = .status ∨ l = .bitLen ∨ (∃ j, l = .bitbuf j) ∨ l = .errIndex ∧ t.status.err = true) t) ∧
    (exec .unpack s = .next t →
      s.SameBut (fun l => l = .status ∨ l = .bitPos ∨ (∃ i, l = .codegrid i) ∨ l = .errIndex ∧ t.status.err = true) t) ∧
    (∀ f, exec (.encode f) s = .next t →
      s.SameBut (fun l => l = .status ∨ l = .bitLen ∨ (∃ i, l = .resid i) ∨ (∃ i, l = .codegrid i) ∨ (∃ j, l = .bitbuf j) ∨
        l = .errIndex ∧ t.status.err = true) t) ∧
    (∀ f, exec (.decode f) s = .next t →
      s.SameBut (fun l => l = .status ∨ l = .bitPos ∨ (∃ i, l = .codegrid i) ∨ (∃ i, l = .resid i) ∨ (∃ i, l = .recon i) ∨
        l = .errIndex ∧ t.status.err = true) t) ∧
    ((exec .pack s = .next t ∨ ∃ f, exec (.encode f) s = .next t) → t.status.err = false →
      ∀ k, t.bitLen.toNat ≤ k → t.bit k = s.bit k)

/-! ### The whole machine -/

/-- The PCC's turn never changes the host's inputs RASTER, OPA, OPB, OPC, SYM_IN, nor CMD and ID, whatever word is in flight,
legal or not (R40 "no command writes RASTER", R201). -/
def Obligations.NoCommandWritesTheHostsInputs : Prop :=
  ∀ s t : State, s.tainted = [] → pccTurn s = .next t →
    ∀ l : Loc, l.mapped s.build = true → (l ∈ [.cmd, .id, .opa, .opb, .opc, .symIn] ∨ ∃ i, l = .raster i) →
      t.readLoc l = s.readLoc l

/-- Every step keeps the invariant `State.Inv`: the canonical form of storage, the legal combinations of STATUS (R25), BUSY
with a command in flight (R37), CMD and ERR_INDEX while it is (R26, R200), ERR_INDEX naming a cell for an obedient host
(R26), and reset leaving nothing in flight (R250). What it says of `tainted`, `hostFault`, `draws` and `resetDraw` is about the
model's own fields (log 5, log 6, log 9). -/
def Obligations.EveryStepKeepsTheInvariant : Prop := ∀ s t : State, s.Inv → step s = .next t → t.Inv

/-- The invariant holds right after reset. -/
def Obligations.ResetMeetsTheInvariant : Prop := State.reset.Inv

/-- No step changes the configuration (R38), and the machine stops exactly on a host access outside the window BASE ..
BASE + 0x7FFF (R60), with the fault `outsideWindow` (the model's own choice, log 13). -/
def Obligations.OnlyAccessesOutsideTheWindowStop : Prop :=
  ∀ s : State,
    ((∃ addr width rest, (s.agenda = .hostRead addr width :: rest ∨ ∃ v, s.agenda = .hostWrite addr width v :: rest) ∧
        (addr < s.build.base ∨ s.build.base + 0x8000 ≤ addr)) → step s = .fault .outsideWindow) ∧
    ((¬ ∃ addr width rest, (s.agenda = .hostRead addr width :: rest ∨ ∃ v, s.agenda = .hostWrite addr width v :: rest) ∧
        (addr < s.build.base ∨ s.build.base + 0x8000 ≤ addr)) → ∃ t, step s = .next t ∧ t.build = s.build)
end

