-- ==== Sys2Proof/Laws/Build.lean ====
section
/-! SUPPORT. What the admitted configurations give: the bounds of R7 and the conditions W1 to W6 of R150. -/

namespace Sys2Proof

theorem Build.parts (b : Build) :
    b.toParams.sideOk = true ∧ b.table.wf = true ∧ b.toParams.baseOk = true ∧ b.strongOrder = true := by
  have h := b.ok
  simp only [Params.wf, Bool.and_eq_true] at h
  exact ⟨h.1.1.1, h.1.1.2, h.1.2, h.2⟩

theorem Build.side_bounds (b : Build) : 1 ≤ b.side ∧ b.side ≤ 32 := by
  simpa [Params.sideOk] using b.parts.1

theorem Build.cells_le (b : Build) : b.cells ≤ 1024 := by
  have := b.side_bounds
  simp only [Params.cells]
  nlinarith

theorem Build.one_le_cells (b : Build) : 1 ≤ b.cells := by
  have := b.side_bounds
  simp only [Params.cells]
  nlinarith

theorem CodeTable.wf_parts {t : CodeTable} (h : t.wf = true) :
    t.countOk = true ∧ t.valuesOk = true ∧ t.lengthsOk = true ∧ t.prefixFree = true ∧ t.hasZero = true ∧
      t.zeroShortest = true := by
  simp only [CodeTable.wf, Bool.and_eq_true] at h
  exact ⟨h.1.1.1.1.1, h.1.1.1.1.2, h.1.1.1.2, h.1.1.2, h.1.2, h.2⟩

/-- W2: an entry is known by its value, and the value is a signed 32-bit integer. -/
theorem CodeTable.values {t : CodeTable} (h : t.wf = true) :
    (t.map Entry.value).Nodup ∧ ∀ e ∈ t, -2 ^ 31 ≤ e.value ∧ e.value ≤ 2 ^ 31 - 1 := by
  simpa [CodeTable.valuesOk] using (CodeTable.wf_parts h).2.1

/-- W3: every code has 1 to 24 bits. -/
theorem CodeTable.lengths {t : CodeTable} (h : t.wf = true) {e : Entry} (he : e ∈ t) :
    1 ≤ e.code.length ∧ e.code.length ≤ 24 := by
  have := (CodeTable.wf_parts h).2.2.1
  simp only [CodeTable.lengthsOk, List.all_eq_true, Bool.and_eq_true, decide_eq_true_eq, Config.maxCodeLength] at this
  exact ⟨(this e he).1, of_decide_eq_true (this e he).2⟩

/-- W4 as a relation over the entries. -/
theorem CodeTable.prefixFree_pairwise {t : CodeTable} (h : t.prefixFree = true) :
    t.Pairwise fun e e' => ¬ e.code <+: e'.code ∧ ¬ e'.code <+: e.code := by
  induction t with
  | nil => exact .nil
  | cons e t ih =>
    simp only [CodeTable.prefixFree, Bool.and_eq_true, List.all_eq_true, Bool.not_eq_true', ← Bool.not_eq_true,
      List.isPrefixOf_iff_prefix] at h
    exact .cons h.1 (ih h.2)

/-- W4: an entry whose code is a prefix of another entry's code is that entry. -/
theorem CodeTable.entry_of_isPrefix {t : CodeTable} (h : t.wf = true) {e e' : Entry} (he : e ∈ t) (he' : e' ∈ t)
    (hp : e.code <+: e'.code) : e = e' := by
  by_contra hne
  have hpw := CodeTable.prefixFree_pairwise (CodeTable.wf_parts h).2.2.2.1
  have : Std.Symm fun e e' : Entry => ¬ e.code <+: e'.code ∧ ¬ e'.code <+: e.code := ⟨fun _ _ hab => ⟨hab.2, hab.1⟩⟩
  exact (hpw.forall he he' hne).1 hp

/-- W2: two entries of one value are one entry. -/
theorem CodeTable.entry_of_value {t : CodeTable} (h : t.wf = true) {e e' : Entry} (he : e ∈ t) (he' : e' ∈ t)
    (hv : e.value = e'.value) : e = e' :=
  List.inj_on_of_nodup_map (CodeTable.values h).1 he he' hv

end Sys2Proof
end

