-- ==== Sys2Proof/Laws/Memory.lean ====
section
/-! SUPPORT. Storage: what a read gives after each kind of write, and that every write keeps the canonical form. -/

namespace Sys2Proof.Machine

@[simp] theorem Memory.read?_nil (a : Nat) : Memory.read? [] a = none := rfl

theorem Memory.read?_write (m : Memory) (a : Nat) (b : Byte) (a' : Nat) :
    (m.write a b).read? a' = if a' = a then some b else m.read? a' := by
  induction m with
  | nil => simp [Memory.write, Memory.read?, eq_comm]
  | cons c m ih =>
    simp only [Memory.write]
    split_ifs with h1 h2 h3 h3 h3 <;> simp only [Memory.read?] <;> (try rw [ih]) <;> split_ifs <;> first | rfl | omega

theorem Memory.mem_write {m : Memory} {a : Nat} {b : Byte} {c : Host.Cell} (h : c ∈ m.write a b) :
    c = (a, b) ∨ c ∈ m := by
  induction m with
  | nil => simpa [Memory.write] using h
  | cons d m ih =>
    simp only [Memory.write] at h
    split_ifs at h <;> simp only [List.mem_cons] at h ⊢ <;> tauto

theorem Memory.write_wf {m : Memory} (hm : m.wf) (a : Nat) (b : Byte) : (m.write a b).wf := by
  induction m with
  | nil => simp [Memory.write, Memory.wf]
  | cons c m ih =>
    simp only [Memory.wf, List.map_cons, List.pairwise_cons] at hm
    simp only [Memory.write]
    split_ifs with h1 h2
    · simp only [Memory.wf, List.map_cons, List.pairwise_cons, List.mem_cons]
      refine ⟨?_, hm⟩
      rintro x (rfl | hx)
      · exact h1
      · exact h1.trans (hm.1 x hx)
    · subst h2; simpa [Memory.wf] using hm
    · simp only [Memory.wf, List.map_cons, List.pairwise_cons]
      refine ⟨?_, ih hm.2⟩
      intro x hx
      obtain ⟨d, hd, rfl⟩ := List.mem_map.1 hx
      rcases Memory.mem_write hd with rfl | hd
      · simp; omega
      · exact hm.1 _ (List.mem_map.2 ⟨d, hd, rfl⟩)

theorem Memory.read?_writeWord (m : Memory) (a : Nat) (w : Word) (a' : Nat) :
    (m.writeWord a w).read? a' = if a ≤ a' ∧ a' < a + 4 then some (lane w (a' - a)) else m.read? a' := by
  simp only [Memory.writeWord, Memory.read?_write]
  split_ifs with h3 h2 h1 h0 h h h h h
  all_goals first
    | rfl
    | omega
    | (subst_vars; congr 2; omega)

theorem Memory.writeWord_wf {m : Memory} (hm : m.wf) (a : Nat) (w : Word) : (m.writeWord a w).wf :=
  Memory.write_wf (Memory.write_wf (Memory.write_wf (Memory.write_wf hm _ _) _ _) _ _) _ _

theorem Memory.mem_writeWord {m : Memory} {a : Nat} {w : Word} {c : Host.Cell} (h : c ∈ m.writeWord a w) :
    (a ≤ c.1 ∧ c.1 < a + 4) ∨ c ∈ m := by
  simp only [Memory.writeWord] at h
  rcases Memory.mem_write h with rfl | h
  · left; simp
  rcases Memory.mem_write h with rfl | h
  · left; simp
  rcases Memory.mem_write h with rfl | h
  · left; simp
  rcases Memory.mem_write h with rfl | h
  · left; simp
  · exact .inr h

theorem Memory.read?_writeWords (m : Memory) (a : Nat) (ws : List Word) (a' : Nat) :
    (m.writeWords a ws).read? a' =
      if a ≤ a' ∧ a' < a + 4 * ws.length then some (lane (ws.getD ((a' - a) / 4) 0) ((a' - a) % 4)) else m.read? a' := by
  induction ws generalizing m a with
  | nil =>
    have : ¬(a ≤ a' ∧ a' < a + 4 * ([] : List Word).length) := by simp
    rw [if_neg this]; rfl
  | cons w ws ih =>
    simp only [Memory.writeWords, ih, Memory.read?_writeWord, List.length_cons]
    split_ifs with h1 h2 h3 h4 h5
    · have e : (a' - a) / 4 = (a' - (a + 4)) / 4 + 1 := by omega
      have e' : (a' - a) % 4 = (a' - (a + 4)) % 4 := by omega
      simp [e, e']
    · omega
    · have e : (a' - a) / 4 = 0 := by omega
      have e' : (a' - a) % 4 = a' - a := by omega
      simp [e, e']
    · omega
    · omega
    · rfl

theorem Memory.writeWords_wf {m : Memory} (hm : m.wf) (a : Nat) (ws : List Word) : (m.writeWords a ws).wf := by
  induction ws generalizing m a with
  | nil => exact hm
  | cons w ws ih => exact ih (Memory.writeWord_wf hm a w) _

theorem Memory.mem_writeWords {m : Memory} {a : Nat} {ws : List Word} {c : Host.Cell} (h : c ∈ m.writeWords a ws) :
    (a ≤ c.1 ∧ c.1 < a + 4 * ws.length) ∨ c ∈ m := by
  induction ws generalizing m a with
  | nil => exact .inr h
  | cons w ws ih =>
    simp only [List.length_cons]
    rcases ih h with h | h
    · left; omega
    · rcases Memory.mem_writeWord h with h | h
      · left; omega
      · exact .inr h

theorem Memory.read?_writeSamples (m : Memory) (a : Nat) (bs : List Byte) (a' : Nat) :
    (m.writeSamples a bs).read? a' =
      if a ≤ a' ∧ a' < a + 4 * bs.length ∧ (a' - a) % 4 = 0 then some (bs.getD ((a' - a) / 4) 0) else m.read? a' := by
  induction bs generalizing m a with
  | nil =>
    have : ¬(a ≤ a' ∧ a' < a + 4 * ([] : List Byte).length ∧ (a' - a) % 4 = 0) := by simp; omega
    rw [if_neg this]; rfl
  | cons b bs ih =>
    simp only [Memory.writeSamples, ih, Memory.read?_write, List.length_cons]
    split_ifs with h1 h2 h3 h4 h5
    · have e : (a' - a) / 4 = (a' - (a + 4)) / 4 + 1 := by omega
      simp [e]
    · omega
    · have e : (a' - a) / 4 = 0 := by omega
      simp [e]
    · omega
    · omega
    · rfl

theorem Memory.writeSamples_wf {m : Memory} (hm : m.wf) (a : Nat) (bs : List Byte) : (m.writeSamples a bs).wf := by
  induction bs generalizing m a with
  | nil => exact hm
  | cons b bs ih => exact ih (Memory.write_wf hm a b) _

theorem Memory.mem_writeSamples {m : Memory} {a : Nat} {bs : List Byte} {c : Host.Cell}
    (h : c ∈ m.writeSamples a bs) : (∃ i, i < bs.length ∧ c.1 = a + 4 * i) ∨ c ∈ m := by
  induction bs generalizing m a with
  | nil => exact .inr h
  | cons b bs ih =>
    simp only [List.length_cons]
    rcases ih h with ⟨i, hi, h⟩ | h
    · exact .inl ⟨i + 1, by omega, by omega⟩
    · rcases Memory.mem_write h with h | h
      · exact .inl ⟨0, by omega, by simp [h]⟩
      · exact .inr h

/-- The four lanes of a word make up the word (R65). -/
theorem lanes_join (w : Word) : lane w 3 ++ lane w 2 ++ lane w 1 ++ lane w 0 = w := by
  apply BitVec.eq_of_getLsbD_eq
  intro i hi
  simp only [BitVec.getLsbD_append, lane, BitVec.getLsbD_extractLsb']
  split_ifs with h0 h1 h2
  · simp [h0]
  · have : i - 8 < 8 := by omega
    have e : 8 + (i - 8) = i := by omega
    simp [this, e]
  · have : i - 8 - 8 < 8 := by omega
    have e : 16 + (i - 8 - 8) = i := by omega
    simp [this, e]
  · have : i - 8 - 8 - 8 < 8 := by omega
    have e : 24 + (i - 8 - 8 - 8) = i := by omega
    simp [this, e]

end Sys2Proof.Machine
end

