-- ==== Sys2Proof/Laws/State.lean ====
section
/-! SUPPORT. What each update of State does to each field, one lemma per field per update. -/

namespace Sys2Proof.Machine

@[simp] theorem State.storeWord_build (s : State) (a : Nat) (w : Word) : (s.storeWord a w).build = s.build := rfl
@[simp] theorem State.storeWord_cmd (s : State) (a : Nat) (w : Word) : (s.storeWord a w).cmd = s.cmd := rfl
@[simp] theorem State.storeWord_status (s : State) (a : Nat) (w : Word) : (s.storeWord a w).status = s.status := rfl
@[simp] theorem State.storeWord_errIndex (s : State) (a : Nat) (w : Word) : (s.storeWord a w).errIndex = s.errIndex := rfl
@[simp] theorem State.storeWord_opa (s : State) (a : Nat) (w : Word) : (s.storeWord a w).opa = s.opa := rfl
@[simp] theorem State.storeWord_opb (s : State) (a : Nat) (w : Word) : (s.storeWord a w).opb = s.opb := rfl
@[simp] theorem State.storeWord_opc (s : State) (a : Nat) (w : Word) : (s.storeWord a w).opc = s.opc := rfl
@[simp] theorem State.storeWord_predOut (s : State) (a : Nat) (w : Word) : (s.storeWord a w).predOut = s.predOut := rfl
@[simp] theorem State.storeWord_symIn (s : State) (a : Nat) (w : Word) : (s.storeWord a w).symIn = s.symIn := rfl
@[simp] theorem State.storeWord_codeOut (s : State) (a : Nat) (w : Word) : (s.storeWord a w).codeOut = s.codeOut := rfl
@[simp] theorem State.storeWord_cursor (s : State) (a : Nat) (w : Word) : (s.storeWord a w).cursor = s.cursor := rfl
@[simp] theorem State.storeWord_symOut (s : State) (a : Nat) (w : Word) : (s.storeWord a w).symOut = s.symOut := rfl
@[simp] theorem State.storeWord_consumed (s : State) (a : Nat) (w : Word) : (s.storeWord a w).consumed = s.consumed := rfl
@[simp] theorem State.storeWord_bitLen (s : State) (a : Nat) (w : Word) : (s.storeWord a w).bitLen = s.bitLen := rfl
@[simp] theorem State.storeWord_bitPos (s : State) (a : Nat) (w : Word) : (s.storeWord a w).bitPos = s.bitPos := rfl
@[simp] theorem State.storeWord_mem (s : State) (a : Nat) (w : Word) : (s.storeWord a w).mem = s.mem.writeWord a w := rfl
@[simp] theorem State.storeWord_inFlight (s : State) (a : Nat) (w : Word) : (s.storeWord a w).inFlight = s.inFlight := rfl
@[simp] theorem State.storeWord_tainted (s : State) (a : Nat) (w : Word) : (s.storeWord a w).tainted = s.tainted := rfl
@[simp] theorem State.storeWord_inReset (s : State) (a : Nat) (w : Word) : (s.storeWord a w).inReset = s.inReset := rfl
@[simp] theorem State.storeWord_agenda (s : State) (a : Nat) (w : Word) : (s.storeWord a w).agenda = s.agenda := rfl
@[simp] theorem State.storeWord_lastRead (s : State) (a : Nat) (w : Word) : (s.storeWord a w).lastRead = s.lastRead := rfl
@[simp] theorem State.storeWord_hostFault (s : State) (a : Nat) (w : Word) : (s.storeWord a w).hostFault = s.hostFault := rfl
@[simp] theorem State.storeWord_draws (s : State) (a : Nat) (w : Word) : (s.storeWord a w).draws = s.draws := rfl
@[simp] theorem State.storeWord_resetDraw (s : State) (a : Nat) (w : Word) : (s.storeWord a w).resetDraw = s.resetDraw := rfl

@[simp] theorem State.storeByte_build (s : State) (a : Nat) (b : Byte) : (s.storeByte a b).build = s.build := rfl
@[simp] theorem State.storeByte_cmd (s : State) (a : Nat) (b : Byte) : (s.storeByte a b).cmd = s.cmd := rfl
@[simp] theorem State.storeByte_status (s : State) (a : Nat) (b : Byte) : (s.storeByte a b).status = s.status := rfl
@[simp] theorem State.storeByte_errIndex (s : State) (a : Nat) (b : Byte) : (s.storeByte a b).errIndex = s.errIndex := rfl
@[simp] theorem State.storeByte_opa (s : State) (a : Nat) (b : Byte) : (s.storeByte a b).opa = s.opa := rfl
@[simp] theorem State.storeByte_opb (s : State) (a : Nat) (b : Byte) : (s.storeByte a b).opb = s.opb := rfl
@[simp] theorem State.storeByte_opc (s : State) (a : Nat) (b : Byte) : (s.storeByte a b).opc = s.opc := rfl
@[simp] theorem State.storeByte_predOut (s : State) (a : Nat) (b : Byte) : (s.storeByte a b).predOut = s.predOut := rfl
@[simp] theorem State.storeByte_symIn (s : State) (a : Nat) (b : Byte) : (s.storeByte a b).symIn = s.symIn := rfl
@[simp] theorem State.storeByte_codeOut (s : State) (a : Nat) (b : Byte) : (s.storeByte a b).codeOut = s.codeOut := rfl
@[simp] theorem State.storeByte_cursor (s : State) (a : Nat) (b : Byte) : (s.storeByte a b).cursor = s.cursor := rfl
@[simp] theorem State.storeByte_symOut (s : State) (a : Nat) (b : Byte) : (s.storeByte a b).symOut = s.symOut := rfl
@[simp] theorem State.storeByte_consumed (s : State) (a : Nat) (b : Byte) : (s.storeByte a b).consumed = s.consumed := rfl
@[simp] theorem State.storeByte_bitLen (s : State) (a : Nat) (b : Byte) : (s.storeByte a b).bitLen = s.bitLen := rfl
@[simp] theorem State.storeByte_bitPos (s : State) (a : Nat) (b : Byte) : (s.storeByte a b).bitPos = s.bitPos := rfl
@[simp] theorem State.storeByte_mem (s : State) (a : Nat) (b : Byte) : (s.storeByte a b).mem = s.mem.write a b := rfl
@[simp] theorem State.storeByte_inFlight (s : State) (a : Nat) (b : Byte) : (s.storeByte a b).inFlight = s.inFlight := rfl
@[simp] theorem State.storeByte_tainted (s : State) (a : Nat) (b : Byte) : (s.storeByte a b).tainted = s.tainted := rfl
@[simp] theorem State.storeByte_inReset (s : State) (a : Nat) (b : Byte) : (s.storeByte a b).inReset = s.inReset := rfl
@[simp] theorem State.storeByte_agenda (s : State) (a : Nat) (b : Byte) : (s.storeByte a b).agenda = s.agenda := rfl
@[simp] theorem State.storeByte_lastRead (s : State) (a : Nat) (b : Byte) : (s.storeByte a b).lastRead = s.lastRead := rfl
@[simp] theorem State.storeByte_hostFault (s : State) (a : Nat) (b : Byte) : (s.storeByte a b).hostFault = s.hostFault := rfl
@[simp] theorem State.storeByte_draws (s : State) (a : Nat) (b : Byte) : (s.storeByte a b).draws = s.draws := rfl
@[simp] theorem State.storeByte_resetDraw (s : State) (a : Nat) (b : Byte) : (s.storeByte a b).resetDraw = s.resetDraw := rfl

@[simp] theorem State.writeResid_build (s : State) (es : List Int) : (s.writeResid es).build = s.build := rfl
@[simp] theorem State.writeResid_cmd (s : State) (es : List Int) : (s.writeResid es).cmd = s.cmd := rfl
@[simp] theorem State.writeResid_status (s : State) (es : List Int) : (s.writeResid es).status = s.status := rfl
@[simp] theorem State.writeResid_errIndex (s : State) (es : List Int) : (s.writeResid es).errIndex = s.errIndex := rfl
@[simp] theorem State.writeResid_opa (s : State) (es : List Int) : (s.writeResid es).opa = s.opa := rfl
@[simp] theorem State.writeResid_opb (s : State) (es : List Int) : (s.writeResid es).opb = s.opb := rfl
@[simp] theorem State.writeResid_opc (s : State) (es : List Int) : (s.writeResid es).opc = s.opc := rfl
@[simp] theorem State.writeResid_predOut (s : State) (es : List Int) : (s.writeResid es).predOut = s.predOut := rfl
@[simp] theorem State.writeResid_symIn (s : State) (es : List Int) : (s.writeResid es).symIn = s.symIn := rfl
@[simp] theorem State.writeResid_codeOut (s : State) (es : List Int) : (s.writeResid es).codeOut = s.codeOut := rfl
@[simp] theorem State.writeResid_cursor (s : State) (es : List Int) : (s.writeResid es).cursor = s.cursor := rfl
@[simp] theorem State.writeResid_symOut (s : State) (es : List Int) : (s.writeResid es).symOut = s.symOut := rfl
@[simp] theorem State.writeResid_consumed (s : State) (es : List Int) : (s.writeResid es).consumed = s.consumed := rfl
@[simp] theorem State.writeResid_bitLen (s : State) (es : List Int) : (s.writeResid es).bitLen = s.bitLen := rfl
@[simp] theorem State.writeResid_bitPos (s : State) (es : List Int) : (s.writeResid es).bitPos = s.bitPos := rfl
@[simp] theorem State.writeResid_mem (s : State) (es : List Int) : (s.writeResid es).mem = s.mem.writeWords residBase (es.map (BitVec.ofInt 32)) := rfl
@[simp] theorem State.writeResid_inFlight (s : State) (es : List Int) : (s.writeResid es).inFlight = s.inFlight := rfl
@[simp] theorem State.writeResid_tainted (s : State) (es : List Int) : (s.writeResid es).tainted = s.tainted := rfl
@[simp] theorem State.writeResid_inReset (s : State) (es : List Int) : (s.writeResid es).inReset = s.inReset := rfl
@[simp] theorem State.writeResid_agenda (s : State) (es : List Int) : (s.writeResid es).agenda = s.agenda := rfl
@[simp] theorem State.writeResid_lastRead (s : State) (es : List Int) : (s.writeResid es).lastRead = s.lastRead := rfl
@[simp] theorem State.writeResid_hostFault (s : State) (es : List Int) : (s.writeResid es).hostFault = s.hostFault := rfl
@[simp] theorem State.writeResid_draws (s : State) (es : List Int) : (s.writeResid es).draws = s.draws := rfl
@[simp] theorem State.writeResid_resetDraw (s : State) (es : List Int) : (s.writeResid es).resetDraw = s.resetDraw := rfl

@[simp] theorem State.writeCodes_build (s : State) (ws : List Word) : (s.writeCodes ws).build = s.build := rfl
@[simp] theorem State.writeCodes_cmd (s : State) (ws : List Word) : (s.writeCodes ws).cmd = s.cmd := rfl
@[simp] theorem State.writeCodes_status (s : State) (ws : List Word) : (s.writeCodes ws).status = s.status := rfl
@[simp] theorem State.writeCodes_errIndex (s : State) (ws : List Word) : (s.writeCodes ws).errIndex = s.errIndex := rfl
@[simp] theorem State.writeCodes_opa (s : State) (ws : List Word) : (s.writeCodes ws).opa = s.opa := rfl
@[simp] theorem State.writeCodes_opb (s : State) (ws : List Word) : (s.writeCodes ws).opb = s.opb := rfl
@[simp] theorem State.writeCodes_opc (s : State) (ws : List Word) : (s.writeCodes ws).opc = s.opc := rfl
@[simp] theorem State.writeCodes_predOut (s : State) (ws : List Word) : (s.writeCodes ws).predOut = s.predOut := rfl
@[simp] theorem State.writeCodes_symIn (s : State) (ws : List Word) : (s.writeCodes ws).symIn = s.symIn := rfl
@[simp] theorem State.writeCodes_codeOut (s : State) (ws : List Word) : (s.writeCodes ws).codeOut = s.codeOut := rfl
@[simp] theorem State.writeCodes_cursor (s : State) (ws : List Word) : (s.writeCodes ws).cursor = s.cursor := rfl
@[simp] theorem State.writeCodes_symOut (s : State) (ws : List Word) : (s.writeCodes ws).symOut = s.symOut := rfl
@[simp] theorem State.writeCodes_consumed (s : State) (ws : List Word) : (s.writeCodes ws).consumed = s.consumed := rfl
@[simp] theorem State.writeCodes_bitLen (s : State) (ws : List Word) : (s.writeCodes ws).bitLen = s.bitLen := rfl
@[simp] theorem State.writeCodes_bitPos (s : State) (ws : List Word) : (s.writeCodes ws).bitPos = s.bitPos := rfl
@[simp] theorem State.writeCodes_mem (s : State) (ws : List Word) : (s.writeCodes ws).mem = s.mem.writeWords codegridBase ws := rfl
@[simp] theorem State.writeCodes_inFlight (s : State) (ws : List Word) : (s.writeCodes ws).inFlight = s.inFlight := rfl
@[simp] theorem State.writeCodes_tainted (s : State) (ws : List Word) : (s.writeCodes ws).tainted = s.tainted := rfl
@[simp] theorem State.writeCodes_inReset (s : State) (ws : List Word) : (s.writeCodes ws).inReset = s.inReset := rfl
@[simp] theorem State.writeCodes_agenda (s : State) (ws : List Word) : (s.writeCodes ws).agenda = s.agenda := rfl
@[simp] theorem State.writeCodes_lastRead (s : State) (ws : List Word) : (s.writeCodes ws).lastRead = s.lastRead := rfl
@[simp] theorem State.writeCodes_hostFault (s : State) (ws : List Word) : (s.writeCodes ws).hostFault = s.hostFault := rfl
@[simp] theorem State.writeCodes_draws (s : State) (ws : List Word) : (s.writeCodes ws).draws = s.draws := rfl
@[simp] theorem State.writeCodes_resetDraw (s : State) (ws : List Word) : (s.writeCodes ws).resetDraw = s.resetDraw := rfl

@[simp] theorem State.writeRecon_build (s : State) (xs : List Int) : (s.writeRecon xs).build = s.build := rfl
@[simp] theorem State.writeRecon_cmd (s : State) (xs : List Int) : (s.writeRecon xs).cmd = s.cmd := rfl
@[simp] theorem State.writeRecon_status (s : State) (xs : List Int) : (s.writeRecon xs).status = s.status := rfl
@[simp] theorem State.writeRecon_errIndex (s : State) (xs : List Int) : (s.writeRecon xs).errIndex = s.errIndex := rfl
@[simp] theorem State.writeRecon_opa (s : State) (xs : List Int) : (s.writeRecon xs).opa = s.opa := rfl
@[simp] theorem State.writeRecon_opb (s : State) (xs : List Int) : (s.writeRecon xs).opb = s.opb := rfl
@[simp] theorem State.writeRecon_opc (s : State) (xs : List Int) : (s.writeRecon xs).opc = s.opc := rfl
@[simp] theorem State.writeRecon_predOut (s : State) (xs : List Int) : (s.writeRecon xs).predOut = s.predOut := rfl
@[simp] theorem State.writeRecon_symIn (s : State) (xs : List Int) : (s.writeRecon xs).symIn = s.symIn := rfl
@[simp] theorem State.writeRecon_codeOut (s : State) (xs : List Int) : (s.writeRecon xs).codeOut = s.codeOut := rfl
@[simp] theorem State.writeRecon_cursor (s : State) (xs : List Int) : (s.writeRecon xs).cursor = s.cursor := rfl
@[simp] theorem State.writeRecon_symOut (s : State) (xs : List Int) : (s.writeRecon xs).symOut = s.symOut := rfl
@[simp] theorem State.writeRecon_consumed (s : State) (xs : List Int) : (s.writeRecon xs).consumed = s.consumed := rfl
@[simp] theorem State.writeRecon_bitLen (s : State) (xs : List Int) : (s.writeRecon xs).bitLen = s.bitLen := rfl
@[simp] theorem State.writeRecon_bitPos (s : State) (xs : List Int) : (s.writeRecon xs).bitPos = s.bitPos := rfl
@[simp] theorem State.writeRecon_mem (s : State) (xs : List Int) : (s.writeRecon xs).mem = s.mem.writeSamples reconBase (xs.map (BitVec.ofInt 8)) := rfl
@[simp] theorem State.writeRecon_inFlight (s : State) (xs : List Int) : (s.writeRecon xs).inFlight = s.inFlight := rfl
@[simp] theorem State.writeRecon_tainted (s : State) (xs : List Int) : (s.writeRecon xs).tainted = s.tainted := rfl
@[simp] theorem State.writeRecon_inReset (s : State) (xs : List Int) : (s.writeRecon xs).inReset = s.inReset := rfl
@[simp] theorem State.writeRecon_agenda (s : State) (xs : List Int) : (s.writeRecon xs).agenda = s.agenda := rfl
@[simp] theorem State.writeRecon_lastRead (s : State) (xs : List Int) : (s.writeRecon xs).lastRead = s.lastRead := rfl
@[simp] theorem State.writeRecon_hostFault (s : State) (xs : List Int) : (s.writeRecon xs).hostFault = s.hostFault := rfl
@[simp] theorem State.writeRecon_draws (s : State) (xs : List Int) : (s.writeRecon xs).draws = s.draws := rfl
@[simp] theorem State.writeRecon_resetDraw (s : State) (xs : List Int) : (s.writeRecon xs).resetDraw = s.resetDraw := rfl

@[simp] theorem State.writeStream_build (s : State) (bs : List Bool) : (s.writeStream bs).build = s.build := rfl
@[simp] theorem State.writeStream_cmd (s : State) (bs : List Bool) : (s.writeStream bs).cmd = s.cmd := rfl
@[simp] theorem State.writeStream_status (s : State) (bs : List Bool) : (s.writeStream bs).status = s.status := rfl
@[simp] theorem State.writeStream_errIndex (s : State) (bs : List Bool) : (s.writeStream bs).errIndex = s.errIndex := rfl
@[simp] theorem State.writeStream_opa (s : State) (bs : List Bool) : (s.writeStream bs).opa = s.opa := rfl
@[simp] theorem State.writeStream_opb (s : State) (bs : List Bool) : (s.writeStream bs).opb = s.opb := rfl
@[simp] theorem State.writeStream_opc (s : State) (bs : List Bool) : (s.writeStream bs).opc = s.opc := rfl
@[simp] theorem State.writeStream_predOut (s : State) (bs : List Bool) : (s.writeStream bs).predOut = s.predOut := rfl
@[simp] theorem State.writeStream_symIn (s : State) (bs : List Bool) : (s.writeStream bs).symIn = s.symIn := rfl
@[simp] theorem State.writeStream_codeOut (s : State) (bs : List Bool) : (s.writeStream bs).codeOut = s.codeOut := rfl
@[simp] theorem State.writeStream_cursor (s : State) (bs : List Bool) : (s.writeStream bs).cursor = s.cursor := rfl
@[simp] theorem State.writeStream_symOut (s : State) (bs : List Bool) : (s.writeStream bs).symOut = s.symOut := rfl
@[simp] theorem State.writeStream_consumed (s : State) (bs : List Bool) : (s.writeStream bs).consumed = s.consumed := rfl
@[simp] theorem State.writeStream_bitLen (s : State) (bs : List Bool) : (s.writeStream bs).bitLen = s.bitLen := rfl
@[simp] theorem State.writeStream_bitPos (s : State) (bs : List Bool) : (s.writeStream bs).bitPos = s.bitPos := rfl
@[simp] theorem State.writeStream_mem (s : State) (bs : List Bool) : (s.writeStream bs).mem = s.mem.writeWords bitbufBase ((List.range (wordsFor bs.length)).map fun j =>
      mergeWord (s.wordAt (bitbufBase + 4 * j)) (bs.drop (32 * j))) := rfl
@[simp] theorem State.writeStream_inFlight (s : State) (bs : List Bool) : (s.writeStream bs).inFlight = s.inFlight := rfl
@[simp] theorem State.writeStream_tainted (s : State) (bs : List Bool) : (s.writeStream bs).tainted = s.tainted := rfl
@[simp] theorem State.writeStream_inReset (s : State) (bs : List Bool) : (s.writeStream bs).inReset = s.inReset := rfl
@[simp] theorem State.writeStream_agenda (s : State) (bs : List Bool) : (s.writeStream bs).agenda = s.agenda := rfl
@[simp] theorem State.writeStream_lastRead (s : State) (bs : List Bool) : (s.writeStream bs).lastRead = s.lastRead := rfl
@[simp] theorem State.writeStream_hostFault (s : State) (bs : List Bool) : (s.writeStream bs).hostFault = s.hostFault := rfl
@[simp] theorem State.writeStream_draws (s : State) (bs : List Bool) : (s.writeStream bs).draws = s.draws := rfl
@[simp] theorem State.writeStream_resetDraw (s : State) (bs : List Bool) : (s.writeStream bs).resetDraw = s.resetDraw := rfl

@[simp] theorem State.accept_build (s : State) (w : Word) : (s.accept w).build = s.build := rfl
@[simp] theorem State.accept_cmd (s : State) (w : Word) : (s.accept w).cmd = w := rfl
@[simp] theorem State.accept_status (s : State) (w : Word) : (s.accept w).status = .inProgress := rfl
@[simp] theorem State.accept_errIndex (s : State) (w : Word) : (s.accept w).errIndex = 0#16 := rfl
@[simp] theorem State.accept_opa (s : State) (w : Word) : (s.accept w).opa = s.opa := rfl
@[simp] theorem State.accept_opb (s : State) (w : Word) : (s.accept w).opb = s.opb := rfl
@[simp] theorem State.accept_opc (s : State) (w : Word) : (s.accept w).opc = s.opc := rfl
@[simp] theorem State.accept_predOut (s : State) (w : Word) : (s.accept w).predOut = s.predOut := rfl
@[simp] theorem State.accept_symIn (s : State) (w : Word) : (s.accept w).symIn = s.symIn := rfl
@[simp] theorem State.accept_codeOut (s : State) (w : Word) : (s.accept w).codeOut = s.codeOut := rfl
@[simp] theorem State.accept_cursor (s : State) (w : Word) : (s.accept w).cursor = s.cursor := rfl
@[simp] theorem State.accept_symOut (s : State) (w : Word) : (s.accept w).symOut = s.symOut := rfl
@[simp] theorem State.accept_consumed (s : State) (w : Word) : (s.accept w).consumed = s.consumed := rfl
@[simp] theorem State.accept_bitLen (s : State) (w : Word) : (s.accept w).bitLen = s.bitLen := rfl
@[simp] theorem State.accept_bitPos (s : State) (w : Word) : (s.accept w).bitPos = s.bitPos := rfl
@[simp] theorem State.accept_mem (s : State) (w : Word) : (s.accept w).mem = s.mem := rfl
@[simp] theorem State.accept_inFlight (s : State) (w : Word) : (s.accept w).inFlight = some w := rfl
@[simp] theorem State.accept_tainted (s : State) (w : Word) : (s.accept w).tainted = [] := rfl
@[simp] theorem State.accept_inReset (s : State) (w : Word) : (s.accept w).inReset = s.inReset := rfl
@[simp] theorem State.accept_agenda (s : State) (w : Word) : (s.accept w).agenda = s.agenda := rfl
@[simp] theorem State.accept_lastRead (s : State) (w : Word) : (s.accept w).lastRead = s.lastRead := rfl
@[simp] theorem State.accept_hostFault (s : State) (w : Word) : (s.accept w).hostFault = s.hostFault := rfl
@[simp] theorem State.accept_draws (s : State) (w : Word) : (s.accept w).draws = s.draws := rfl
@[simp] theorem State.accept_resetDraw (s : State) (w : Word) : (s.accept w).resetDraw = s.resetDraw := rfl

@[simp] theorem State.completeOk_build (s : State) : (s.completeOk).build = s.build := rfl
@[simp] theorem State.completeOk_cmd (s : State) : (s.completeOk).cmd = s.cmd := rfl
@[simp] theorem State.completeOk_status (s : State) : (s.completeOk).status = .completed none := rfl
@[simp] theorem State.completeOk_errIndex (s : State) : (s.completeOk).errIndex = s.errIndex := rfl
@[simp] theorem State.completeOk_opa (s : State) : (s.completeOk).opa = s.opa := rfl
@[simp] theorem State.completeOk_opb (s : State) : (s.completeOk).opb = s.opb := rfl
@[simp] theorem State.completeOk_opc (s : State) : (s.completeOk).opc = s.opc := rfl
@[simp] theorem State.completeOk_predOut (s : State) : (s.completeOk).predOut = s.predOut := rfl
@[simp] theorem State.completeOk_symIn (s : State) : (s.completeOk).symIn = s.symIn := rfl
@[simp] theorem State.completeOk_codeOut (s : State) : (s.completeOk).codeOut = s.codeOut := rfl
@[simp] theorem State.completeOk_cursor (s : State) : (s.completeOk).cursor = s.cursor := rfl
@[simp] theorem State.completeOk_symOut (s : State) : (s.completeOk).symOut = s.symOut := rfl
@[simp] theorem State.completeOk_consumed (s : State) : (s.completeOk).consumed = s.consumed := rfl
@[simp] theorem State.completeOk_bitLen (s : State) : (s.completeOk).bitLen = s.bitLen := rfl
@[simp] theorem State.completeOk_bitPos (s : State) : (s.completeOk).bitPos = s.bitPos := rfl
@[simp] theorem State.completeOk_mem (s : State) : (s.completeOk).mem = s.mem := rfl
@[simp] theorem State.completeOk_inFlight (s : State) : (s.completeOk).inFlight = none := rfl
@[simp] theorem State.completeOk_tainted (s : State) : (s.completeOk).tainted = [] := rfl
@[simp] theorem State.completeOk_inReset (s : State) : (s.completeOk).inReset = s.inReset := rfl
@[simp] theorem State.completeOk_agenda (s : State) : (s.completeOk).agenda = s.agenda := rfl
@[simp] theorem State.completeOk_lastRead (s : State) : (s.completeOk).lastRead = s.lastRead := rfl
@[simp] theorem State.completeOk_hostFault (s : State) : (s.completeOk).hostFault = s.hostFault := rfl
@[simp] theorem State.completeOk_draws (s : State) : (s.completeOk).draws = s.draws := rfl
@[simp] theorem State.completeOk_resetDraw (s : State) : (s.completeOk).resetDraw = s.resetDraw := rfl

@[simp] theorem State.readFree_build (s : State) (o : Nat) : (s.readFree o).build = s.build := rfl
@[simp] theorem State.readFree_cmd (s : State) (o : Nat) : (s.readFree o).cmd = s.cmd := rfl
@[simp] theorem State.readFree_status (s : State) (o : Nat) : (s.readFree o).status = s.status := rfl
@[simp] theorem State.readFree_errIndex (s : State) (o : Nat) : (s.readFree o).errIndex = s.errIndex := rfl
@[simp] theorem State.readFree_opa (s : State) (o : Nat) : (s.readFree o).opa = s.opa := rfl
@[simp] theorem State.readFree_opb (s : State) (o : Nat) : (s.readFree o).opb = s.opb := rfl
@[simp] theorem State.readFree_opc (s : State) (o : Nat) : (s.readFree o).opc = s.opc := rfl
@[simp] theorem State.readFree_predOut (s : State) (o : Nat) : (s.readFree o).predOut = s.predOut := rfl
@[simp] theorem State.readFree_symIn (s : State) (o : Nat) : (s.readFree o).symIn = s.symIn := rfl
@[simp] theorem State.readFree_codeOut (s : State) (o : Nat) : (s.readFree o).codeOut = s.codeOut := rfl
@[simp] theorem State.readFree_cursor (s : State) (o : Nat) : (s.readFree o).cursor = s.cursor := rfl
@[simp] theorem State.readFree_symOut (s : State) (o : Nat) : (s.readFree o).symOut = s.symOut := rfl
@[simp] theorem State.readFree_consumed (s : State) (o : Nat) : (s.readFree o).consumed = s.consumed := rfl
@[simp] theorem State.readFree_bitLen (s : State) (o : Nat) : (s.readFree o).bitLen = s.bitLen := rfl
@[simp] theorem State.readFree_bitPos (s : State) (o : Nat) : (s.readFree o).bitPos = s.bitPos := rfl
@[simp] theorem State.readFree_mem (s : State) (o : Nat) : (s.readFree o).mem = s.mem := rfl
@[simp] theorem State.readFree_inFlight (s : State) (o : Nat) : (s.readFree o).inFlight = s.inFlight := rfl
@[simp] theorem State.readFree_tainted (s : State) (o : Nat) : (s.readFree o).tainted = s.tainted := rfl
@[simp] theorem State.readFree_inReset (s : State) (o : Nat) : (s.readFree o).inReset = s.inReset := rfl
@[simp] theorem State.readFree_agenda (s : State) (o : Nat) : (s.readFree o).agenda = s.agenda := rfl
@[simp] theorem State.readFree_lastRead (s : State) (o : Nat) : (s.readFree o).lastRead = some (Config.freeWord s.draws o) := rfl
@[simp] theorem State.readFree_hostFault (s : State) (o : Nat) : (s.readFree o).hostFault = s.hostFault := rfl
@[simp] theorem State.readFree_draws (s : State) (o : Nat) : (s.readFree o).draws = s.draws + 1 := rfl
@[simp] theorem State.readFree_resetDraw (s : State) (o : Nat) : (s.readFree o).resetDraw = s.resetDraw := rfl

/-! ### Storing into a location, and making locations unspecified -/

@[simp] theorem State.storeLoc_build (s : State) (l : Loc) (w : Word) : (s.storeLoc l w).build = s.build := by cases l <;> rfl
@[simp] theorem State.storeLoc_cmd (s : State) (l : Loc) (w : Word) : (s.storeLoc l w).cmd = s.cmd := by cases l <;> rfl
@[simp] theorem State.storeLoc_status (s : State) (l : Loc) (w : Word) : (s.storeLoc l w).status = s.status := by cases l <;> rfl
@[simp] theorem State.storeLoc_inFlight (s : State) (l : Loc) (w : Word) : (s.storeLoc l w).inFlight = s.inFlight := by cases l <;> rfl
@[simp] theorem State.storeLoc_tainted (s : State) (l : Loc) (w : Word) : (s.storeLoc l w).tainted = s.tainted := by cases l <;> rfl
@[simp] theorem State.storeLoc_inReset (s : State) (l : Loc) (w : Word) : (s.storeLoc l w).inReset = s.inReset := by cases l <;> rfl
@[simp] theorem State.storeLoc_agenda (s : State) (l : Loc) (w : Word) : (s.storeLoc l w).agenda = s.agenda := by cases l <;> rfl
@[simp] theorem State.storeLoc_lastRead (s : State) (l : Loc) (w : Word) : (s.storeLoc l w).lastRead = s.lastRead := by cases l <;> rfl
@[simp] theorem State.storeLoc_hostFault (s : State) (l : Loc) (w : Word) : (s.storeLoc l w).hostFault = s.hostFault := by cases l <;> rfl
@[simp] theorem State.storeLoc_draws (s : State) (l : Loc) (w : Word) : (s.storeLoc l w).draws = s.draws := by cases l <;> rfl
@[simp] theorem State.storeLoc_resetDraw (s : State) (l : Loc) (w : Word) : (s.storeLoc l w).resetDraw = s.resetDraw := by cases l <;> rfl

/-- A fold of `storeLoc` keeps whatever every single `storeLoc` keeps. -/
theorem foldl_storeLoc_keeps {α : Type} (g : State → α) (hg : ∀ s l w, g (State.storeLoc s l w) = g s) (v : Loc → Word)
    (ls : List Loc) (s : State) : g (ls.foldl (fun t l => t.storeLoc l (v l)) s) = g s := by
  induction ls generalizing s with
  | nil => rfl
  | cons l ls ih => rw [List.foldl_cons, ih, hg]

@[simp] theorem State.scramble_build (s : State) (ls : List Loc) : (s.scramble ls).build = s.build :=
  foldl_storeLoc_keeps State.build (fun s l w => State.storeLoc_build s l w) _ ls s
@[simp] theorem State.scramble_cmd (s : State) (ls : List Loc) : (s.scramble ls).cmd = s.cmd :=
  foldl_storeLoc_keeps State.cmd (fun s l w => State.storeLoc_cmd s l w) _ ls s
@[simp] theorem State.scramble_status (s : State) (ls : List Loc) : (s.scramble ls).status = s.status :=
  foldl_storeLoc_keeps State.status (fun s l w => State.storeLoc_status s l w) _ ls s
@[simp] theorem State.scramble_inFlight (s : State) (ls : List Loc) : (s.scramble ls).inFlight = s.inFlight :=
  foldl_storeLoc_keeps State.inFlight (fun s l w => State.storeLoc_inFlight s l w) _ ls s
@[simp] theorem State.scramble_tainted (s : State) (ls : List Loc) : (s.scramble ls).tainted = s.tainted :=
  foldl_storeLoc_keeps State.tainted (fun s l w => State.storeLoc_tainted s l w) _ ls s
@[simp] theorem State.scramble_inReset (s : State) (ls : List Loc) : (s.scramble ls).inReset = s.inReset :=
  foldl_storeLoc_keeps State.inReset (fun s l w => State.storeLoc_inReset s l w) _ ls s
@[simp] theorem State.scramble_agenda (s : State) (ls : List Loc) : (s.scramble ls).agenda = s.agenda :=
  foldl_storeLoc_keeps State.agenda (fun s l w => State.storeLoc_agenda s l w) _ ls s
@[simp] theorem State.scramble_lastRead (s : State) (ls : List Loc) : (s.scramble ls).lastRead = s.lastRead :=
  foldl_storeLoc_keeps State.lastRead (fun s l w => State.storeLoc_lastRead s l w) _ ls s
@[simp] theorem State.scramble_hostFault (s : State) (ls : List Loc) : (s.scramble ls).hostFault = s.hostFault :=
  foldl_storeLoc_keeps State.hostFault (fun s l w => State.storeLoc_hostFault s l w) _ ls s
@[simp] theorem State.scramble_draws (s : State) (ls : List Loc) : (s.scramble ls).draws = s.draws + 1 := rfl
@[simp] theorem State.scramble_resetDraw (s : State) (ls : List Loc) : (s.scramble ls).resetDraw = s.resetDraw :=
  foldl_storeLoc_keeps State.resetDraw (fun s l w => State.storeLoc_resetDraw s l w) _ ls s

@[simp] theorem State.completeError_build (s : State) (e : CmdError) (ls : List Loc) :
    (s.completeError e ls).build = s.build := State.scramble_build s ls
@[simp] theorem State.completeError_cmd (s : State) (e : CmdError) (ls : List Loc) :
    (s.completeError e ls).cmd = s.cmd := State.scramble_cmd s ls
@[simp] theorem State.completeError_status (s : State) (e : CmdError) (ls : List Loc) :
    (s.completeError e ls).status = .completed (some e.kind) := rfl
@[simp] theorem State.completeError_errIndex (s : State) (e : CmdError) (ls : List Loc) :
    (s.completeError e ls).errIndex = BitVec.ofNat 16 e.index := rfl
@[simp] theorem State.completeError_opa (s : State) (e : CmdError) (ls : List Loc) :
    (s.completeError e ls).opa = (s.scramble ls).opa := rfl
@[simp] theorem State.completeError_opb (s : State) (e : CmdError) (ls : List Loc) :
    (s.completeError e ls).opb = (s.scramble ls).opb := rfl
@[simp] theorem State.completeError_opc (s : State) (e : CmdError) (ls : List Loc) :
    (s.completeError e ls).opc = (s.scramble ls).opc := rfl
@[simp] theorem State.completeError_predOut (s : State) (e : CmdError) (ls : List Loc) :
    (s.completeError e ls).predOut = (s.scramble ls).predOut := rfl
@[simp] theorem State.completeError_symIn (s : State) (e : CmdError) (ls : List Loc) :
    (s.completeError e ls).symIn = (s.scramble ls).symIn := rfl
@[simp] theorem State.completeError_codeOut (s : State) (e : CmdError) (ls : List Loc) :
    (s.completeError e ls).codeOut = (s.scramble ls).codeOut := rfl
@[simp] theorem State.completeError_cursor (s : State) (e : CmdError) (ls : List Loc) :
    (s.completeError e ls).cursor = (s.scramble ls).cursor := rfl
@[simp] theorem State.completeError_symOut (s : State) (e : CmdError) (ls : List Loc) :
    (s.completeError e ls).symOut = (s.scramble ls).symOut := rfl
@[simp] theorem State.completeError_consumed (s : State) (e : CmdError) (ls : List Loc) :
    (s.completeError e ls).consumed = (s.scramble ls).consumed := rfl
@[simp] theorem State.completeError_bitLen (s : State) (e : CmdError) (ls : List Loc) :
    (s.completeError e ls).bitLen = (s.scramble ls).bitLen := rfl
@[simp] theorem State.completeError_bitPos (s : State) (e : CmdError) (ls : List Loc) :
    (s.completeError e ls).bitPos = (s.scramble ls).bitPos := rfl
@[simp] theorem State.completeError_mem (s : State) (e : CmdError) (ls : List Loc) :
    (s.completeError e ls).mem = (s.scramble ls).mem := rfl
@[simp] theorem State.completeError_inFlight (s : State) (e : CmdError) (ls : List Loc) :
    (s.completeError e ls).inFlight = none := rfl
@[simp] theorem State.completeError_tainted (s : State) (e : CmdError) (ls : List Loc) :
    (s.completeError e ls).tainted = [] := rfl
@[simp] theorem State.completeError_inReset (s : State) (e : CmdError) (ls : List Loc) :
    (s.completeError e ls).inReset = s.inReset := State.scramble_inReset s ls
@[simp] theorem State.completeError_agenda (s : State) (e : CmdError) (ls : List Loc) :
    (s.completeError e ls).agenda = s.agenda := State.scramble_agenda s ls
@[simp] theorem State.completeError_lastRead (s : State) (e : CmdError) (ls : List Loc) :
    (s.completeError e ls).lastRead = s.lastRead := State.scramble_lastRead s ls
@[simp] theorem State.completeError_hostFault (s : State) (e : CmdError) (ls : List Loc) :
    (s.completeError e ls).hostFault = s.hostFault := State.scramble_hostFault s ls
@[simp] theorem State.completeError_draws (s : State) (e : CmdError) (ls : List Loc) :
    (s.completeError e ls).draws = s.draws + 1 := rfl
@[simp] theorem State.completeError_resetDraw (s : State) (e : CmdError) (ls : List Loc) :
    (s.completeError e ls).resetDraw = s.resetDraw := State.scramble_resetDraw s ls

end Sys2Proof.Machine
end

