-- ==== Sys2Proof/Laws/Window.lean ====
section
/-! SUPPORT. The window: bytes, words and locations after each kind of store, and the mapped locations. -/

namespace Sys2Proof.Machine

/-! ### Bytes -/

theorem State.byteAt_of_mem {s t : State} (hm : t.mem = s.mem) (hd : t.resetDraw = s.resetDraw) (a : Nat) :
    t.byteAt a = s.byteAt a := by simp [State.byteAt, hm, hd]

theorem State.wordAt_of_mem {s t : State} (hm : t.mem = s.mem) (hd : t.resetDraw = s.resetDraw) (a : Nat) :
    t.wordAt a = s.wordAt a := by simp [State.wordAt, State.byteAt_of_mem hm hd]

theorem State.wordAt_congr {s t : State} {a : Nat} (h : ∀ a', a ≤ a' → a' < a + 4 → t.byteAt a' = s.byteAt a') :
    t.wordAt a = s.wordAt a := by
  simp only [State.wordAt]
  rw [h (a + 3) (by omega) (by omega), h (a + 2) (by omega) (by omega), h (a + 1) (by omega) (by omega),
    h a (by omega) (by omega)]

theorem State.wordAt_of_lanes {s : State} {a : Nat} {w : Word} (h : ∀ m, m < 4 → s.byteAt (a + m) = lane w m) :
    s.wordAt a = w := by
  simp only [State.wordAt]
  rw [h 3 (by omega), h 2 (by omega), h 1 (by omega)]
  have h0 := h 0 (by omega)
  rw [Nat.add_zero] at h0
  rw [h0]
  exact lanes_join w

theorem State.byteAt_storeByte (s : State) (a : Nat) (b : Byte) (a' : Nat) :
    (s.storeByte a b).byteAt a' = if a' = a then b else s.byteAt a' := by
  simp only [State.byteAt, State.storeByte_mem, State.storeByte_resetDraw, Memory.read?_write]
  split_ifs <;> rfl

theorem State.byteAt_storeWord (s : State) (a : Nat) (w : Word) (a' : Nat) :
    (s.storeWord a w).byteAt a' = if a ≤ a' ∧ a' < a + 4 then lane w (a' - a) else s.byteAt a' := by
  simp only [State.byteAt, State.storeWord_mem, State.storeWord_resetDraw, Memory.read?_writeWord]
  split_ifs <;> rfl

/-- Words stored at consecutive word offsets: each byte of them is its lane, every other byte stands. -/
theorem State.byteAt_writeWords {s t : State} {a : Nat} {ws : List Word} (hm : t.mem = s.mem.writeWords a ws)
    (hd : t.resetDraw = s.resetDraw) (a' : Nat) :
    t.byteAt a' =
      if a ≤ a' ∧ a' < a + 4 * ws.length then lane (ws.getD ((a' - a) / 4) 0) ((a' - a) % 4) else s.byteAt a' := by
  simp only [State.byteAt, hm, hd, Memory.read?_writeWords]
  split_ifs <;> rfl

/-- Samples stored at consecutive word offsets: each fills lane 0 of its word, every other byte stands. -/
theorem State.byteAt_writeSamples {s t : State} {a : Nat} {bs : List Byte} (hm : t.mem = s.mem.writeSamples a bs)
    (hd : t.resetDraw = s.resetDraw) (a' : Nat) :
    t.byteAt a' =
      if a ≤ a' ∧ a' < a + 4 * bs.length ∧ (a' - a) % 4 = 0 then bs.getD ((a' - a) / 4) 0 else s.byteAt a' := by
  simp only [State.byteAt, hm, hd, Memory.read?_writeSamples]
  split_ifs <;> rfl

theorem State.wordAt_storeWord_same (s : State) (a : Nat) (w : Word) : (s.storeWord a w).wordAt a = w := by
  apply State.wordAt_of_lanes
  intro m hm
  rw [State.byteAt_storeWord, if_pos (by omega), Nat.add_sub_cancel_left]

theorem State.wordAt_storeWord_ne (s : State) {a : Nat} (w : Word) {a' : Nat} (h : a + 4 ≤ a' ∨ a' + 4 ≤ a) :
    (s.storeWord a w).wordAt a' = s.wordAt a' := by
  apply State.wordAt_congr
  intro x h1 h2
  rw [State.byteAt_storeWord, if_neg (by omega)]

/-- A word inside a stored run of words reads back. -/
theorem State.wordAt_writeWords_mem {s t : State} {a : Nat} {ws : List Word} (hm : t.mem = s.mem.writeWords a ws)
    (hd : t.resetDraw = s.resetDraw) {i : Nat} (hi : i < ws.length) : t.wordAt (a + 4 * i) = ws.getD i 0 := by
  apply State.wordAt_of_lanes
  intro m hm'
  rw [State.byteAt_writeWords hm hd, if_pos (by omega)]
  have e : (a + 4 * i + m - a) / 4 = i := by omega
  have e' : (a + 4 * i + m - a) % 4 = m := by omega
  rw [e, e']

/-- A word outside a stored run of words stands. -/
theorem State.wordAt_writeWords_out {s t : State} {a : Nat} {ws : List Word} (hm : t.mem = s.mem.writeWords a ws)
    (hd : t.resetDraw = s.resetDraw) {a' : Nat} (h : a + 4 * ws.length ≤ a' ∨ a' + 4 ≤ a) :
    t.wordAt a' = s.wordAt a' := by
  apply State.wordAt_congr
  intro x h1 h2
  rw [State.byteAt_writeWords hm hd, if_neg (by omega)]

/-! ### Mapped locations -/

/-- A mapped location stands at its offset. -/
theorem Loc.ofOffset_offset {b : Build} {l : Loc} (h : l.mapped b = true) : Loc.ofOffset b l.offset = some l := by
  have hc := b.cells_le
  cases l with
  | raster i | resid i | codegrid i | recon i =>
    simp only [Loc.mapped, decide_eq_true_eq] at h
    simp only [Loc.ofOffset]
    generalize ho : Loc.offset _ = off
    simp only [Loc.offset, rasterBase, residBase, codegridBase, reconBase] at ho
    have hr : off % 0x1000 / 4 = i := by omega
    first
    | (have hq : off / 0x1000 = 1 := by omega
       simp [hq, hr, h])
    | (have hq : off / 0x1000 = 2 := by omega
       simp [hq, hr, h])
    | (have hq : off / 0x1000 = 3 := by omega
       simp [hq, hr, h])
    | (have hq : off / 0x1000 = 4 := by omega
       simp [hq, hr, h])
  | bitbuf j =>
    have h : j < bitbufWords := of_decide_eq_true h
    simp only [bitbufWords] at h
    simp only [Loc.ofOffset]
    generalize ho : Loc.offset _ = off
    simp only [Loc.offset, bitbufBase] at ho
    have hr : off % 0x1000 / 4 = j := by omega
    have hq : off / 0x1000 = 5 := by omega
    simp [hq, hr]
  | _ => rfl

/-- What stands at an aligned offset of the window is a mapped location with that offset. -/
theorem Loc.ofOffset_some {b : Build} {off : Nat} {l : Loc} (h : Loc.ofOffset b off = some l) (ha : off % 4 = 0) :
    l.mapped b = true ∧ l.offset = off := by
  simp only [Loc.ofOffset] at h
  split at h
  · simp only [registerAt] at h
    split at h <;> simp only [Option.some.injEq, reduceCtorEq] at h <;> subst h <;> exact ⟨rfl, rfl⟩
  all_goals
    first
    | (split_ifs at h with hc
       simp only [Option.some.injEq] at h
       subst h
       simp only [Loc.mapped, decide_eq_true_eq, Loc.offset, rasterBase, residBase, codegridBase, reconBase]
       exact ⟨hc, by omega⟩)
    | (simp only [Option.some.injEq] at h
       subst h
       refine ⟨decide_eq_true ?_, ?_⟩ <;> simp only [Loc.offset, bitbufBase, bitbufWords] <;> omega)
    | simp at h

theorem Loc.bytes_offset {l : Loc} {a : Nat} (h : a ∈ l.bytes) : l.offset ≤ a ∧ a < l.offset + 4 := by
  cases l <;> simp only [Loc.bytes, List.mem_cons, List.not_mem_nil, or_false] at h <;> omega

/-- Different mapped locations of a window have their own offsets, four apart. -/
theorem Loc.offset_apart {b : Build} {l l' : Loc} (h : l.mapped b = true) (h' : l'.mapped b = true) (hne : l ≠ l') :
    l.offset + 4 ≤ l'.offset ∨ l'.offset + 4 ≤ l.offset := by
  by_contra hcon
  have hal : ∀ l : Loc, l.offset % 4 = 0 := by
    intro l
    cases l <;> simp only [Loc.offset, rasterBase, residBase, codegridBase, reconBase, bitbufBase] <;> omega
  have he : l.offset = l'.offset := by have := hal l; have := hal l'; omega
  have h1 := Loc.ofOffset_offset h
  have h2 := Loc.ofOffset_offset h'
  rw [he, h2] at h1
  exact hne (Option.some.inj h1).symm

/-! ### Storing into a location -/

/-- The bits of a word that a location keeps, as they read back (R27, R31, R32, R36, R40). -/
def Loc.kept (l : Loc) (w : Word) : Word :=
  match l with
  | .opa | .opb | .opc => (w.setWidth 16).signExtend 32
  | .errIndex | .cursor | .bitLen | .bitPos => (w.setWidth 16).setWidth 32
  | .consumed | .raster _ | .recon _ => (w.setWidth 8).setWidth 32
  | _ => w

theorem State.byteAt_storeLoc_out (s : State) (l : Loc) (w : Word) {a : Nat} (h : a ∉ l.bytes) :
    (s.storeLoc l w).byteAt a = s.byteAt a := by
  cases l with
  | raster i | recon i =>
    simp only [Loc.bytes, Loc.offset, List.mem_singleton] at h
    simp only [State.storeLoc, State.byteAt_storeByte, if_neg h]
  | resid i | codegrid i | bitbuf i =>
    simp only [Loc.bytes, Loc.offset, List.mem_cons, List.not_mem_nil, or_false, not_or] at h
    simp only [State.storeLoc, State.byteAt_storeWord]
    rw [if_neg (by omega)]
  | _ => rfl

/-- A location other than CMD, STATUS and ID reads back what was stored into it. -/
theorem State.readLoc_storeLoc_same (s : State) {l : Loc} (hl : l ≠ .cmd ∧ l ≠ .status ∧ l ≠ .id) (w : Word) :
    (s.storeLoc l w).readLoc l = l.kept w := by
  cases l <;> simp_all [State.storeLoc, State.readLoc, Loc.kept, State.byteAt_storeByte, State.wordAt_storeWord_same]

/-- The reading of a mapped location depends only on its register or its bytes. -/
theorem State.readLoc_storeLoc_ne (s : State) {b : Build} {l l' : Loc} (h : l.mapped b = true) (h' : l'.mapped b = true)
    (hne : l' ≠ l) (w : Word) : (s.storeLoc l w).readLoc l' = s.readLoc l' := by
  have hbyte : ∀ a, l'.offset ≤ a → a < l'.offset + 4 → (s.storeLoc l w).byteAt a = s.byteAt a := by
    intro a h1 h2
    apply State.byteAt_storeLoc_out
    intro ha
    have := Loc.bytes_offset ha
    have := Loc.offset_apart h h' hne.symm
    omega
  cases l' with
  | raster i | recon i =>
    simp only [State.readLoc]
    rw [hbyte _ (by simp [Loc.offset]) (by simp [Loc.offset])]
  | resid i | codegrid i | bitbuf i => exact State.wordAt_congr (fun a h1 h2 => hbyte a h1 h2)
  | _ => cases l <;> first | rfl | exact absurd rfl hne

/-! ### Making locations unspecified -/

/-- A byte outside the listed locations stands. -/
theorem State.byteAt_scramble_out (s : State) (ls : List Loc) {a : Nat} (h : ∀ l ∈ ls, a ∉ l.bytes) :
    (s.scramble ls).byteAt a = s.byteAt a := by
  suffices hf : ∀ (v : Loc → Word) (t : State), (ls.foldl (fun t l => t.storeLoc l (v l)) t).byteAt a = t.byteAt a by
    rw [← hf (fun l => Config.freeWord s.draws l.offset) s]; rfl
  intro v
  induction ls with
  | nil => intro t; rfl
  | cons l ls ih =>
    intro t
    rw [List.foldl_cons, ih (fun l hl => h l (List.mem_cons_of_mem _ hl)), State.byteAt_storeLoc_out _ _ _ (h l List.mem_cons_self)]

/-- A mapped location outside the listed ones reads as before. -/
theorem State.readLoc_scramble_out (s : State) {b : Build} {ls : List Loc} (hls : ∀ l ∈ ls, l.mapped b = true) {l : Loc}
    (hl : l.mapped b = true) (h : l ∉ ls) : (s.scramble ls).readLoc l = s.readLoc l := by
  suffices hf : ∀ (v : Loc → Word) (t : State), (ls.foldl (fun t l => t.storeLoc l (v l)) t).readLoc l = t.readLoc l by
    rw [← hf (fun l => Config.freeWord s.draws l.offset) s]; cases l <;> rfl
  intro v
  induction ls with
  | nil => intro t; rfl
  | cons l' ls ih =>
    intro t
    simp only [List.mem_cons, not_or] at h
    rw [List.foldl_cons, ih (fun l hl => hls l (List.mem_cons_of_mem _ hl)) h.2,
      State.readLoc_storeLoc_ne t (hls l' List.mem_cons_self) hl h.1]

theorem State.wf_storeLoc {s : State} (h : s.mem.wf) (l : Loc) (w : Word) : (s.storeLoc l w).mem.wf := by
  cases l <;> first | exact h | exact Memory.write_wf h _ _ | exact Memory.writeWord_wf h _ _

theorem State.stored_storeLoc {s : State} (h : ∀ c ∈ s.mem, storageByte s.build c.1) {l : Loc}
    (hl : l.mapped s.build = true) (w : Word) : ∀ c ∈ (s.storeLoc l w).mem, storageByte s.build c.1 := by
  intro c hc
  cases l with
  | raster i | recon i =>
    rcases Memory.mem_write hc with rfl | hc
    · exact ⟨_, hl, by simp [Loc.bytes, Loc.offset]⟩
    · exact h c hc
  | resid i | codegrid i | bitbuf i =>
    rcases Memory.mem_writeWord hc with hc | hc
    · exact ⟨_, hl, by simp only [Loc.bytes, Loc.offset, List.mem_cons, List.not_mem_nil, or_false]; omega⟩
    · exact h c hc
  | _ => exact h c hc

theorem State.wf_scramble {s : State} (h : s.mem.wf) (ls : List Loc) : (s.scramble ls).mem.wf := by
  suffices hf : ∀ (v : Loc → Word) (t : State), t.mem.wf → (ls.foldl (fun t l => t.storeLoc l (v l)) t).mem.wf from
    hf _ s h
  intro v
  induction ls with
  | nil => intro t ht; exact ht
  | cons l ls ih => intro t ht; exact ih _ (State.wf_storeLoc ht l _)

theorem State.stored_scramble {s : State} (h : ∀ c ∈ s.mem, storageByte s.build c.1) {ls : List Loc}
    (hls : ∀ l ∈ ls, l.mapped s.build = true) : ∀ c ∈ (s.scramble ls).mem, storageByte s.build c.1 := by
  suffices hf : ∀ (v : Loc → Word) (t : State), t.build = s.build → (∀ c ∈ t.mem, storageByte t.build c.1) →
      ∀ c ∈ (ls.foldl (fun t l => t.storeLoc l (v l)) t).mem, storageByte s.build c.1 from hf _ s rfl h
  intro v
  induction ls with
  | nil => intro t hb ht; rw [← hb]; exact ht
  | cons l ls ih =>
    intro t hb ht
    refine ih (fun l hl => hls l (List.mem_cons_of_mem _ hl)) _ (by simpa using hb) ?_
    rw [State.storeLoc_build]
    exact State.stored_storeLoc ht (by rw [hb]; exact hls l List.mem_cons_self) _

/-- The output sets hold mapped locations only. -/
theorem outputs_mapped (i : Instr) (b : Build) : ∀ l ∈ outputs i b, l.mapped b = true := by
  intro l hl
  cases i <;>
    simp only [outputs, gridLocs, bitbufLocs, List.mem_cons, List.not_mem_nil, or_false, List.mem_append, List.mem_map,
      List.mem_range] at hl <;>
    grind [Loc.mapped]

end Sys2Proof.Machine
end

