-- ==== Sys2Proof/Laws/Codec.lean ====
section
/-! SUPPORT. The pure algorithms: bit strings and code words, the walk over cells, the table lookups, the reconstruction
walk, and the parsing of a stream. -/

namespace Sys2Proof.Machine

/-! ### Bit strings and code words (R86, R87) -/

theorem bitsVal_concat (bs : List Bool) (b : Bool) : bitsVal (bs ++ [b]) = 2 * bitsVal bs + b.toNat := by
  simp [bitsVal]

@[simp] theorem bitsVal_nil : bitsVal [] = 0 := rfl

theorem bitsVal_lt (bs : List Bool) : bitsVal bs < 2 ^ bs.length := by
  induction bs using List.reverseRecOn with
  | nil => simp
  | append_singleton bs b ih =>
    rw [bitsVal_concat, List.length_append, List.length_singleton, pow_succ]
    cases b <;> simp <;> omega

/-- Bit `i` of the value is the `i`-th bit of the string from its end (R87). -/
theorem testBit_bitsVal (bs : List Bool) (i : Nat) :
    (bitsVal bs).testBit i = if i < bs.length then bs.getD (bs.length - 1 - i) false else false := by
  induction bs using List.reverseRecOn generalizing i with
  | nil => simp
  | append_singleton bs b ih =>
    rw [bitsVal_concat, List.length_append, List.length_singleton]
    cases i with
    | zero => cases b <;> simp [Nat.testBit_zero]
    | succ i =>
      rw [Nat.testBit_succ, show (2 * bitsVal bs + b.toNat) / 2 = bitsVal bs by cases b <;> simp; omega, ih]
      by_cases h : i < bs.length
      · rw [if_pos h, if_pos (by omega), show bs.length + 1 - 1 - (i + 1) = bs.length - 1 - i by omega,
          List.getD_append _ _ _ _ (by omega)]
      · rw [if_neg h, if_neg (by omega)]

theorem codeLen_codeWord {bs : List Bool} (h : bs.length ≤ 24) : codeLen (codeWord bs) = bs.length := by
  have e : (codeWord bs).extractLsb' 24 8 = BitVec.ofNat 8 bs.length := by
    apply BitVec.eq_of_getLsbD_eq
    intro i hi
    simp only [codeWord, BitVec.getLsbD_extractLsb', BitVec.getLsbD_append]
    rw [if_neg (by omega), show 24 + i - 24 = i by omega]
    simp [hi]
  rw [codeLen, e, BitVec.toNat_ofNat, Nat.mod_eq_of_lt (by omega)]

theorem getLsbD_codeWord (bs : List Bool) {i : Nat} (h : i < 24) :
    (codeWord bs).getLsbD i = if i < bs.length then bs.getD (bs.length - 1 - i) false else false := by
  simp only [codeWord, BitVec.getLsbD_append, h, if_true, BitVec.getLsbD_ofNat, decide_true, Bool.true_and, testBit_bitsVal]

/-- str(cw(s)) = s (R87). -/
theorem codeBits_codeWord {bs : List Bool} (h : bs.length ≤ 24) : codeBits (codeWord bs) = bs := by
  rw [codeBits, codeLen_codeWord h]
  apply List.ext_getElem
  · simp
  · intro k hk hk'
    simp only [List.getElem_map, List.getElem_range]
    rw [getLsbD_codeWord bs (by omega), if_pos (by omega), show bs.length - 1 - (bs.length - 1 - k) = k by omega]
    simp [List.getD_eq_getElem?_getD, hk']

theorem codeWord_injective {bs bs' : List Bool} (h : bs.length ≤ 24) (h' : bs'.length ≤ 24)
    (he : codeWord bs = codeWord bs') : bs = bs' := by
  rw [← codeBits_codeWord h, he, codeBits_codeWord h']

theorem length_codeBits (w : Word) : (codeBits w).length = codeLen w := by simp [codeBits]

@[simp] theorem length_firstCellBits (v : Nat) : (firstCellBits v).length = 8 := by simp [firstCellBits]

theorem bitsVal_firstCellBits {v : Nat} (h : v < 256) : bitsVal (firstCellBits v) = v := by
  apply Nat.eq_of_testBit_eq
  intro i
  rw [testBit_bitsVal, length_firstCellBits]
  split_ifs with hi
  · simp only [firstCellBits, List.getD_eq_getElem?_getD]
    rw [List.getElem?_map, List.getElem?_range (by omega)]
    simp only [Option.map_some, Option.getD_some]
    congr 1; omega
  · symm
    apply Nat.testBit_lt_two_pow
    calc v < 2 ^ 8 := h
      _ ≤ 2 ^ i := Nat.pow_le_pow_right (by omega) (by omega)

/-- The first-cell word is 0x08000000 + v (R88). -/
theorem codeWord_firstCellBits {v : Nat} (h : v < 256) : codeWord (firstCellBits v) = BitVec.ofNat 32 (0x08000000 + v) := by
  rw [codeWord, length_firstCellBits, bitsVal_firstCellBits h]
  apply BitVec.eq_of_toNat_eq
  rw [BitVec.toNat_append, BitVec.toNat_ofNat, BitVec.toNat_ofNat, BitVec.toNat_ofNat,
    Nat.mod_eq_of_lt (show v < 2 ^ 24 by omega), Nat.mod_eq_of_lt (show 0x08000000 + v < 2 ^ 32 by omega),
    ← Nat.shiftLeft_add_eq_or_of_lt (show v < 2 ^ 24 by omega)]
  rfl

/-! ### The walk over cells (R226) -/

theorem mapCells_ok_iff {α β : Type} (f : Nat → α → Except CmdError β) (i : Nat) (xs : List α) (ys : List β) :
    mapCells f i xs = .ok ys ↔
      ys.length = xs.length ∧ ∀ k (hk : k < xs.length) (hk' : k < ys.length), f (i + k) xs[k] = .ok ys[k] := by
  induction xs generalizing i ys with
  | nil => cases ys <;> simp [mapCells]
  | cons x xs ih =>
    simp only [mapCells]
    cases hx : f i x with
    | error e =>
      simp only [reduceCtorEq, false_iff, not_and, not_forall]
      intro hl
      exact ⟨0, by simp, by simp [hl], by simp [hx]⟩
    | ok y =>
      simp only
      cases hr : mapCells f (i + 1) xs with
      | error e =>
        simp only [reduceCtorEq, false_iff]
        rintro ⟨hl, hall⟩
        cases ys with
        | nil => simp at hl
        | cons y' ys =>
          have := (ih (i + 1) ys).2 ⟨by simpa using hl, fun k hk hk' => by
            have := hall (k + 1) (by simpa using hk) (by simpa using hk')
            simpa [Nat.add_assoc, Nat.add_comm 1 k] using this⟩
          rw [hr] at this
          cases this
      | ok ys' =>
        simp only [Except.ok.injEq]
        constructor
        · rintro rfl
          obtain ⟨hl, hall⟩ := (ih (i + 1) ys').1 hr
          refine ⟨by simp [hl], ?_⟩
          intro k hk hk'
          cases k with
          | zero => simpa using hx
          | succ k =>
            have := hall k (by simpa using hk) (by simpa using hk')
            simpa [Nat.add_assoc, Nat.add_comm 1 k] using this
        · rintro ⟨hl, hall⟩
          cases ys with
          | nil => simp at hl
          | cons y' ys =>
            have h0 := hall 0 (by simp) (by simp)
            simp only [Nat.add_zero, List.getElem_cons_zero, hx, Except.ok.injEq] at h0
            have := (ih (i + 1) ys).2 ⟨by simpa using hl, fun k hk hk' => by
              have := hall (k + 1) (by simpa using hk) (by simpa using hk')
              simpa [Nat.add_assoc, Nat.add_comm 1 k] using this⟩
            rw [hr, Except.ok.injEq] at this
            rw [h0, this]

/-- The walk ends with the error of its first failing cell (R226). -/
theorem mapCells_error_iff {α β : Type} (f : Nat → α → Except CmdError β) (i : Nat) (xs : List α) (e : CmdError) :
    mapCells f i xs = .error e ↔
      ∃ k, ∃ hk : k < xs.length, f (i + k) xs[k] = .error e ∧
        ∀ j (hj : j < k), ∃ y, f (i + j) (xs[j]'(by omega)) = .ok y := by
  induction xs generalizing i with
  | nil => simp [mapCells]
  | cons x xs ih =>
    simp only [mapCells]
    cases hx : f i x with
    | error e' =>
      simp only [Except.error.injEq]
      constructor
      · rintro rfl
        exact ⟨0, by simp, by simpa using hx, by simp⟩
      · rintro ⟨k, hk, hke, hall⟩
        cases k with
        | zero => simpa [hx] using hke
        | succ k =>
          obtain ⟨y, hy⟩ := hall 0 (by omega)
          simp [hx] at hy
    | ok y =>
      have key : mapCells f (i + 1) xs = .error e ↔ ∃ k, ∃ hk : k < (x :: xs).length,
          f (i + k) (x :: xs)[k] = .error e ∧ ∀ j (hj : j < k), ∃ y, f (i + j) ((x :: xs)[j]'(by omega)) = .ok y := by
        rw [ih]
        constructor
        · rintro ⟨k, hk, hke, hall⟩
          refine ⟨k + 1, by simpa using hk, by simpa [Nat.add_assoc, Nat.add_comm 1 k] using hke, ?_⟩
          intro j hj
          cases j with
          | zero => exact ⟨y, by simpa using hx⟩
          | succ j => simpa [Nat.add_assoc, Nat.add_comm 1 j] using hall j (by omega)
        · rintro ⟨k, hk, hke, hall⟩
          cases k with
          | zero => simp [hx] at hke
          | succ k =>
            refine ⟨k, by simpa using hk, by simpa [Nat.add_assoc, Nat.add_comm 1 k] using hke, ?_⟩
            intro j hj
            simpa [Nat.add_assoc, Nat.add_comm 1 j] using hall (j + 1) (by omega)
      rw [← key]
      cases mapCells f (i + 1) xs <;> simp

/-! ### Table lookups (R153, R154, R159) -/

theorem encodeSymbol_of_mem {t : CodeTable} (h : t.wf = true) {e : Entry} (he : e ∈ t) :
    encodeSymbol t e.value = some e.code := by
  unfold encodeSymbol
  cases hf : t.find? fun e' => e'.value == e.value with
  | none =>
    have := List.find?_eq_none.1 hf e he
    simp at this
  | some e' =>
    have h1 : e'.value = e.value := by simpa using List.find?_some hf
    rw [CodeTable.entry_of_value h (List.mem_of_find?_eq_some hf) he h1]
    rfl

theorem encodeSymbol_eq_some {t : CodeTable} {v : Int} {bs : List Bool} (h : encodeSymbol t v = some bs) :
    ∃ e ∈ t, e.value = v ∧ e.code = bs := by
  unfold encodeSymbol at h
  obtain ⟨e, hf, rfl⟩ := Option.map_eq_some_iff.1 h
  exact ⟨e, List.mem_of_find?_eq_some hf, by simpa using List.find?_some hf, rfl⟩

theorem encodeSymbol_eq_none {t : CodeTable} {v : Int} : encodeSymbol t v = none ↔ ∀ e ∈ t, e.value ≠ v := by
  simp [encodeSymbol]

theorem matchEntry_of_isPrefix {t : CodeTable} (h : t.wf = true) {e : Entry} (he : e ∈ t) {rest : List Bool}
    (hp : e.code <+: rest) : matchEntry t rest = some e := by
  unfold matchEntry
  cases hf : t.find? fun e' => e'.code.isPrefixOf rest with
  | none =>
    have := List.find?_eq_none.1 hf e he
    simp [hp] at this
  | some e' =>
    have h1 : e'.code <+: rest := by simpa using List.find?_some hf
    have hm := List.mem_of_find?_eq_some hf
    rcases List.prefix_or_prefix_of_prefix h1 hp with hq | hq
    · rw [CodeTable.entry_of_isPrefix h hm he hq]
    · rw [CodeTable.entry_of_isPrefix h he hm hq]

theorem matchEntry_eq_some {t : CodeTable} {rest : List Bool} {e : Entry} (h : matchEntry t rest = some e) :
    e ∈ t ∧ e.code <+: rest :=
  ⟨List.mem_of_find?_eq_some h, by simpa using List.find?_some h⟩

theorem matchEntry_eq_none {t : CodeTable} {rest : List Bool} :
    matchEntry t rest = none ↔ ∀ e ∈ t, ¬ e.code <+: rest := by
  simp [matchEntry]

theorem wordEntry_of_mem {t : CodeTable} (h : t.wf = true) {e : Entry} (he : e ∈ t) :
    wordEntry t (codeWord e.code) = some e := by
  unfold wordEntry
  cases hf : t.find? fun e' => codeWord e'.code == codeWord e.code with
  | none =>
    have := List.find?_eq_none.1 hf e he
    simp at this
  | some e' =>
    have hm := List.mem_of_find?_eq_some hf
    have h1 : codeWord e'.code = codeWord e.code := by simpa using List.find?_some hf
    have h2 := codeWord_injective (CodeTable.lengths h hm).2 (CodeTable.lengths h he).2 h1
    rw [CodeTable.entry_of_isPrefix h hm he (h2 ▸ List.prefix_rfl)]

theorem wordEntry_eq_some {t : CodeTable} {w : Word} {e : Entry} (h : wordEntry t w = some e) :
    e ∈ t ∧ codeWord e.code = w :=
  ⟨List.mem_of_find?_eq_some h, by simpa using List.find?_some h⟩

theorem wordEntry_eq_none {t : CodeTable} {w : Word} : wordEntry t w = none ↔ ∀ e ∈ t, codeWord e.code ≠ w := by
  simp [wordEntry]

/-! ### The reconstruction walk (R132) -/

theorem predictionAt_congr {n : Nat} {f : Selector} {y y' : Nat → Int} {i : Nat} (hn : 0 < n)
    (h : ∀ j, j < i → y j = y' j) : predictionAt n f y i = predictionAt n f y' i := by
  unfold predictionAt
  by_cases hr : i / n = 0
  · by_cases hc : i % n = 0
    · simp [hr, hc]
    · have hi : 0 < i := by
        rcases Nat.eq_zero_or_pos i with h0 | h0
        · exact absurd (by simp [h0]) hc
        · exact h0
      simp [hr, hc, h (i - 1) (by omega)]
  · have hle : n ≤ i := by
      by_contra hlt
      exact hr (Nat.div_eq_of_lt (by omega))
    simp [hr, h (i - 1) (by omega), h (i - n) (by omega), h (i - n - 1) (by omega)]

theorem reconstructFrom_cons (n : Nat) (f : Selector) (acc : List Int) (e : Int) (es : List Int) :
    reconstructFrom n f acc (e :: es) =
      if e + predictionAt n f (fun j => acc.getD j 0) acc.length < 0 ∨
          255 < e + predictionAt n f (fun j => acc.getD j 0) acc.length then .error ⟨.malformedStream, acc.length⟩
      else reconstructFrom n f (acc ++ [e + predictionAt n f (fun j => acc.getD j 0) acc.length]) es := rfl

/-- The walk succeeds exactly on a residual list that some samples in 0..255 explain; it then gives those samples. -/
theorem reconstructFrom_ok_iff {n : Nat} (hn : 0 < n) (f : Selector) (acc es ys : List Int) :
    reconstructFrom n f acc es = .ok ys ↔
      ys.length = acc.length + es.length ∧ (∀ j, j < acc.length → ys.getD j 0 = acc.getD j 0) ∧
        ∀ k, k < es.length →
          ys.getD (acc.length + k) 0 = es.getD k 0 + predictionAt n f (fun j => ys.getD j 0) (acc.length + k) ∧
          0 ≤ ys.getD (acc.length + k) 0 ∧ ys.getD (acc.length + k) 0 ≤ 255 := by
  induction es generalizing acc with
  | nil =>
    simp only [reconstructFrom, Except.ok.injEq, List.length_nil, Nat.add_zero, Nat.not_lt_zero, IsEmpty.forall_iff,
      implies_true, and_true]
    constructor
    · rintro rfl; simp
    · rintro ⟨hl, h⟩
      apply List.ext_getElem hl.symm
      intro j h1 h2
      have := h j h1
      rw [List.getD_eq_getElem _ _ h1, List.getD_eq_getElem _ _ h2] at this
      exact this.symm
  | cons e es ih =>
    simp only [reconstructFrom]
    have hpred : ∀ zs : List Int, (∀ j, j < acc.length → zs.getD j 0 = acc.getD j 0) →
        predictionAt n f (fun j => acc.getD j 0) acc.length = predictionAt n f (fun j => zs.getD j 0) acc.length :=
      fun zs hz => predictionAt_congr hn fun j hj => (hz j hj).symm
    split_ifs with hbad
    · simp only [false_iff, not_and, not_forall]
      intro _ hacc
      refine ⟨0, by simp, ?_⟩
      intro h h' h''
      rw [hpred ys hacc] at hbad
      rw [Nat.add_zero] at h h' h''
      rw [List.getD_cons_zero] at h
      omega
    · rw [ih]
      set x := e + predictionAt n f (fun j => acc.getD j 0) acc.length with hx
      constructor
      · rintro ⟨hl, hacc, hall⟩
        have hacc' : ∀ j, j < acc.length → ys.getD j 0 = acc.getD j 0 := by
          intro j hj
          rw [hacc j (by simp; omega), List.getD_append _ _ _ _ hj]
        have hxy : ys.getD acc.length 0 = x := by
          rw [hacc acc.length (by simp), List.getD_append_right _ _ _ _ (by omega)]
          simp
        refine ⟨by simp at hl ⊢; omega, hacc', ?_⟩
        intro k hk
        cases k with
        | zero =>
          simp only [Nat.add_zero, List.getD_cons_zero]
          rw [hxy, ← hpred ys hacc']
          exact ⟨rfl, by omega, by omega⟩
        | succ k =>
          have := hall k (by simpa using hk)
          simpa [Nat.add_assoc, Nat.add_comm 1 k] using this
      · rintro ⟨hl, hacc, hall⟩
        have h0 := hall 0 (by simp)
        simp only [Nat.add_zero, List.getD_cons_zero] at h0
        refine ⟨by simp at hl ⊢; omega, ?_, ?_⟩
        · intro j hj
          simp only [List.length_append, List.length_singleton] at hj
          by_cases hj' : j < acc.length
          · rw [List.getD_append _ _ _ _ hj', hacc j hj']
          · have hje : j = acc.length := by omega
            subst hje
            rw [List.getD_append_right _ _ _ _ (by omega), h0.1, hx, hpred ys hacc, Nat.sub_self, List.getD_cons_zero]
        · intro k hk
          have := hall (k + 1) (by simpa using hk)
          simpa [Nat.add_assoc, Nat.add_comm 1 k] using this

/-- The walk fails at the first cell whose value leaves 0..255. -/
theorem reconstructFrom_error_iff (n : Nat) (f : Selector) (acc es : List Int) (err : CmdError) :
    reconstructFrom n f acc es = .error err ↔
      ∃ k, k < es.length ∧ err = ⟨.malformedStream, acc.length + k⟩ ∧
        ∃ ys, reconstructFrom n f acc (es.take k) = .ok ys ∧
          let x := es.getD k 0 + predictionAt n f (fun j => ys.getD j 0) (acc.length + k)
          x < 0 ∨ 255 < x := by
  induction es generalizing acc with
  | nil => simp [reconstructFrom]
  | cons e es ih =>
    simp only [reconstructFrom]
    split_ifs with hbad
    · simp only [Except.error.injEq]
      constructor
      · rintro rfl
        exact ⟨0, by simp, by simp, acc, by simp [reconstructFrom], by simpa using hbad⟩
      · rintro ⟨k, hk, rfl, ys, hok, -⟩
        cases k with
        | zero => simp
        | succ k =>
          rw [List.take_succ_cons, reconstructFrom_cons, if_pos hbad] at hok
          cases hok
    · rw [ih]
      constructor
      · rintro ⟨k, hk, rfl, ys, hok, hx⟩
        refine ⟨k + 1, by simpa using hk, by simp [Nat.add_assoc, Nat.add_comm 1 k], ys, ?_, ?_⟩
        · rw [List.take_succ_cons, reconstructFrom_cons, if_neg hbad]
          exact hok
        · simpa [Nat.add_assoc, Nat.add_comm 1 k] using hx
      · rintro ⟨k, hk, rfl, ys, hok, hx⟩
        cases k with
        | zero =>
          simp only [List.take_zero, reconstructFrom, Except.ok.injEq] at hok
          subst hok
          simp only [Nat.add_zero, List.getD_cons_zero] at hx
          exact absurd hx hbad
        | succ k =>
          refine ⟨k, by simpa using hk, by simp [Nat.add_assoc, Nat.add_comm 1 k], ys, ?_, ?_⟩
          · rw [List.take_succ_cons, reconstructFrom_cons, if_neg hbad] at hok
            exact hok
          · simpa [Nat.add_assoc, Nat.add_comm 1 k] using hx

/-! ### Parsing a stream (R181) -/

/-- A stream that begins with the codes of `k` entries parses into their code words. -/
theorem unpackCells_of_codes {t : CodeTable} (h : t.wf = true) (es : List Entry) (hes : ∀ e ∈ es, e ∈ t) (i : Nat)
    (tail : List Bool) :
    unpackCells t es.length i (es.flatMap Entry.code ++ tail) =
      .ok (es.map fun e => codeWord e.code, (es.flatMap Entry.code).length) := by
  induction es generalizing i with
  | nil => rfl
  | cons e es ih =>
    have hm : matchEntry t ((e :: es).flatMap Entry.code ++ tail) = some e :=
      matchEntry_of_isPrefix h (hes e List.mem_cons_self) (by simp [List.append_assoc])
    simp only [List.length_cons, unpackCells, hm]
    have hd : ((e :: es).flatMap Entry.code ++ tail).drop e.code.length = es.flatMap Entry.code ++ tail := by
      simp [List.append_assoc]
    rw [hd, ih (fun e' he' => hes e' (List.mem_cons_of_mem _ he'))]
    simp

/-- A successful parse reads the codes of some entries at the front of the stream. -/
theorem unpackCells_ok {t : CodeTable} {k i : Nat} {bs : List Bool} {ws : List Word} {n : Nat}
    (h : unpackCells t k i bs = .ok (ws, n)) :
    ∃ es : List Entry, es.length = k ∧ (∀ e ∈ es, e ∈ t) ∧ es.flatMap Entry.code <+: bs ∧
      ws = es.map (fun e => codeWord e.code) ∧ n = (es.flatMap Entry.code).length := by
  induction k generalizing i bs ws n with
  | zero =>
    simp only [unpackCells, Except.ok.injEq, Prod.mk.injEq] at h
    exact ⟨[], rfl, by simp, by simp, by simp [h.1], by simp [h.2]⟩
  | succ k ih =>
    simp only [unpackCells] at h
    cases hm : matchEntry t bs with
    | none => simp [hm] at h
    | some e =>
      simp only [hm] at h
      cases hr : unpackCells t k (i + 1) (bs.drop e.code.length) with
      | error err => simp [hr] at h
      | ok p =>
        obtain ⟨ws', n'⟩ := p
        simp only [hr, Except.ok.injEq, Prod.mk.injEq] at h
        obtain ⟨es, hl, hes, hpre, rfl, rfl⟩ := ih hr
        obtain ⟨het, hep⟩ := matchEntry_eq_some hm
        refine ⟨e :: es, by simp [hl], ?_, ?_, by simp [← h.1], by simp [← h.2]⟩
        · intro e' he'
          rcases List.mem_cons.1 he' with rfl | he'
          · exact het
          · exact hes e' he'
        · obtain ⟨r, rfl⟩ := hep
          rw [List.drop_left] at hpre
          simpa using hpre

/-- A parse fails at the first cell at which no code of the table begins the remaining stream (R181, R222). -/
theorem unpackCells_error {t : CodeTable} {k i : Nat} {bs : List Bool} {err : CmdError}
    (h : unpackCells t k i bs = .error err) :
    ∃ (es : List Entry) (rest : List Bool), es.length < k ∧ (∀ e ∈ es, e ∈ t) ∧ bs = es.flatMap Entry.code ++ rest ∧
      (∀ e ∈ t, ¬ e.code <+: rest) ∧ err = ⟨.malformedStream, i + es.length⟩ := by
  induction k generalizing i bs err with
  | zero => simp [unpackCells] at h
  | succ k ih =>
    simp only [unpackCells] at h
    cases hm : matchEntry t bs with
    | none =>
      simp only [hm, Except.error.injEq] at h
      exact ⟨[], bs, by simp, by simp, by simp, matchEntry_eq_none.1 hm, by simp [← h]⟩
    | some e =>
      simp only [hm] at h
      cases hr : unpackCells t k (i + 1) (bs.drop e.code.length) with
      | ok p => simp [hr] at h
      | error err' =>
        simp only [hr, Except.error.injEq] at h
        obtain ⟨es, rest, hl, hes, hbs, hno, rfl⟩ := ih hr
        obtain ⟨het, r, rfl⟩ := matchEntry_eq_some hm
        rw [List.drop_left] at hbs
        refine ⟨e :: es, rest, by simp; omega, ?_, by simp [hbs], hno, ?_⟩
        · intro e' he'
          rcases List.mem_cons.1 he' with rfl | he'
          · exact het
          · exact hes e' he'
        · rw [← h]; simp [Nat.add_assoc, Nat.add_comm 1 es.length]

/-- A parse stops at the first cell at which no code of the table begins the remaining stream (R181). -/
theorem unpackCells_fails {t : CodeTable} (h : t.wf = true) {es : List Entry} (hes : ∀ e ∈ es, e ∈ t) {rest : List Bool}
    (hno : ∀ e ∈ t, ¬ e.code <+: rest) {k : Nat} (i : Nat) (hk : es.length < k) :
    unpackCells t k i (es.flatMap Entry.code ++ rest) = .error ⟨.malformedStream, i + es.length⟩ := by
  induction es generalizing k i with
  | nil =>
    obtain ⟨k, rfl⟩ : ∃ j, k = j + 1 := ⟨k - 1, by simp at hk; omega⟩
    simp only [List.flatMap_nil, List.nil_append, unpackCells, matchEntry_eq_none.2 hno]
    rfl
  | cons e es ih =>
    obtain ⟨k, rfl⟩ : ∃ j, k = j + 1 := ⟨k - 1, by simp at hk; omega⟩
    have hm : matchEntry t ((e :: es).flatMap Entry.code ++ rest) = some e :=
      matchEntry_of_isPrefix h (hes e List.mem_cons_self) (by simp [List.append_assoc])
    have hd : ((e :: es).flatMap Entry.code ++ rest).drop e.code.length = es.flatMap Entry.code ++ rest := by
      simp [List.append_assoc]
    simp only [unpackCells, hm]
    rw [hd, ih (fun e' he' => hes e' (List.mem_cons_of_mem _ he')) (i + 1) (by simpa using hk)]
    simp [Nat.add_assoc, Nat.add_comm 1]

/-- Two sequences of table codes of one length at the front of one stream are the same sequence (R161). -/
theorem codes_unique {t : CodeTable} (h : t.wf = true) {es es' : List Entry} {rest rest' : List Bool}
    (hl : es.length = es'.length) (hes : ∀ e ∈ es, e ∈ t) (hes' : ∀ e ∈ es', e ∈ t)
    (heq : es.flatMap Entry.code ++ rest = es'.flatMap Entry.code ++ rest') : es' = es := by
  induction es generalizing es' with
  | nil => exact List.eq_nil_of_length_eq_zero hl.symm
  | cons e es ih =>
    cases es' with
    | nil => simp at hl
    | cons e' es' =>
      have h1 : matchEntry t ((e :: es).flatMap Entry.code ++ rest) = some e :=
        matchEntry_of_isPrefix h (hes e List.mem_cons_self) (by simp [List.append_assoc])
      have h2 : matchEntry t ((e' :: es').flatMap Entry.code ++ rest') = some e' :=
        matchEntry_of_isPrefix h (hes' e' List.mem_cons_self) (by simp [List.append_assoc])
      rw [heq, h2] at h1
      cases h1
      rw [ih (by simpa using hl) (fun x hx => hes x (List.mem_cons_of_mem _ hx))
        (fun x hx => hes' x (List.mem_cons_of_mem _ hx)) (by simpa [List.append_assoc] using heq)]

end Sys2Proof.Machine
end

