-- ==== Sys2Proof/Laws/Stream.lean ====
section
/-! SUPPORT. The grids and the stream after each kind of write (R40 to R44, R66, R180). -/

namespace Sys2Proof.Machine

/-! ### Reading the stream -/

theorem getElem?_flatMap_range {α : Type} (f : Nat → List α) (hf : ∀ j, (f j).length = 32) (m k : Nat) :
    ((List.range m).flatMap f)[k]? = if k < 32 * m then (f (k / 32))[k % 32]? else none := by
  induction m with
  | zero => simp
  | succ m ih =>
    have hlen : ((List.range m).flatMap f).length = 32 * m := by
      simp [List.length_flatMap, hf, Nat.mul_comm]
    rw [List.range_succ, List.flatMap_append, List.getElem?_append, hlen, List.flatMap_singleton]
    split_ifs with h1 h2 h2
    · rw [ih, if_pos h1]
    · omega
    · rw [show k / 32 = m by omega, show k % 32 = k - 32 * m by omega]
    · exact List.getElem?_eq_none (by rw [hf]; omega)

theorem length_wordBits (w : Word) : (wordBits w).length = 32 := by simp [wordBits]

@[simp] theorem State.length_streamBits (s : State) (len : Nat) : (s.streamBits len).length = len := by
  simp only [State.streamBits, List.length_take, List.length_flatMap, length_wordBits, List.map_const', List.sum_replicate,
    List.length_range, smul_eq_mul, wordsFor]
  omega

/-- The k-th bit of the stream is BIT(k) (R44, R66). -/
theorem State.getElem?_streamBits (s : State) (len k : Nat) :
    (s.streamBits len)[k]? = if k < len then some (s.bit k) else none := by
  simp only [State.streamBits, List.getElem?_take]
  split_ifs with h
  · rw [getElem?_flatMap_range _ (fun _ => length_wordBits _), if_pos (by simp only [wordsFor]; omega)]
    simp only [wordBits, State.bit, List.getElem?_map]
    rw [List.getElem?_range (by omega)]
    rfl
  · rfl

theorem State.streamBits_eq_map (s : State) (len : Nat) : s.streamBits len = (List.range len).map s.bit := by
  apply List.ext_getElem?
  intro k
  rw [State.getElem?_streamBits]
  split_ifs with h
  · simp [h]
  · rw [List.getElem?_eq_none (by simp; omega)]

/-- A bit string begins the stream after `pos` bits exactly when it fits and its bits are the stream's (R154). -/
theorem State.isPrefix_drop_streamBits (s : State) (len pos : Nat) (bs : List Bool) :
    bs <+: (s.streamBits len).drop pos ↔
      (bs = [] ∨ pos + bs.length ≤ len) ∧ ∀ j (hj : j < bs.length), s.bit (pos + j) = bs[j] := by
  rw [List.prefix_iff_eq_take]
  constructor
  · intro h
    have hl := congrArg List.length h
    simp only [List.length_take, List.length_drop, State.length_streamBits] at hl
    refine ⟨?_, ?_⟩
    · rcases Nat.eq_zero_or_pos bs.length with h0 | h0
      · exact .inl (List.eq_nil_of_length_eq_zero h0)
      · exact .inr (by omega)
    · intro j hj
      have h2 := congrArg (·[j]?) h
      simp only [List.getElem?_take, if_pos hj, List.getElem?_drop, State.getElem?_streamBits,
        List.getElem?_eq_getElem hj] at h2
      split_ifs at h2 with h3
      exact (Option.some.inj h2).symm
  · rintro ⟨h | h, hall⟩
    · simp [h]
    · apply List.ext_getElem?
      intro j
      simp only [List.getElem?_take, List.getElem?_drop, State.getElem?_streamBits]
      split_ifs with h1 h2
      · rw [List.getElem?_eq_getElem h1, hall j h1]
      · omega
      · exact List.getElem?_eq_none (by omega)

/-! ### Writing the stream -/

theorem getLsbD_mergeWord (old : Word) (bs : List Bool) {p : Nat} (hp : p < 32) :
    (mergeWord old bs).getLsbD (31 - p) = bs.getD p (old.getLsbD (31 - p)) := by
  have h31 : 31 - p < 32 := by omega
  simp only [mergeWord, BitVec.getLsbD_ofNat, h31, decide_true, Bool.true_and, testBit_bitsVal, List.length_map,
    List.length_range, if_true]
  rw [show 32 - 1 - (31 - p) = p by omega]
  simp [List.getD_eq_getElem?_getD, List.getElem?_range hp]

theorem State.wordAt_writeStream_bitbuf (s : State) (bs : List Bool) (j : Nat) :
    (s.writeStream bs).wordAt (bitbufBase + 4 * j) =
      if j < wordsFor bs.length then mergeWord (s.wordAt (bitbufBase + 4 * j)) (bs.drop (32 * j))
      else s.wordAt (bitbufBase + 4 * j) := by
  split_ifs with h
  · rw [State.wordAt_writeWords_mem (s := s) (State.writeStream_mem s bs) rfl (by simpa using h)]
    simp [List.getD_eq_getElem?_getD, List.getElem?_range h]
  · exact State.wordAt_writeWords_out (s := s) (State.writeStream_mem s bs) rfl (by simp; omega)

/-- The stream's bits are written and every other bit of BITBUF is kept (R180). -/
theorem State.bit_writeStream (s : State) (bs : List Bool) (k : Nat) :
    (s.writeStream bs).bit k = if k < bs.length then bs.getD k false else s.bit k := by
  have hk : k % 32 < 32 := Nat.mod_lt _ (by omega)
  simp only [State.bit, State.wordAt_writeStream_bitbuf]
  by_cases hw : k / 32 < wordsFor bs.length
  · rw [if_pos hw, getLsbD_mergeWord _ _ hk]
    simp only [List.getD_eq_getElem?_getD, List.getElem?_drop]
    rw [show 32 * (k / 32) + k % 32 = k by omega]
    split_ifs with h
    · rw [List.getElem?_eq_getElem h]; rfl
    · rw [List.getElem?_eq_none (by omega)]; rfl
  · rw [if_neg hw, if_neg (by simp only [wordsFor] at hw; omega)]

/-- Reading back a written stream. -/
theorem State.streamBits_writeStream (s : State) (bs : List Bool) : (s.writeStream bs).streamBits bs.length = bs := by
  apply List.ext_getElem?
  intro k
  rw [State.getElem?_streamBits, State.bit_writeStream]
  split_ifs with h
  · simp [List.getD_eq_getElem?_getD, h]
  · rw [List.getElem?_eq_none (by omega)]

/-! ### Grids -/

@[simp] theorem State.length_rasterCells (s : State) : s.rasterCells.length = s.build.cells := by simp [State.rasterCells]
@[simp] theorem State.length_residCells (s : State) : s.residCells.length = s.build.cells := by simp [State.residCells]
@[simp] theorem State.length_codeCells (s : State) : s.codeCells.length = s.build.cells := by simp [State.codeCells]
@[simp] theorem State.length_reconCells (s : State) : s.reconCells.length = s.build.cells := by simp [State.reconCells]

theorem State.rasterCells_range (s : State) : ∀ x ∈ s.rasterCells, 0 ≤ x ∧ x ≤ 255 := by
  intro x hx
  simp only [State.rasterCells, List.mem_map] at hx
  obtain ⟨i, -, rfl⟩ := hx
  have := (s.byteAt (rasterBase + 4 * i)).isLt
  omega

/-- Two states with the same bytes in a grid's words have the same grid. -/
theorem State.residCells_congr {s t : State} (hb : t.build = s.build)
    (h : ∀ i, i < s.build.cells → t.wordAt (residBase + 4 * i) = s.wordAt (residBase + 4 * i)) :
    t.residCells = s.residCells := by
  simp only [State.residCells, hb]
  apply List.map_congr_left
  intro i hi
  rw [h i (List.mem_range.1 hi)]

theorem State.codeCells_congr {s t : State} (hb : t.build = s.build)
    (h : ∀ i, i < s.build.cells → t.wordAt (codegridBase + 4 * i) = s.wordAt (codegridBase + 4 * i)) :
    t.codeCells = s.codeCells := by
  simp only [State.codeCells, hb]
  apply List.map_congr_left
  intro i hi
  rw [h i (List.mem_range.1 hi)]

theorem State.rasterCells_congr {s t : State} (hb : t.build = s.build)
    (h : ∀ i, i < s.build.cells → t.byteAt (rasterBase + 4 * i) = s.byteAt (rasterBase + 4 * i)) :
    t.rasterCells = s.rasterCells := by
  simp only [State.rasterCells, hb]
  apply List.map_congr_left
  intro i hi
  rw [h i (List.mem_range.1 hi)]

/-- RESID reads back a full grid of values that fit 32 bits (R41). -/
theorem State.residCells_writeResid (s : State) {es : List Int} (hl : es.length = s.build.cells)
    (hr : ∀ e ∈ es, -2 ^ 31 ≤ e ∧ e < 2 ^ 31) : (s.writeResid es).residCells = es := by
  apply List.ext_getElem
  · simp [hl]
  · intro i h1 h2
    simp only [State.residCells, List.getElem_map, List.getElem_range]
    rw [State.wordAt_writeWords_mem (s := s) (State.writeResid_mem s es) rfl (by simpa using h2)]
    simp only [List.getD_eq_getElem?_getD, List.getElem?_map, List.getElem?_eq_getElem h2, Option.map_some, Option.getD_some]
    have hb := hr es[i] (List.getElem_mem h2)
    rw [BitVec.toInt_ofInt, Int.bmod_eq_of_le] <;> simp <;> omega

/-- CODEGRID reads back a full grid of words (R42). -/
theorem State.codeCells_writeCodes (s : State) {ws : List Word} (hl : ws.length = s.build.cells) :
    (s.writeCodes ws).codeCells = ws := by
  apply List.ext_getElem
  · simp [hl]
  · intro i h1 h2
    simp only [State.codeCells, List.getElem_map, List.getElem_range]
    rw [State.wordAt_writeWords_mem (s := s) (State.writeCodes_mem s ws) rfl h2]
    simp [List.getD_eq_getElem?_getD, h2]

/-- RECON reads back a full grid of samples (R43). -/
theorem State.reconCells_writeRecon (s : State) {xs : List Int} (hl : xs.length = s.build.cells)
    (hr : ∀ x ∈ xs, 0 ≤ x ∧ x ≤ 255) : (s.writeRecon xs).reconCells = xs := by
  apply List.ext_getElem
  · simp [hl]
  · intro i h1 h2
    simp only [State.reconCells, List.getElem_map, List.getElem_range]
    rw [State.byteAt_writeSamples (s := s) (State.writeRecon_mem s xs) rfl, if_pos (by simp; omega)]
    rw [show (reconBase + 4 * i - reconBase) / 4 = i by omega]
    simp only [List.getD_eq_getElem?_getD, List.getElem?_map, List.getElem?_eq_getElem h2, Option.map_some, Option.getD_some]
    have hb := hr xs[i] (List.getElem_mem h2)
    rw [BitVec.toNat_ofInt]
    omega

end Sys2Proof.Machine
end

