-- ==== Sys2Proof/Laws/Ops.lean ====
section
/-! SUPPORT. What a command can do: what its rule writes when it raises no error, and what completion adds. -/

namespace Sys2Proof.Machine

/-! ### Locations by their bytes -/

/-- Two mapped locations share no byte. -/
theorem Loc.bytes_apart {b : Build} {l l' : Loc} (h : l.mapped b = true) (h' : l'.mapped b = true) (hne : l ≠ l') {a : Nat}
    (ha : a ∈ l.bytes) : a ∉ l'.bytes := by
  intro ha'
  have := Loc.bytes_offset ha
  have := Loc.bytes_offset ha'
  have := Loc.offset_apart h h' hne
  omega

/-- `t` has every register of `s` that no location outside `outs` reads differently, and the same reset input, inputs,
configuration and counters; its storage is that of `s` outside the bytes of `outs`, and is as canonical. -/
structure State.Writes (s : State) (outs : List Loc) (t : State) : Prop where
  locs : ∀ l, l.mapped s.build = true → l ∉ outs → t.readLoc l = s.readLoc l
  bytes : ∀ a, (∀ l ∈ outs, a ∉ l.bytes) → t.byteAt a = s.byteAt a
  wf : s.mem.wf → t.mem.wf
  stored : (∀ c ∈ s.mem, storageByte s.build c.1) → ∀ c ∈ t.mem, storageByte s.build c.1
  build : t.build = s.build
  cmd : t.cmd = s.cmd
  status : t.status = s.status
  errIndex : t.errIndex = s.errIndex
  inFlight : t.inFlight = s.inFlight
  tainted : t.tainted = s.tainted
  inReset : t.inReset = s.inReset
  agenda : t.agenda = s.agenda
  lastRead : t.lastRead = s.lastRead
  hostFault : t.hostFault = s.hostFault
  draws : t.draws = s.draws
  resetDraw : t.resetDraw = s.resetDraw

theorem State.Writes.refl (s : State) (outs : List Loc) : s.Writes outs s := by
  constructor <;> first | rfl | exact fun h => h | (intros; rfl)

theorem State.Writes.mono {s t : State} {outs outs' : List Loc} (h : s.Writes outs t) (hs : ∀ l ∈ outs, l ∈ outs') :
    s.Writes outs' t :=
  { h with
    locs := fun l hl hn => h.locs l hl fun hm => hn (hs l hm)
    bytes := fun a ha => h.bytes a fun l hl => ha l (hs l hl) }

theorem State.Writes.trans {s t u : State} {o o' : List Loc} (h : s.Writes o t) (h' : t.Writes o' u) :
    s.Writes (o ++ o') u where
  locs l hl hn := by
    simp only [List.mem_append, not_or] at hn
    rw [h'.locs l (by rw [h.build]; exact hl) hn.2, h.locs l hl hn.1]
  bytes a ha := by
    rw [h'.bytes a (fun l hl => ha l (List.mem_append_right _ hl)), h.bytes a (fun l hl => ha l (List.mem_append_left _ hl))]
  wf hw := h'.wf (h.wf hw)
  stored hs := by have := h'.stored; rw [h.build] at this; exact this (h.stored hs)
  build := h'.build.trans h.build
  cmd := h'.cmd.trans h.cmd
  status := h'.status.trans h.status
  errIndex := h'.errIndex.trans h.errIndex
  inFlight := h'.inFlight.trans h.inFlight
  tainted := h'.tainted.trans h.tainted
  inReset := h'.inReset.trans h.inReset
  agenda := h'.agenda.trans h.agenda
  lastRead := h'.lastRead.trans h.lastRead
  hostFault := h'.hostFault.trans h.hostFault
  draws := h'.draws.trans h.draws
  resetDraw := h'.resetDraw.trans h.resetDraw

/-- A change of storage alone, within the bytes of some mapped locations. -/
theorem State.Writes.ofMem {s : State} {m : Memory} {outs : List Loc} (hm : ∀ l ∈ outs, l.mapped s.build = true)
    (hb : ∀ a, (∀ l ∈ outs, a ∉ l.bytes) → State.byteAt { s with mem := m } a = s.byteAt a)
    (hw : s.mem.wf → m.wf) (hs : ∀ c ∈ m, (∃ l ∈ outs, c.1 ∈ l.bytes) ∨ c ∈ s.mem) :
    s.Writes outs { s with mem := m } where
  locs l hl hn := by
    have hbyte : ∀ a ∈ l.bytes, State.byteAt { s with mem := m } a = s.byteAt a := fun a ha =>
      hb a fun l' hl' => Loc.bytes_apart hl (hm l' hl') (fun he => hn (he ▸ hl')) ha
    cases l with
    | raster i | recon i => exact congrArg (BitVec.setWidth 32) (hbyte _ (by simp [Loc.bytes, Loc.offset]))
    | resid i | codegrid i | bitbuf i =>
      refine State.wordAt_congr fun a h1 h2 => hbyte a ?_
      simp only [Loc.bytes, Loc.offset, List.mem_cons, List.not_mem_nil, or_false]
      omega
    | _ => rfl
  bytes := hb
  wf := hw
  stored h c hc := by
    rcases hs c hc with ⟨l, hl, ha⟩ | hc
    · exact ⟨l, hm l hl, ha⟩
    · exact h c hc
  build := rfl
  cmd := rfl
  status := rfl
  errIndex := rfl
  inFlight := rfl
  tainted := rfl
  inReset := rfl
  agenda := rfl
  lastRead := rfl
  hostFault := rfl
  draws := rfl
  resetDraw := rfl

theorem mem_gridLocs {b : Build} {mk : Nat → Loc} {l : Loc} : l ∈ gridLocs b mk ↔ ∃ i, i < b.cells ∧ mk i = l := by
  simp [gridLocs]

theorem mem_bitbufLocs {l : Loc} : l ∈ bitbufLocs ↔ ∃ j, j < bitbufWords ∧ .bitbuf j = l := by
  simp [bitbufLocs]

theorem State.writeResid_writes (s : State) {es : List Int} (h : es.length = s.build.cells) :
    s.Writes (gridLocs s.build .resid) (s.writeResid es) := by
  refine State.Writes.ofMem (outputs_mapped (.xformFwd .left) s.build) ?_ (fun hw => Memory.writeWords_wf hw _ _) ?_
  · intro a ha
    change (s.writeResid es).byteAt a = s.byteAt a
    rw [State.byteAt_writeWords (s := s) (t := s.writeResid es) (State.writeResid_mem s es) rfl, if_neg]
    rintro ⟨h1, h2⟩
    rw [List.length_map, h] at h2
    refine ha (.resid ((a - residBase) / 4)) (mem_gridLocs.2 ⟨_, by omega, rfl⟩) ?_
    simp only [Loc.bytes, Loc.offset, List.mem_cons, List.not_mem_nil, or_false]
    omega
  · intro c hc
    rcases Memory.mem_writeWords hc with ⟨h1, h2⟩ | hc
    · rw [List.length_map, h] at h2
      refine .inl ⟨.resid ((c.1 - residBase) / 4), mem_gridLocs.2 ⟨_, by omega, rfl⟩, ?_⟩
      simp only [Loc.bytes, Loc.offset, List.mem_cons, List.not_mem_nil, or_false]
      omega
    · exact .inr hc

theorem State.writeCodes_writes (s : State) {ws : List Word} (h : ws.length = s.build.cells) :
    s.Writes (gridLocs s.build .codegrid) (s.writeCodes ws) := by
  refine State.Writes.ofMem (outputs_mapped .mapFwd s.build) ?_ (fun hw => Memory.writeWords_wf hw _ _) ?_
  · intro a ha
    change (s.writeCodes ws).byteAt a = s.byteAt a
    rw [State.byteAt_writeWords (s := s) (t := s.writeCodes ws) (State.writeCodes_mem s ws) rfl, if_neg]
    rintro ⟨h1, h2⟩
    rw [h] at h2
    refine ha (.codegrid ((a - codegridBase) / 4)) (mem_gridLocs.2 ⟨_, by omega, rfl⟩) ?_
    simp only [Loc.bytes, Loc.offset, List.mem_cons, List.not_mem_nil, or_false]
    omega
  · intro c hc
    rcases Memory.mem_writeWords hc with ⟨h1, h2⟩ | hc
    · rw [h] at h2
      refine .inl ⟨.codegrid ((c.1 - codegridBase) / 4), mem_gridLocs.2 ⟨_, by omega, rfl⟩, ?_⟩
      simp only [Loc.bytes, Loc.offset, List.mem_cons, List.not_mem_nil, or_false]
      omega
    · exact .inr hc

theorem State.writeRecon_writes (s : State) {xs : List Int} (h : xs.length = s.build.cells) :
    s.Writes (gridLocs s.build .recon) (s.writeRecon xs) := by
  refine State.Writes.ofMem (outputs_mapped (.xformInv .left) s.build) ?_ (fun hw => Memory.writeSamples_wf hw _ _) ?_
  · intro a ha
    change (s.writeRecon xs).byteAt a = s.byteAt a
    rw [State.byteAt_writeSamples (s := s) (t := s.writeRecon xs) (State.writeRecon_mem s xs) rfl, if_neg]
    rintro ⟨h1, h2, h3⟩
    rw [List.length_map, h] at h2
    refine ha (.recon ((a - reconBase) / 4)) (mem_gridLocs.2 ⟨_, by omega, rfl⟩) ?_
    simp only [Loc.bytes, Loc.offset, List.mem_singleton]
    omega
  · intro c hc
    rcases Memory.mem_writeSamples hc with ⟨i, h1, h2⟩ | hc
    · rw [List.length_map, h] at h1
      exact .inl ⟨.recon i, mem_gridLocs.2 ⟨i, h1, rfl⟩, by simp [Loc.bytes, Loc.offset, h2]⟩
    · exact .inr hc

theorem State.writeStream_writes (s : State) {bs : List Bool} (h : bs.length ≤ Config.maxBits) :
    s.Writes bitbufLocs (s.writeStream bs) := by
  simp only [Config.maxBits] at h
  have hw : wordsFor bs.length ≤ 1024 := by simp only [wordsFor]; omega
  refine State.Writes.ofMem (fun l hl => outputs_mapped .pack s.build l (List.mem_cons_of_mem _ hl)) ?_
    (fun hw => Memory.writeWords_wf hw _ _) ?_
  · intro a ha
    change (s.writeStream bs).byteAt a = s.byteAt a
    rw [State.byteAt_writeWords (s := s) (t := s.writeStream bs) (State.writeStream_mem s bs) rfl, if_neg]
    rintro ⟨h1, h2⟩
    rw [List.length_map, List.length_range] at h2
    refine ha (.bitbuf ((a - bitbufBase) / 4)) (mem_bitbufLocs.2 ⟨_, by simp only [bitbufWords]; omega, rfl⟩) ?_
    simp only [Loc.bytes, Loc.offset, List.mem_cons, List.not_mem_nil, or_false]
    omega
  · intro c hc
    rcases Memory.mem_writeWords hc with ⟨h1, h2⟩ | hc
    · rw [List.length_map, List.length_range] at h2
      refine .inl ⟨.bitbuf ((c.1 - bitbufBase) / 4), mem_bitbufLocs.2 ⟨_, by simp only [bitbufWords]; omega, rfl⟩, ?_⟩
      simp only [Loc.bytes, Loc.offset, List.mem_cons, List.not_mem_nil, or_false]
      omega
    · exact .inr hc

/-! ### What each command's rule writes -/

/-- What the rule of a command gives from a state: the written state, or the error it raises. -/
def stage (i : Instr) (s : State) : Except CmdError State :=
  match i with
  | .nop => .ok s
  | .predict f => .ok (predictStage f s)
  | .xformFwd f => .ok (xformFwdStage f s)
  | .xformInv f => xformInvStage f s
  | .symEnc => symEncStage s
  | .symDec => symDecStage s
  | .mapFwd => mapFwdStage s
  | .mapInv => mapInvStage s
  | .pack => packStage s
  | .unpack => unpackStage s
  | .encode f => encodeStage f s
  | .decode f => decodeStage f s

theorem exec_eq_finish (i : Instr) (s : State) : exec i s = finish i s (stage i s) := by cases i <;> rfl

theorem exec_of_ok {i : Instr} {s t : State} (h : stage i s = .ok t) : exec i s = .next t.completeOk := by
  rw [exec_eq_finish, h]; rfl

theorem exec_of_error {i : Instr} {s : State} {e : CmdError} (h : stage i s = .error e) :
    exec i s = .next (s.completeError e (outputs i s.build)) := by
  rw [exec_eq_finish, h]; rfl

/-- Everything a command can do: complete with what its rule writes, or with the error its rule raises. -/
theorem exec_cases {i : Instr} {s u : State} (h : exec i s = .next u) :
    (∃ t, stage i s = .ok t ∧ u = t.completeOk) ∨
      ∃ e, stage i s = .error e ∧ u = s.completeError e (outputs i s.build) := by
  cases hs : stage i s with
  | ok t => rw [exec_of_ok hs] at h; cases h; exact .inl ⟨t, rfl, rfl⟩
  | error e => rw [exec_of_error hs] at h; cases h; exact .inr ⟨e, rfl, rfl⟩

@[simp] theorem length_residuals (n : Nat) (f : Selector) (xs : List Int) : (residuals n f xs).length = n * n := by
  simp [residuals]

theorem xformFwdStage_writes (f : Selector) (s : State) : s.Writes (gridLocs s.build .resid) (xformFwdStage f s) :=
  s.writeResid_writes (by simp [Params.cells])

theorem xformInvStage_ok {f : Selector} {s t : State} (h : xformInvStage f s = .ok t) :
    ∃ xs, reconstruct s.build.side f s.residCells = .ok xs ∧ xs.length = s.build.cells ∧ t = s.writeRecon xs := by
  simp only [xformInvStage] at h
  split at h
  · cases h
  · rename_i xs hx
    cases h
    refine ⟨xs, hx, ?_, rfl⟩
    have := (reconstructFrom_ok_iff (by have := s.build.side_bounds; omega) f [] s.residCells xs).1 hx
    simpa using this.1

theorem mapFwdStage_ok {s t : State} (h : mapFwdStage s = .ok t) :
    ∃ ws, mapCells (mapFwdCell s.build.table) 0 s.residCells = .ok ws ∧ ws.length = s.build.cells ∧ t = s.writeCodes ws := by
  simp only [mapFwdStage] at h
  split at h
  · cases h
  · rename_i ws hw
    cases h
    exact ⟨ws, hw, by simpa using ((mapCells_ok_iff _ _ _ _).1 hw).1, rfl⟩

theorem mapInvStage_ok {s t : State} (h : mapInvStage s = .ok t) :
    ∃ vs, mapCells (mapInvCell s.build.table) 0 s.codeCells = .ok vs ∧ vs.length = s.build.cells ∧ t = s.writeResid vs := by
  simp only [mapInvStage] at h
  split at h
  · cases h
  · rename_i vs hv
    cases h
    exact ⟨vs, hv, by simpa using ((mapCells_ok_iff _ _ _ _).1 hv).1, rfl⟩

theorem packStage_ok {s t : State} (h : packStage s = .ok t) :
    ∃ bs, packGrid s.codeCells = .ok bs ∧ t = { s.writeStream bs with bitLen := BitVec.ofNat 16 bs.length } := by
  simp only [packStage] at h
  split at h
  · cases h
  · rename_i bs hb
    cases h
    exact ⟨bs, hb, rfl⟩

/-- The stream of a code grid, cell by cell (R89, R180). -/
theorem packGrid_ok_iff {ws : List Word} {bs : List Bool} :
    packGrid ws = .ok bs ↔ (∀ w ∈ ws, codeLen w ≤ 24) ∧ bs = ws.flatMap codeBits := by
  have hcell : ∀ k w b, packCell k w = .ok b ↔ codeLen w ≤ 24 ∧ b = codeBits w := by
    intro k w b
    simp only [packCell]
    split_ifs with h <;> simp only [Config.maxCodeLength] at h
    · simp only [false_iff, not_and]; omega
    · simp only [Except.ok.injEq, eq_comm, iff_and_self]; omega
  simp only [packGrid]
  constructor
  · intro h
    split at h
    · cases h
    · rename_i bss hb
      cases h
      obtain ⟨hl, hall⟩ := (mapCells_ok_iff _ _ _ _).1 hb
      have hbss : bss = ws.map codeBits := by
        apply List.ext_getElem (by simp [hl])
        intro k h1 h2
        rw [List.getElem_map]
        exact ((hcell _ _ _).1 (hall k (by omega) h1)).2
      refine ⟨?_, by rw [hbss, List.flatMap_def]⟩
      intro w hw
      obtain ⟨k, hk, rfl⟩ := List.getElem_of_mem hw
      exact ((hcell _ _ _).1 (hall k hk (by omega))).1
  · rintro ⟨hle, rfl⟩
    have : mapCells packCell 0 ws = .ok (ws.map codeBits) := by
      refine (mapCells_ok_iff _ _ _ _).2 ⟨by simp, ?_⟩
      intro k hk hk'
      exact (hcell _ _ _).2 ⟨hle _ (List.getElem_mem hk), by simp⟩
    rw [this, List.flatMap_def]

theorem length_packed_le {ws : List Word} (hle : ∀ w ∈ ws, codeLen w ≤ 24) : (ws.flatMap codeBits).length ≤ 24 * ws.length := by
  induction ws with
  | nil => simp
  | cons w ws ih =>
    have h1 := hle w List.mem_cons_self
    have h2 := ih fun w' hw' => hle w' (List.mem_cons_of_mem _ hw')
    simp only [List.flatMap_cons, List.length_append, length_codeBits, List.length_cons]
    omega

/-- No packed stream exceeds BITBUF (R7). -/
theorem packed_fits {s : State} {bs : List Bool} (h : packGrid s.codeCells = .ok bs) : bs.length ≤ 24576 := by
  obtain ⟨hle, rfl⟩ := packGrid_ok_iff.1 h
  have h1 := length_packed_le hle
  have := s.build.cells_le
  rw [State.length_codeCells] at h1
  omega

theorem unpackGrid_ok {t : CodeTable} {cells : Nat} (hc : 1 ≤ cells) {bs : List Bool} {ws : List Word} {n : Nat}
    (h : unpackGrid t cells bs = .ok (ws, n)) :
    ∃ es : List Entry, es.length + 1 = cells ∧ (∀ e ∈ es, e ∈ t) ∧ 8 ≤ bs.length ∧
      bs.take 8 ++ es.flatMap Entry.code <+: bs ∧ ws = codeWord (bs.take 8) :: es.map (fun e => codeWord e.code) ∧
      n = 8 + (es.flatMap Entry.code).length := by
  simp only [unpackGrid] at h
  split_ifs at h with h8
  split at h
  · cases h
  · rename_i ws' n' hu
    simp only [Except.ok.injEq, Prod.mk.injEq] at h
    obtain ⟨es, hl, hes, hp, rfl, rfl⟩ := unpackCells_ok hu
    refine ⟨es, by omega, hes, by omega, ?_, h.1.symm, h.2.symm⟩
    conv => rhs; rw [← List.take_append_drop 8 bs]
    exact (List.prefix_append_right_inj _).2 hp

theorem unpackStage_ok {s t : State} (h : unpackStage s = .ok t) :
    s.bitLen.toNat ≤ 32768 ∧ ∃ ws n, unpackGrid s.build.table s.build.cells (s.streamBits s.bitLen.toNat) = .ok (ws, n) ∧
      ws.length = s.build.cells ∧ t = { s.writeCodes ws with bitPos := BitVec.ofNat 16 n } := by
  simp only [unpackStage] at h
  split_ifs at h with h1
  simp only [Config.maxBits] at h1
  refine ⟨by omega, ?_⟩
  split at h
  · cases h
  · rename_i ws n hu
    cases h
    refine ⟨ws, n, hu, ?_, rfl⟩
    obtain ⟨es, hl, -, -, -, rfl, -⟩ := unpackGrid_ok s.build.one_le_cells hu
    simp [hl]

theorem packStage_writes {s t : State} (h : packStage s = .ok t) : s.Writes (outputs .pack s.build) t := by
  obtain ⟨bs, hb, rfl⟩ := packStage_ok h
  have hw := (s.writeStream_writes (bs := bs) (by have := packed_fits hb; simp only [Config.maxBits]; omega)).mono
    (outs' := outputs .pack s.build) fun l hl => List.mem_cons_of_mem _ hl
  refine { hw with locs := ?_, bytes := hw.bytes }
  intro l hl hn
  rw [← hw.locs l hl hn]
  cases l <;> first | rfl | simp [outputs] at hn

theorem unpackStage_writes {s t : State} (h : unpackStage s = .ok t) : s.Writes (outputs .unpack s.build) t := by
  obtain ⟨-, ws, n, -, hl, rfl⟩ := unpackStage_ok h
  have hw := (s.writeCodes_writes hl).mono (outs' := outputs .unpack s.build) fun l hl => List.mem_cons_of_mem _ hl
  refine { hw with locs := ?_, bytes := hw.bytes }
  intro l hl hn
  rw [← hw.locs l hl hn]
  cases l <;> first | rfl | simp [outputs] at hn

theorem encodeStage_ok {f : Selector} {s t : State} (h : encodeStage f s = .ok t) :
    ∃ u, mapFwdStage (xformFwdStage f s) = .ok u ∧ packStage u = .ok t := by
  simp only [encodeStage] at h
  split at h
  · cases h
  · rename_i u hu
    exact ⟨u, hu, h⟩

theorem decodeStage_ok {f : Selector} {s t : State} (h : decodeStage f s = .ok t) :
    ∃ u v, unpackStage s = .ok u ∧ mapInvStage u = .ok v ∧ xformInvStage f v = .ok t := by
  simp only [decodeStage] at h
  split at h
  · cases h
  · rename_i u hu
    split at h
    · cases h
    · rename_i v hv
      exact ⟨u, v, hu, hv, h⟩

/-- What a command writes when its rule raises no error lies in its output set (R84). -/
theorem stage_writes {i : Instr} {s t : State} (h : stage i s = .ok t) : s.Writes (outputs i s.build) t := by
  cases i with
  | nop => cases h; exact .refl _ _
  | predict f =>
    cases h
    constructor <;> first | rfl | exact fun h => h | skip
    · intro l _ hn
      cases l <;> first | rfl | simp [outputs] at hn
    · intros; rfl
  | xformFwd f => cases h; exact xformFwdStage_writes f s
  | xformInv f =>
    obtain ⟨xs, -, hl, rfl⟩ := xformInvStage_ok h
    exact s.writeRecon_writes hl
  | symEnc =>
    simp only [stage, symEncStage] at h
    split at h
    · cases h
    · cases h
      constructor <;> first | rfl | exact fun h => h | skip
      · intro l _ hn
        cases l <;> first | rfl | simp [outputs] at hn
      · intros; rfl
  | symDec =>
    simp only [stage, symDecStage] at h
    split_ifs at h
    split at h
    · cases h
    · cases h
      constructor <;> first | rfl | exact fun h => h | skip
      · intro l _ hn
        cases l <;> first | rfl | simp [outputs] at hn
      · intros; rfl
  | mapFwd =>
    obtain ⟨ws, -, hl, rfl⟩ := mapFwdStage_ok h
    exact s.writeCodes_writes hl
  | mapInv =>
    obtain ⟨vs, -, hl, rfl⟩ := mapInvStage_ok h
    exact s.writeResid_writes hl
  | pack => exact packStage_writes h
  | unpack => exact unpackStage_writes h
  | encode f =>
    obtain ⟨u, hu, hp⟩ := encodeStage_ok h
    obtain ⟨ws, -, hl, rfl⟩ := mapFwdStage_ok hu
    refine (((xformFwdStage_writes f s).trans ((xformFwdStage f s).writeCodes_writes hl)).trans (packStage_writes hp)).mono ?_
    intro l hl
    have hb : (xformFwdStage f s).build = s.build := rfl
    simp only [outputs, List.mem_append, List.mem_cons, hb] at hl ⊢
    generalize bitbufLocs = bb at *
    tauto
  | decode f =>
    obtain ⟨u, v, hu, hv, hx⟩ := decodeStage_ok h
    have h1 := unpackStage_writes hu
    obtain ⟨vs, -, hlv, rfl⟩ := mapInvStage_ok hv
    obtain ⟨xs, -, hlx, rfl⟩ := xformInvStage_ok hx
    have h2 := u.writeResid_writes hlv
    have h3 := (u.writeResid vs).writeRecon_writes hlx
    refine ((h1.trans h2).trans h3).mono ?_
    intro l hl
    simp only [outputs, List.mem_append, List.mem_cons, State.writeResid_build, h1.build] at hl ⊢
    tauto

end Sys2Proof.Machine
end

