-- ==== Sys2Proof/Laws/Exec.lean ====
section
/-! SUPPORT. The frame of every command, and what a command does not depend on. -/

namespace Sys2Proof.Machine

theorem State.SameBut.mono {exc exc' : Loc → Prop} {s t : State} (h : s.SameBut exc t) (hm : ∀ l, exc l → exc' l) :
    s.SameBut exc' t :=
  { h with
    locs := fun l hl hn => h.locs l hl fun he => hn (hm l he)
    bytes := fun a ha => h.bytes a fun l hl he => ha l hl (hm l he) }

/-- Completion without an error adds only STATUS to what the rule writes. -/
theorem State.Writes.sameBut_completeOk {s t : State} {outs : List Loc} (h : s.Writes outs t)
    (hm : ∀ l ∈ outs, l.mapped s.build = true) : s.SameBut (fun l => l = .status ∨ l ∈ outs) t.completeOk where
  locs l hl hn := by
    simp only [not_or] at hn
    rw [← h.locs l hl hn.2]
    cases l <;> first | rfl | exact absurd rfl hn.1
  bytes a ha := h.bytes a fun l hl => ha l (hm l hl) (.inr hl)
  build := h.build
  agenda := h.agenda
  lastRead := h.lastRead
  inReset := h.inReset
  hostFault := h.hostFault
  resetDraw := h.resetDraw

/-- Error completion changes STATUS, ERR_INDEX and the output set (R225). -/
theorem State.sameBut_completeError (s : State) (e : CmdError) {outs : List Loc} (hm : ∀ l ∈ outs, l.mapped s.build = true) :
    s.SameBut (fun l => l = .status ∨ l = .errIndex ∨ l ∈ outs) (s.completeError e outs) where
  locs l hl hn := by
    simp only [not_or] at hn
    rw [← State.readLoc_scramble_out s hm hl hn.2.2]
    cases l <;> first | rfl | exact absurd rfl hn.1 | exact absurd rfl hn.2.1
  bytes a ha := State.byteAt_scramble_out s outs fun l hl => ha l (hm l hl) (.inr (.inr hl))
  build := State.completeError_build s e outs
  agenda := State.completeError_agenda s e outs
  lastRead := State.completeError_lastRead s e outs
  inReset := State.completeError_inReset s e outs
  hostFault := State.completeError_hostFault s e outs
  resetDraw := State.completeError_resetDraw s e outs

/-- The frame of every command (R84, R201, R225): STATUS, its output set, and ERR_INDEX with an error. -/
theorem exec_sameBut {i : Instr} {s t : State} (h : exec i s = .next t) :
    s.SameBut (fun l => l = .status ∨ l ∈ outputs i s.build ∨ l = .errIndex ∧ t.status.err = true) t := by
  rcases exec_cases h with ⟨u, hu, rfl⟩ | ⟨e, -, rfl⟩
  · exact ((stage_writes hu).sameBut_completeOk (outputs_mapped i s.build)).mono (by tauto)
  · refine (s.sameBut_completeError e (outputs_mapped i s.build)).mono ?_
    rintro l (h | h | h)
    · exact .inl h
    · exact .inr (.inr ⟨h, rfl⟩)
    · exact .inr (.inl h)

/-! ### The inputs -/

/-- The same machine with other inputs to come and another last read of the host. -/
def State.withInputs (s : State) (a : List Event) (l : Option Word) : State := { s with agenda := a, lastRead := l }

theorem State.storeLoc_withInputs (s : State) (a : List Event) (r : Option Word) (l : Loc) (w : Word) :
    (s.withInputs a r).storeLoc l w = (s.storeLoc l w).withInputs a r := by cases l <;> rfl

theorem State.scramble_withInputs (s : State) (a : List Event) (r : Option Word) (ls : List Loc) :
    (s.withInputs a r).scramble ls = (s.scramble ls).withInputs a r := by
  suffices hf : ∀ (v : Loc → Word) (t : State), ls.foldl (fun t l => t.storeLoc l (v l)) (t.withInputs a r) =
      (ls.foldl (fun t l => t.storeLoc l (v l)) t).withInputs a r by
    have := congrArg (fun t : State => ({ t with draws := s.draws + 1 } : State)) (hf (fun l => Config.freeWord s.draws l.offset) s)
    exact this
  intro v
  induction ls with
  | nil => intro t; rfl
  | cons l ls ih => intro t; rw [List.foldl_cons, List.foldl_cons, State.storeLoc_withInputs, ih]

theorem mapFwdStage_withInputs (s : State) (a : List Event) (r : Option Word) :
    mapFwdStage (s.withInputs a r) = (mapFwdStage s).map (fun t => t.withInputs a r) := by
  change (match mapCells (mapFwdCell s.build.table) 0 s.residCells with
    | .error e => .error e
    | .ok ws => .ok ((s.withInputs a r).writeCodes ws) : Except CmdError State) = _
  rw [mapFwdStage]
  cases mapCells (mapFwdCell s.build.table) 0 s.residCells <;> rfl

theorem mapInvStage_withInputs (s : State) (a : List Event) (r : Option Word) :
    mapInvStage (s.withInputs a r) = (mapInvStage s).map (fun t => t.withInputs a r) := by
  change (match mapCells (mapInvCell s.build.table) 0 s.codeCells with
    | .error e => .error e
    | .ok ws => .ok ((s.withInputs a r).writeResid ws) : Except CmdError State) = _
  rw [mapInvStage]
  cases mapCells (mapInvCell s.build.table) 0 s.codeCells <;> rfl

theorem xformInvStage_withInputs (f : Selector) (s : State) (a : List Event) (r : Option Word) :
    xformInvStage f (s.withInputs a r) = (xformInvStage f s).map (fun t => t.withInputs a r) := by
  change (match reconstruct s.build.side f s.residCells with
    | .error e => .error e
    | .ok xs => .ok ((s.withInputs a r).writeRecon xs) : Except CmdError State) = _
  rw [xformInvStage]
  cases reconstruct s.build.side f s.residCells <;> rfl

theorem packStage_withInputs (s : State) (a : List Event) (r : Option Word) :
    packStage (s.withInputs a r) = (packStage s).map (fun t => t.withInputs a r) := by
  change (match packGrid s.codeCells with
    | .error e => .error e
    | .ok bs => .ok { (s.withInputs a r).writeStream bs with bitLen := BitVec.ofNat 16 bs.length } : Except CmdError State) = _
  rw [packStage]
  cases packGrid s.codeCells <;> rfl

theorem unpackStage_withInputs (s : State) (a : List Event) (r : Option Word) :
    unpackStage (s.withInputs a r) = (unpackStage s).map (fun t => t.withInputs a r) := by
  change (if Config.maxBits < s.bitLen.toNat then .error ⟨.badOperand, 0⟩ else
    match unpackGrid s.build.table s.build.cells (s.streamBits s.bitLen.toNat) with
    | .error e => .error e
    | .ok (ws, n) => .ok { (s.withInputs a r).writeCodes ws with bitPos := BitVec.ofNat 16 n } : Except CmdError State) = _
  rw [unpackStage]
  split_ifs
  · rfl
  · cases unpackGrid s.build.table s.build.cells (s.streamBits s.bitLen.toNat) <;> rfl

theorem symEncStage_withInputs (s : State) (a : List Event) (r : Option Word) :
    symEncStage (s.withInputs a r) = (symEncStage s).map (fun t => t.withInputs a r) := by
  change (match encodeSymbol s.build.table s.symIn.toInt with
    | none => .error ⟨.unknownSymbol, 0⟩
    | some bs => .ok { s.withInputs a r with codeOut := codeWord bs } : Except CmdError State) = _
  rw [symEncStage]
  cases encodeSymbol s.build.table s.symIn.toInt <;> rfl

theorem symDecStage_withInputs (s : State) (a : List Event) (r : Option Word) :
    symDecStage (s.withInputs a r) = (symDecStage s).map (fun t => t.withInputs a r) := by
  change (if Config.maxBits < s.bitLen.toNat then .error ⟨.badOperand, 0⟩
    else if s.bitLen.toNat < s.cursor.toNat then .error ⟨.badOperand, 0⟩
    else
      match matchEntry s.build.table ((s.streamBits s.bitLen.toNat).drop s.cursor.toNat) with
      | none => .error ⟨.malformedStream, 0⟩
      | some e => .ok { s.withInputs a r with
          symOut := BitVec.ofInt 32 e.value, consumed := BitVec.ofNat 8 e.code.length
          cursor := s.cursor + BitVec.ofNat 16 e.code.length } : Except CmdError State) = _
  rw [symDecStage]
  split_ifs
  · rfl
  · rfl
  · cases matchEntry s.build.table ((s.streamBits s.bitLen.toNat).drop s.cursor.toNat) <;> rfl

/-- No command depends on the inputs to come or on what the host has read, and none changes them (R1, R13). -/
theorem stage_withInputs (i : Instr) (s : State) (a : List Event) (r : Option Word) :
    stage i (s.withInputs a r) = (stage i s).map (fun t => t.withInputs a r) := by
  cases i with
  | nop => rfl
  | predict f => rfl
  | xformFwd f => rfl
  | xformInv f => exact xformInvStage_withInputs f s a r
  | symEnc => exact symEncStage_withInputs s a r
  | symDec => exact symDecStage_withInputs s a r
  | mapFwd => exact mapFwdStage_withInputs s a r
  | mapInv => exact mapInvStage_withInputs s a r
  | pack => exact packStage_withInputs s a r
  | unpack => exact unpackStage_withInputs s a r
  | encode f =>
    simp only [stage, encodeStage]
    have h1 : xformFwdStage f (s.withInputs a r) = (xformFwdStage f s).withInputs a r := rfl
    rw [h1, mapFwdStage_withInputs]
    cases mapFwdStage (xformFwdStage f s) with
    | error e => rfl
    | ok t => exact packStage_withInputs t a r
  | decode f =>
    simp only [stage, decodeStage]
    rw [unpackStage_withInputs]
    cases unpackStage s with
    | error e => rfl
    | ok t =>
      simp only [Except.map]
      rw [mapInvStage_withInputs]
      cases mapInvStage t with
      | error e => rfl
      | ok u => exact xformInvStage_withInputs f u a r

theorem exec_withInputs {i : Instr} {s t : State} (h : exec i s = .next t) (a : List Event) (r : Option Word) :
    exec i (s.withInputs a r) = .next (t.withInputs a r) := by
  rcases exec_cases h with ⟨u, hu, rfl⟩ | ⟨e, he, rfl⟩
  · have := stage_withInputs i s a r
    rw [hu] at this
    rw [exec_of_ok this]; rfl
  · have := stage_withInputs i s a r
    rw [he] at this
    rw [exec_of_error this]
    exact congrArg (fun t : State => (Host.Outcome.next { t with
      errIndex := BitVec.ofNat 16 e.index, status := .completed (some e.kind), inFlight := none, tainted := [] } :
        Host.Outcome State Fault Refusal)) (State.scramble_withInputs s a r (outputs i s.build))

end Sys2Proof.Machine
end

