-- ==== Sys2Proof/Laws/Access.lean ====
section
/-! SUPPORT. Accesses of the host to a location of the window, and what they leave. -/

namespace Sys2Proof.Machine

theorem windowOffset_add (b : Build) {off : Nat} (h : off < 0x8000) : windowOffset b (b.base + off) = some off := by
  simp only [windowOffset]
  rw [if_pos ⟨by omega, by simp only [Config.windowSize]; omega⟩]
  simp

theorem windowOffset_eq_none {b : Build} {addr : Nat} :
    windowOffset b addr = none ↔ addr < b.base ∨ b.base + 0x8000 ≤ addr := by
  simp only [windowOffset]
  split_ifs with h <;> simp only [Config.windowSize] at h
  · simp; omega
  · simp; omega

theorem registerAt_none {off : Nat} (h : 0x3C ≤ off) : registerAt off = none := by
  unfold registerAt
  split <;> first | rfl | omega

theorem Loc.offset_lt {b : Build} {l : Loc} (h : l.mapped b = true) : l.offset < 0x8000 ∧ l.offset % 4 = 0 := by
  have hc := b.cells_le
  cases l with
  | raster i | resid i | codegrid i | recon i =>
    have h := of_decide_eq_true h
    simp only [Loc.offset, rasterBase, residBase, codegridBase, reconBase]
    omega
  | bitbuf j =>
    have h : j < 1024 := of_decide_eq_true h
    simp only [Loc.offset, bitbufBase]
    omega
  | _ => exact ⟨by decide, by decide⟩

theorem supported_offset {b : Build} {l : Loc} (h : l.mapped b = true) : supported l.offset 4 = true := by
  simp [supported, (Loc.offset_lt h).2]

/-- A host write of a word to CMD outside reset (R200). -/
theorem hostWrite_cmd (s : State) (hr : s.inReset = false) (v : Word) :
    hostWrite (s.build.base + Loc.cmd.offset) 4 v s = .next (if s.status.busy then s else s.accept v) := by
  have hw : windowOffset s.build (s.build.base + Loc.cmd.offset) = some Loc.cmd.offset := windowOffset_add _ (by decide)
  simp only [hostWrite, hw, hr]
  rfl

/-- A host write of a word to a mapped location other than CMD, outside reset (R63, R67). -/
theorem hostWrite_loc (s : State) {l : Loc} (h : l.mapped s.build = true) (hc : l ≠ .cmd) (hr : s.inReset = false) (v : Word) :
    hostWrite (s.build.base + l.offset) 4 v s =
      .next (if s.status.busy then s.taint l else if l.hostWritable then s.storeLoc l v else s) := by
  simp only [hostWrite, windowOffset_add s.build (Loc.offset_lt h).1, hr, State.writeWindow, Loc.ofOffset_offset h,
    supported_offset h]
  cases l <;> rfl

/-- A host read of a word at a mapped location, outside reset (R64, R67). -/
theorem hostRead_loc (s : State) {l : Loc} (h : l.mapped s.build = true) (hr : s.inReset = false) :
    hostRead (s.build.base + l.offset) 4 s = .next (
      if s.status.busy && s.unsettled l then s.readFree l.offset else { s with lastRead := some (s.readLoc l) }) := by
  simp only [hostRead, windowOffset_add s.build (Loc.offset_lt h).1, hr, State.readWindow, Loc.ofOffset_offset h,
    supported_offset h]
  rfl

/-- A store into a mapped location changes that location only. -/
theorem State.storeLoc_sameBut (s : State) {l : Loc} (h : l.mapped s.build = true) (w : Word) :
    s.SameBut (· = l) (s.storeLoc l w) where
  locs l' hl' hn := State.readLoc_storeLoc_ne s h hl' hn w
  bytes a ha := State.byteAt_storeLoc_out s l w (ha l h rfl)
  build := by simp
  agenda := by simp
  lastRead := by simp
  inReset := by simp
  hostFault := by simp
  resetDraw := by simp

/-! ### Storing the same twice -/

/-- The scan for an offset ends at a cell that holds this byte. -/
def Memory.holds (m : Memory) (a : Nat) (b : Byte) : Prop :=
  ∃ front rest, m = front ++ (a, b) :: rest ∧ ∀ c ∈ front, c.1 < a

theorem Memory.holds_write (m : Memory) (a : Nat) (b : Byte) : (m.write a b).holds a b := by
  induction m with
  | nil => exact ⟨[], [], rfl, by simp⟩
  | cons c m ih =>
    simp only [Memory.write]
    split_ifs with h1 h2
    · exact ⟨[], c :: m, rfl, by simp⟩
    · exact ⟨[], m, rfl, by simp⟩
    · obtain ⟨front, rest, he, hf⟩ := ih
      exact ⟨c :: front, rest, by rw [he]; rfl, List.forall_mem_cons.2 ⟨by omega, hf⟩⟩

theorem Memory.write_of_holds {m : Memory} {a : Nat} {b : Byte} (h : m.holds a b) : m.write a b = m := by
  obtain ⟨front, rest, rfl, hf⟩ := h
  induction front with
  | nil => simp [Memory.write]
  | cons c front ih =>
    have hc := hf c List.mem_cons_self
    simp only [List.cons_append, Memory.write]
    rw [if_neg (by omega), if_neg (by omega), ih fun c hc => hf c (List.mem_cons_of_mem _ hc)]

theorem Memory.holds_write_above {m : Memory} {a a' : Nat} {b b' : Byte} (h : m.holds a b) (hlt : a < a') :
    (m.write a' b').holds a b := by
  obtain ⟨front, rest, rfl, hf⟩ := h
  induction front with
  | nil =>
    simp only [List.nil_append, Memory.write]
    rw [if_neg (by omega), if_neg (by omega)]
    exact ⟨[], _, rfl, by simp⟩
  | cons c front ih =>
    have hc := hf c List.mem_cons_self
    obtain ⟨front', rest', he, hf'⟩ := ih fun c hc => hf c (List.mem_cons_of_mem _ hc)
    simp only [List.cons_append, Memory.write]
    rw [if_neg (by omega), if_neg (by omega), he]
    exact ⟨c :: front', rest', rfl, List.forall_mem_cons.2 ⟨hc, hf'⟩⟩

theorem Memory.writeWord_writeWord (m : Memory) (a : Nat) (w : Word) : (m.writeWord a w).writeWord a w = m.writeWord a w := by
  have h3 := Memory.holds_write (((m.write a (lane w 0)).write (a + 1) (lane w 1)).write (a + 2) (lane w 2)) (a + 3) (lane w 3)
  have h2 := Memory.holds_write_above (a' := a + 3) (b' := lane w 3)
    (Memory.holds_write ((m.write a (lane w 0)).write (a + 1) (lane w 1)) (a + 2) (lane w 2)) (by omega)
  have h1 := Memory.holds_write_above (a' := a + 3) (b' := lane w 3) (Memory.holds_write_above (a' := a + 2) (b' := lane w 2)
    (Memory.holds_write (m.write a (lane w 0)) (a + 1) (lane w 1)) (by omega)) (by omega)
  have h0 := Memory.holds_write_above (a' := a + 3) (b' := lane w 3) (Memory.holds_write_above (a' := a + 2) (b' := lane w 2)
    (Memory.holds_write_above (a' := a + 1) (b' := lane w 1) (Memory.holds_write m a (lane w 0)) (by omega)) (by omega))
    (by omega)
  change ((((m.writeWord a w).write a (lane w 0)).write (a + 1) (lane w 1)).write (a + 2) (lane w 2)).write (a + 3) (lane w 3) = _
  rw [Memory.write_of_holds (m := m.writeWord a w) h0, Memory.write_of_holds (m := m.writeWord a w) h1,
    Memory.write_of_holds (m := m.writeWord a w) h2, Memory.write_of_holds (m := m.writeWord a w) h3]

/-- Storing the same word into a location twice is storing it once (R69). -/
theorem State.storeLoc_storeLoc (s : State) (l : Loc) (w : Word) : (s.storeLoc l w).storeLoc l w = s.storeLoc l w := by
  cases l with
  | raster i | recon i =>
    simp only [State.storeLoc, State.storeByte]
    rw [Memory.write_of_holds (Memory.holds_write _ _ _)]
  | resid i | codegrid i | bitbuf i =>
    simp only [State.storeLoc, State.storeWord]
    rw [Memory.writeWord_writeWord]
  | _ => rfl

/-! ### What an access can do -/

/-- Everything a host read can do inside the window (R64, R69): only the host's own data, and the count of free values. -/
theorem State.readWindow_cases (s : State) (off width : Nat) :
    ∃ r d, s.readWindow off width = { s with lastRead := some r, draws := d } ∧ s.draws ≤ d := by
  by_cases hs : supported off width = true
  · cases hl : Loc.ofOffset s.build off with
    | none => exact ⟨0#32, s.draws, by simp [State.readWindow, hs, hl], le_refl _⟩
    | some l =>
      by_cases hb : (s.status.busy && s.unsettled l) = true
      · exact ⟨Config.freeWord s.draws off, s.draws + 1, by simp only [State.readWindow, hs, hl, hb]; rfl, by omega⟩
      · exact ⟨s.readLoc l, s.draws, by simp only [State.readWindow, hs, hl, hb]; rfl, le_refl _⟩
  · exact ⟨0#32, s.draws, by simp [State.readWindow, hs], le_refl _⟩

/-- Everything a host write can do inside the window (R63, R67, R200): nothing, the acceptance of a command while idle, the
store of a RW location while idle, or the spoiling of the command in flight. -/
theorem State.writeWindow_cases (s : State) (off width : Nat) (v : Word) :
    s.writeWindow off width v = s ∨
    (s.status.busy = false ∧ s.writeWindow off width v = s.accept v) ∨
    (∃ l, l.mapped s.build = true ∧ l.hostWritable = true ∧ s.status.busy = false ∧ s.writeWindow off width v = s.storeLoc l v) ∨
    ∃ l, l.mapped s.build = true ∧ l ≠ .cmd ∧ s.status.busy = true ∧ s.writeWindow off width v = s.taint l := by
  by_cases hs : supported off width = true
  · cases hl : Loc.ofOffset s.build off with
    | none => exact .inl (by simp [State.writeWindow, hs, hl])
    | some l =>
      have hm := (Loc.ofOffset_some hl (by simp only [supported, Bool.and_eq_true, beq_iff_eq] at hs; exact hs.2)).1
      by_cases hc : l = .cmd
      · subst hc
        by_cases hb : s.status.busy = true
        · exact .inl (by simp [State.writeWindow, hs, hl, hb])
        · exact .inr (.inl ⟨by simpa using hb, by simp [State.writeWindow, hs, hl, hb]⟩)
      · have he : s.writeWindow off width v =
            (if s.status.busy then s.taint l else if l.hostWritable then s.storeLoc l v else s) := by
          simp only [State.writeWindow, hs, hl]
          cases l <;> rfl
        by_cases hb : s.status.busy = true
        · exact .inr (.inr (.inr ⟨l, hm, hc, hb, by rw [he, if_pos hb]⟩))
        · by_cases hw : l.hostWritable = true
          · exact .inr (.inr (.inl ⟨l, hm, hw, by simpa using hb, by rw [he, if_neg hb, if_pos hw]⟩))
          · exact .inl (by rw [he, if_neg hb, if_neg hw])
  · exact .inl (by simp [State.writeWindow, hs])

/-! ### A write that spoils the command in flight -/

@[simp] theorem State.taint_build (s : State) (l : Loc) : (s.taint l).build = s.build := by
  simp only [State.taint]; split_ifs <;> simp
@[simp] theorem State.taint_cmd (s : State) (l : Loc) : (s.taint l).cmd = s.cmd := by
  simp only [State.taint]; split_ifs <;> simp
@[simp] theorem State.taint_status (s : State) (l : Loc) : (s.taint l).status = s.status := by
  simp only [State.taint]; split_ifs <;> simp
@[simp] theorem State.taint_inFlight (s : State) (l : Loc) : (s.taint l).inFlight = s.inFlight := by
  simp only [State.taint]; split_ifs <;> simp
@[simp] theorem State.taint_tainted (s : State) (l : Loc) : (s.taint l).tainted = l :: s.tainted := rfl
@[simp] theorem State.taint_inReset (s : State) (l : Loc) : (s.taint l).inReset = s.inReset := by
  simp only [State.taint]; split_ifs <;> simp
@[simp] theorem State.taint_agenda (s : State) (l : Loc) : (s.taint l).agenda = s.agenda := by
  simp only [State.taint]; split_ifs <;> simp
@[simp] theorem State.taint_lastRead (s : State) (l : Loc) : (s.taint l).lastRead = s.lastRead := by
  simp only [State.taint]; split_ifs <;> simp
@[simp] theorem State.taint_hostFault (s : State) (l : Loc) : (s.taint l).hostFault = true := rfl
@[simp] theorem State.taint_draws (s : State) (l : Loc) : (s.taint l).draws = s.draws + 1 := rfl
@[simp] theorem State.taint_resetDraw (s : State) (l : Loc) : (s.taint l).resetDraw = s.resetDraw := by
  simp only [State.taint]; split_ifs <;> simp

@[simp] theorem State.taint_errIndex (s : State) (l : Loc) : (s.taint l).errIndex = s.errIndex := by
  simp only [State.taint]
  split_ifs with hw
  · cases l <;> first | rfl | simp [Loc.hostWritable] at hw
  · rfl

theorem State.wf_taint {s : State} (h : s.mem.wf) (l : Loc) : (s.taint l).mem.wf := by
  simp only [State.taint]
  split_ifs
  · exact State.wf_storeLoc h l _
  · exact h

theorem State.stored_taint {s : State} (h : ∀ c ∈ s.mem, storageByte s.build c.1) {l : Loc}
    (hl : l.mapped s.build = true) : ∀ c ∈ (s.taint l).mem, storageByte s.build c.1 := by
  simp only [State.taint]
  split_ifs
  · exact State.stored_storeLoc h hl _
  · exact h

end Sys2Proof.Machine
end

