-- ==== Sys2Proof/Laws/Encoding.lean ====
section
/-! SUPPORT. Command words: a word is its three fields, and every word with a reserved bit is rejected (R80, R82). -/

namespace Sys2Proof

/-- A word is its three fields (R80). -/
theorem word_fields (w : Word) : rsvField w ++ selField w ++ opField w = w := by
  simp only [rsvField, selField, opField]
  apply BitVec.eq_of_getLsbD_eq
  intro i hi
  simp only [BitVec.getLsbD_append, BitVec.getLsbD_extractLsb']
  grind

/-- What holds of the 128 words with RSV = 0 and of every word with RSV ≠ 0 holds of every word. -/
theorem word_cases {P : Word → Prop} (h0 : ∀ (sel : BitVec 3) (op : BitVec 4), P (0#25 ++ sel ++ op))
    (h1 : ∀ w, rsvField w ≠ 0#25 → P w) (w : Word) : P w := by
  by_cases h : rsvField w = 0#25
  · rw [← word_fields w, h]; exact h0 _ _
  · exact h1 w h

/-- A mask that keeps RSV keeps it. -/
theorem rsvField_and (w m : Word) (h : rsvField m = BitVec.allOnes 25) : rsvField (w &&& m) = rsvField w := by
  simp only [rsvField, BitVec.extractLsb'_and] at h ⊢
  rw [h, BitVec.and_allOnes]

theorem decode_of_rsv {w : Word} (h : rsvField w ≠ 0#25) : decode w = .error .reservedBits := by
  simp [decode, h]

end Sys2Proof
end

