-- ==== Sys2Proof/Laws/Errors.lean ====
section
/-! SUPPORT. The errors each command's rule can raise, and where (R220 to R226). -/

namespace Sys2Proof.Machine

/-- The kinds of error the rule of a command can raise (R220, R221 to R224). -/
def errorKinds (i : Instr) : List ErrKind := match i with
        | .nop | .predict _ | .xformFwd _ => []
        | .symEnc | .mapFwd | .encode _ => [.unknownSymbol]
        | .xformInv _ | .mapInv => [.malformedStream]
        | .symDec | .unpack | .decode _ => [.malformedStream, .badOperand]
        | .pack => [.badOperand]

theorem xformInvStage_error {f : Selector} {s : State} {e : CmdError} (h : xformInvStage f s = .error e) : e.kind = .malformedStream ∧ e.index < s.build.cells := by
  simp only [xformInvStage] at h
  split at h
  · rename_i e' he
    cases h
    obtain ⟨k, hk, rfl, -⟩ := (reconstructFrom_error_iff _ _ _ _ _).1 he
    simpa using hk
  · cases h

theorem mapFwdStage_error {s : State} {e : CmdError} (h : mapFwdStage s = .error e) : e.kind = .unknownSymbol ∧ e.index < s.build.cells := by
  simp only [mapFwdStage] at h
  split at h
  · rename_i e' he
    cases h
    obtain ⟨k, hk, hc, -⟩ := (mapCells_error_iff _ _ _ _).1 he
    simp only [mapFwdCell, Nat.zero_add] at hc
    rw [State.length_residCells] at hk
    split_ifs at hc with h0
    · cases hc; exact ⟨rfl, by have := s.build.one_le_cells; simp; omega⟩
    · split at hc
      · cases hc; exact ⟨rfl, hk⟩
      · cases hc
  · cases h

theorem mapInvStage_error {s : State} {e : CmdError} (h : mapInvStage s = .error e) : e.kind = .malformedStream ∧ e.index < s.build.cells := by
  simp only [mapInvStage] at h
  split at h
  · rename_i e' he
    cases h
    obtain ⟨k, hk, hc, -⟩ := (mapCells_error_iff _ _ _ _).1 he
    simp only [mapInvCell, Nat.zero_add] at hc
    rw [State.length_codeCells] at hk
    split_ifs at hc with h0
    · cases hc; exact ⟨rfl, by have := s.build.one_le_cells; simp; omega⟩
    · split at hc
      · cases hc; exact ⟨rfl, hk⟩
      · cases hc
  · cases h

theorem packStage_error {s : State} {e : CmdError} (h : packStage s = .error e) : e.kind = .badOperand ∧ e.index < s.build.cells := by
  simp only [packStage] at h
  split at h
  · rename_i e' he
    cases h
    simp only [packGrid] at he
    split at he
    · rename_i e'' he'
      cases he
      obtain ⟨k, hk, hc, -⟩ := (mapCells_error_iff _ _ _ _).1 he'
      simp only [packCell, Nat.zero_add] at hc
      rw [State.length_codeCells] at hk
      split_ifs at hc with h0
      cases hc; exact ⟨rfl, hk⟩
    · cases he
  · cases h

theorem unpackGrid_error {t : CodeTable} {cells : Nat} {bs : List Bool} {e : CmdError} (hc : 1 ≤ cells) (h : unpackGrid t cells bs = .error e) : e.kind = .malformedStream ∧ e.index < cells := by
  simp only [unpackGrid] at h
  split_ifs at h
  · cases h; exact ⟨rfl, by simp; omega⟩
  · split at h
    · rename_i e' he
      cases h
      obtain ⟨es, rest, hl, -, -, -, rfl⟩ := unpackCells_error he
      exact ⟨rfl, by simp; omega⟩
    · cases h

theorem unpackStage_error {s : State} {e : CmdError} (h : unpackStage s = .error e) : (e.kind = .malformedStream ∨ e.kind = .badOperand) ∧ e.index < s.build.cells := by
  simp only [unpackStage] at h
  have := s.build.one_le_cells
  split_ifs at h
  · cases h; exact ⟨.inr rfl, by simp; omega⟩
  · split at h
    · rename_i e' he
      cases h
      have := unpackGrid_error s.build.one_le_cells he
      exact ⟨.inl this.1, this.2⟩
    · cases h

/-- What a rule can raise: one of the command's kinds, at a cell of the grid (R26, R220). -/
theorem stage_error {i : Instr} {s : State} {e : CmdError} (h : stage i s = .error e) : e.kind ∈ errorKinds i ∧ e.index < s.build.cells := by
  have hc := s.build.one_le_cells
  cases i with
  | nop | predict f | xformFwd f => cases h
  | xformInv f => simpa [errorKinds] using xformInvStage_error h
  | symEnc =>
    simp only [stage, symEncStage] at h
    split at h
    · cases h; exact ⟨by simp [errorKinds], by simp; omega⟩
    · cases h
  | symDec =>
    simp only [stage, symDecStage] at h
    split_ifs at h
    · cases h; exact ⟨by simp [errorKinds], by simp; omega⟩
    · cases h; exact ⟨by simp [errorKinds], by simp; omega⟩
    · split at h
      · cases h; exact ⟨by simp [errorKinds], by simp; omega⟩
      · cases h
  | mapFwd => simpa [errorKinds] using mapFwdStage_error h
  | mapInv => simpa [errorKinds] using mapInvStage_error h
  | pack => simpa [errorKinds] using packStage_error h
  | unpack => simpa [errorKinds] using unpackStage_error h
  | encode f =>
    simp only [stage, encodeStage] at h
    split at h
    · cases h; rename_i he; exact ⟨by simp [errorKinds, (mapFwdStage_error he).1], (mapFwdStage_error he).2⟩
    · rename_i t ht
      exfalso
      obtain ⟨ws, hws, hl, rfl⟩ := mapFwdStage_ok ht
      have hl : ws.length = s.build.cells := hl
      have hle : ∀ w ∈ ws, codeLen w ≤ 24 := by
        intro w hw
        obtain ⟨k, hk, rfl⟩ := List.getElem_of_mem hw
        obtain ⟨h1, h2⟩ := (mapCells_ok_iff _ _ _ _).1 hws
        have := h2 k (by omega) hk
        simp only [mapFwdCell] at this
        split_ifs at this
        · simp only [Except.ok.injEq] at this
          rw [← this, codeLen_codeWord (by simp)]; simp
        · split at this
          · cases this
          · rename_i bs hbs
            obtain ⟨e, he, -, rfl⟩ := encodeSymbol_eq_some hbs
            have hlen := (CodeTable.lengths (xformFwdStage f s).build.parts.2.1 he).2
            simp only [Except.ok.injEq] at this
            rw [← this, codeLen_codeWord hlen]; exact hlen
      have hcc : ((xformFwdStage f s).writeCodes ws).codeCells = ws := State.codeCells_writeCodes _ hl
      have : packGrid ((xformFwdStage f s).writeCodes ws).codeCells = .ok (ws.flatMap codeBits) := packGrid_ok_iff.2 ⟨by rw [hcc]; exact hle, by rw [hcc]⟩
      simp only [packStage, this] at h
      cases h
  | decode f =>
    simp only [stage, decodeStage] at h
    split at h
    · rename_i he; cases h; simpa [errorKinds] using unpackStage_error he
    · rename_i t ht
      have hb : t.build = s.build := (unpackStage_writes ht).build
      split at h
      · rename_i he; cases h; have := mapInvStage_error he; rw [hb] at this; exact ⟨by simp [errorKinds, this.1], this.2⟩
      · rename_i u hu
        obtain ⟨vs, -, -, rfl⟩ := mapInvStage_ok hu
        have := xformInvStage_error h
        have hb : (t.writeResid vs).build = s.build := hb
        rw [hb] at this
        exact ⟨by simp [errorKinds, this.1], this.2⟩

end Sys2Proof.Machine
end

