-- ==== Sys2Proof/Laws/Grid.lean ====
section
/-! SUPPORT. Cells as the host reads them, the residual grid's values, and what the stages leave in the grids. -/

namespace Sys2Proof.Machine

/-! ### Cells as the host reads them -/

/-- A 16-bit register holds a number below 2^16, and reads as it (R31, R35). -/
theorem toNat_ofNat16 {n : Nat} (h : n < 65536) : (BitVec.ofNat 16 n).toNat = n := by simp; omega

theorem toNat_read16 {n : Nat} (h : n < 65536) : ((BitVec.ofNat 16 n).setWidth 32).toNat = n := by simp; omega

theorem State.readLoc_resid (s : State) {i : Nat} (h : i < s.build.cells) :
    (s.readLoc (.resid i)).toInt = s.residCells.getD i 0 := by
  simp [State.residCells, List.getD_eq_getElem?_getD, h, State.readLoc]

theorem State.readLoc_codegrid (s : State) {i : Nat} (h : i < s.build.cells) :
    s.readLoc (.codegrid i) = s.codeCells.getD i 0 := by
  simp [State.codeCells, List.getD_eq_getElem?_getD, h, State.readLoc]

theorem State.readLoc_raster (s : State) {i : Nat} (h : i < s.build.cells) :
    (s.readLoc (.raster i)).toInt = s.rasterCells.getD i 0 := by
  have : (s.byteAt (rasterBase + 4 * i)).toNat < 256 := (s.byteAt (rasterBase + 4 * i)).isLt
  simp only [State.rasterCells, List.getD_eq_getElem?_getD, State.readLoc]
  simp [h, BitVec.toInt_eq_toNat_cond]
  omega

theorem State.readLoc_recon (s : State) {i : Nat} (h : i < s.build.cells) :
    ((s.readLoc (.recon i)).toNat : Int) = s.reconCells.getD i 0 := by
  have : (s.byteAt (reconBase + 4 * i)).toNat < 256 := (s.byteAt (reconBase + 4 * i)).isLt
  simp only [State.reconCells, List.getD_eq_getElem?_getD, State.readLoc]
  simp [h]
  omega

theorem State.rasterCells_getD_range (s : State) (i : Nat) : 0 ≤ s.rasterCells.getD i 0 ∧ s.rasterCells.getD i 0 ≤ 255 := by
  by_cases h : i < s.rasterCells.length
  · rw [List.getD_eq_getElem _ _ h]; exact s.rasterCells_range _ (List.getElem_mem h)
  · rw [List.getD_eq_default _ _ (by omega)]; omega

/-! ### The residual grid (R130) -/

theorem tdiv2_of_nonneg {n : Int} (h : 0 ≤ n) : tdiv2 n = n / 2 := Int.tdiv_eq_ediv_of_nonneg h

theorem tdiv2_neg (n : Int) : tdiv2 (-n) = -tdiv2 n := Int.neg_tdiv n 2

/-- Halving stays within half of its argument. -/
theorem tdiv2_range (n : Int) : (0 ≤ n → 0 ≤ tdiv2 n ∧ 2 * tdiv2 n ≤ n) ∧ (n < 0 → tdiv2 n ≤ 0 ∧ n ≤ 2 * tdiv2 n) := by
  refine ⟨fun h => ?_, fun h => ?_⟩
  · rw [tdiv2_of_nonneg h]; omega
  · have := tdiv2_neg (-n)
    rw [Int.neg_neg, tdiv2_of_nonneg (by omega : 0 ≤ -n)] at this
    omega

theorem residuals_getD (n : Nat) (f : Selector) (xs : List Int) {i : Nat} (h : i < n * n) :
    (residuals n f xs).getD i 0 = xs.getD i 0 - predictionAt n f (fun j => xs.getD j 0) i := by
  simp [residuals, List.getD_eq_getElem?_getD, h]

/-- No residual overflows its word (R11, R130). -/
theorem residuals_fit {n : Nat} {f : Selector} {xs : List Int} (hx : ∀ i, 0 ≤ xs.getD i 0 ∧ xs.getD i 0 ≤ 255) :
    ∀ e ∈ residuals n f xs, -2 ^ 31 ≤ e ∧ e < 2 ^ 31 := by
  intro e he
  obtain ⟨i, hi, rfl⟩ := List.getElem_of_mem he
  rw [length_residuals] at hi
  have h := residuals_getD n f xs hi
  rw [List.getD_eq_getElem _ _ (by simpa using hi)] at h
  rw [h]
  have h0 := hx i
  have h1 := hx (i - 1)
  have h2 := hx (i - n)
  have h3 := hx (i - n - 1)
  have t1 := tdiv2_range (xs.getD (i - n) 0 - xs.getD (i - n - 1) 0)
  have t2 := tdiv2_range (xs.getD (i - 1) 0 - xs.getD (i - n - 1) 0)
  have t3 := tdiv2_range (xs.getD (i - 1) 0 + xs.getD (i - n) 0)
  simp only [predictionAt]
  generalize xs.getD i 0 = x, xs.getD (i - 1) 0 = a, xs.getD (i - n) 0 = b, xs.getD (i - n - 1) 0 = c at *
  split_ifs
  · omega
  · omega
  · omega
  · clear h he hi
    cases f <;> simp only [predict] <;> omega

/-- The walk of R132 recovers the raster a residual grid was made from. -/
theorem reconstruct_residuals {n : Nat} (hn : 0 < n) (f : Selector) {ys : List Int} (hl : ys.length = n * n)
    (hy : ∀ y ∈ ys, 0 ≤ y ∧ y ≤ 255) : reconstruct n f (residuals n f ys) = .ok ys := by
  refine (reconstructFrom_ok_iff hn f [] _ ys).2 ⟨by simp [hl], by simp, ?_⟩
  intro k hk
  rw [length_residuals] at hk
  simp only [List.length_nil, Nat.zero_add]
  rw [residuals_getD _ _ _ hk]
  refine ⟨by omega, ?_⟩
  rw [List.getD_eq_getElem _ _ (by omega)]
  exact hy _ (List.getElem_mem _)

/-! ### What the stages leave -/

theorem xformFwdStage_residCells (f : Selector) (s : State) :
    (xformFwdStage f s).residCells = residuals s.build.side f s.rasterCells :=
  State.residCells_writeResid s (by simp [Params.cells]) (residuals_fit s.rasterCells_getD_range)

/-- What MAP_FWD writes: the first-cell word of a byte, then the canonical words of table entries (R158). -/
theorem mapFwdStage_ok_iff {s t : State} :
    mapFwdStage s = .ok t ↔ ∃ (v : Nat) (es : List Entry), v < 256 ∧ (∀ e ∈ es, e ∈ s.build.table) ∧
      s.residCells = (v : Int) :: es.map Entry.value ∧
      t = s.writeCodes (codeWord (firstCellBits v) :: es.map fun e => codeWord e.code) := by
  constructor
  · intro h
    obtain ⟨ws, hws, hl, rfl⟩ := mapFwdStage_ok h
    obtain ⟨h1, h2⟩ := (mapCells_ok_iff _ _ _ _).1 hws
    have hc := s.build.one_le_cells
    have hlr : s.residCells.length = s.build.cells := by simp
    generalize s.residCells = rs at *
    cases rs with
    | nil => simp at hlr; omega
    | cons r rs =>
      cases ws with
      | nil => simp at h1
      | cons w ws =>
        have h0 := h2 0 (by simp) (by simp)
        simp only [mapFwdCell, Nat.zero_add, List.getElem_cons_zero, if_true] at h0
        split_ifs at h0 with hr
        simp only [Except.ok.injEq] at h0
        have key : ∃ es : List Entry, (∀ e ∈ es, e ∈ s.build.table) ∧ rs = es.map Entry.value ∧
            ws = es.map fun e => codeWord e.code := by
          have hcell : ∀ k (hk : k < rs.length) (hk' : k < ws.length),
              ∃ e ∈ s.build.table, e.value = rs[k] ∧ codeWord e.code = ws[k] := by
            intro k hk hk'
            have := h2 (k + 1) (by simpa using hk) (by simpa using hk')
            simp only [mapFwdCell, List.getElem_cons_succ] at this
            rw [if_neg (by omega)] at this
            split at this
            · cases this
            · rename_i bs hbs
              obtain ⟨e, he, hv, hb⟩ := encodeSymbol_eq_some hbs
              simp only [Except.ok.injEq] at this
              exact ⟨e, he, hv, by rw [hb, this]⟩
          simp only [List.length_cons, Nat.succ_inj] at h1
          clear h2 h0 hws hl h hlr
          induction rs generalizing ws with
          | nil =>
            cases ws with
            | nil => exact ⟨[], by simp, rfl, rfl⟩
            | cons w ws => simp at h1
          | cons r rs ih =>
            cases ws with
            | nil => simp at h1
            | cons w ws =>
              obtain ⟨e, he, hv, hb⟩ := hcell 0 (by simp) (by simp)
              obtain ⟨es, hes, hr, hw⟩ := ih ws (fun k hk hk' => hcell (k + 1) (by simpa using hk) (by simpa using hk'))
                (by simpa using h1)
              exact ⟨e :: es, List.forall_mem_cons.2 ⟨he, hes⟩, by rw [hr, List.map_cons, hv]; rfl, by rw [hw, List.map_cons, hb]; rfl⟩
        obtain ⟨es, hes, rfl, rfl⟩ := key
        exact ⟨r.toNat, es, by omega, hes, by simp; omega, by rw [← h0]⟩
  · rintro ⟨v, es, hv, hes, hr, rfl⟩
    have : mapCells (mapFwdCell s.build.table) 0 s.residCells =
        .ok (codeWord (firstCellBits v) :: es.map fun e => codeWord e.code) := by
      refine (mapCells_ok_iff _ _ _ _).2 ⟨by simp [hr], ?_⟩
      intro k hk hk'
      cases k with
      | zero =>
        simp only [mapFwdCell, Nat.zero_add, hr, List.getElem_cons_zero, if_true, Int.toNat_natCast]
        rw [if_neg (by omega)]
      | succ k =>
        have hk'' : k < es.length := by simpa using hk'
        simp only [mapFwdCell, hr, List.getElem_cons_succ, List.getElem_map]
        rw [if_neg (by omega), encodeSymbol_of_mem s.build.parts.2.1 (hes _ (List.getElem_mem hk''))]
    simp only [mapFwdStage, this]

/-- The stream of a grid of first-cell word and table words (R186). -/
theorem packGrid_mapped {t : CodeTable} (h : t.wf = true) {v : Nat} (es : List Entry) (hes : ∀ e ∈ es, e ∈ t) :
    packGrid (codeWord (firstCellBits v) :: es.map fun e => codeWord e.code) =
      .ok (firstCellBits v ++ es.flatMap Entry.code) := by
  have hle : ∀ e ∈ es, e.code.length ≤ 24 := fun e he => (CodeTable.lengths h (hes e he)).2
  rw [packGrid_ok_iff]
  refine ⟨?_, ?_⟩
  · refine List.forall_mem_cons.2 ⟨by rw [codeLen_codeWord (by simp)]; simp, ?_⟩
    intro w hw
    obtain ⟨e, he, rfl⟩ := List.mem_map.1 hw
    rw [codeLen_codeWord (hle e he)]
    exact hle e he
  · rw [List.flatMap_cons, codeBits_codeWord (by simp), List.flatMap_map]
    congr 1
    rw [List.flatMap_def, List.flatMap_def]
    congr 1
    apply List.map_congr_left
    intro e he
    rw [codeBits_codeWord (hle e he)]

theorem length_codes (es : List Entry) : (es.flatMap Entry.code).length = (es.map fun e => e.code.length).sum :=
  List.length_flatMap

theorem length_codes_le {t : CodeTable} (h : t.wf = true) {es : List Entry} (hes : ∀ e ∈ es, e ∈ t) :
    (es.flatMap Entry.code).length ≤ 24 * es.length := by
  induction es with
  | nil => simp
  | cons e es ih =>
    have := (CodeTable.lengths h (hes e List.mem_cons_self)).2
    have := ih fun e' he' => hes e' (List.mem_cons_of_mem _ he')
    simp only [List.flatMap_cons, List.length_append, List.length_cons]
    omega

/-- A stream that begins with a first-cell field and one table code for each other cell parses into its words (R181). -/
theorem unpackGrid_of_stream {t : CodeTable} (h : t.wf = true) {v : Nat} {es : List Entry} (hes : ∀ e ∈ es, e ∈ t)
    {cells : Nat} (hc : es.length + 1 = cells) {bs : List Bool} (hp : firstCellBits v ++ es.flatMap Entry.code <+: bs) :
    unpackGrid t cells bs = .ok (codeWord (firstCellBits v) :: es.map (fun e => codeWord e.code),
      8 + (es.flatMap Entry.code).length) := by
  obtain ⟨tail, rfl⟩ := hp
  have h8 : (firstCellBits v).length = 8 := length_firstCellBits v
  simp only [unpackGrid]
  rw [if_neg (by simp)]
  rw [List.append_assoc, List.drop_left' h8, List.take_left' h8, show cells - 1 = es.length by omega,
    unpackCells_of_codes h es hes]

theorem unpackStage_of_stream {s : State} {v : Nat} {es : List Entry} (hb : s.bitLen.toNat ≤ 32768)
    (hl : es.length + 1 = s.build.cells) (hes : ∀ e ∈ es, e ∈ s.build.table)
    (hp : firstCellBits v ++ es.flatMap Entry.code <+: s.streamBits s.bitLen.toNat) :
    unpackStage s = .ok { s.writeCodes (codeWord (firstCellBits v) :: es.map fun e => codeWord e.code) with
      bitPos := BitVec.ofNat 16 (8 + (es.flatMap Entry.code).length) } := by
  simp only [unpackStage]
  rw [if_neg (by simp only [Config.maxBits]; omega), unpackGrid_of_stream s.build.parts.2.1 hes hl hp]

/-- MAP_INV undoes what MAP_FWD and UNPACK write (R159). -/
theorem mapInvStage_of_words {s : State} {v : Nat} {es : List Entry} (hv : v < 256) (hes : ∀ e ∈ es, e ∈ s.build.table)
    (hc : s.codeCells = codeWord (firstCellBits v) :: es.map fun e => codeWord e.code) :
    mapInvStage s = .ok (s.writeResid ((v : Int) :: es.map Entry.value)) := by
  have hw : codeWord (firstCellBits v) = 0x080000#24 ++ BitVec.ofNat 8 v := by
    rw [codeWord_firstCellBits hv]
    apply BitVec.eq_of_toNat_eq
    rw [BitVec.toNat_append, Nat.shiftLeft_eq, Nat.mul_comm,
      ← Nat.two_pow_add_eq_or_of_lt (BitVec.ofNat 8 v).isLt]
    simp
    omega
  have h1 : (codeWord (firstCellBits v)).extractLsb' 8 24 = 0x080000#24 := by
    rw [hw]; apply BitVec.eq_of_getLsbD_eq; intro i hi
    simp only [BitVec.getLsbD_extractLsb', BitVec.getLsbD_append]; grind
  have h2 : ((codeWord (firstCellBits v)).extractLsb' 0 8).toNat = v := by
    have : (codeWord (firstCellBits v)).extractLsb' 0 8 = BitVec.ofNat 8 v := by
      rw [hw]; apply BitVec.eq_of_getLsbD_eq; intro i hi
      simp only [BitVec.getLsbD_extractLsb', BitVec.getLsbD_append]; grind
    rw [this]; simp; omega
  have : mapCells (mapInvCell s.build.table) 0 s.codeCells = .ok ((v : Int) :: es.map Entry.value) := by
    refine (mapCells_ok_iff _ _ _ _).2 ⟨by simp [hc], ?_⟩
    intro k hk hk'
    cases k with
    | zero =>
      simp only [mapInvCell, Nat.zero_add, hc, List.getElem_cons_zero, if_true, h1, h2]
      rfl
    | succ k =>
      have hk'' : k < es.length := by simpa using hk'
      simp only [mapInvCell, hc, List.getElem_cons_succ, List.getElem_map]
      rw [if_neg (by omega), wordEntry_of_mem s.build.parts.2.1 (hes _ (List.getElem_mem hk''))]
  simp only [mapInvStage, this]

end Sys2Proof.Machine
end

