-- ==== Sys2Proof/Laws/PerInstr.lean ====
section
/-! SUPPORT. Statements for all commands, one lemma per constructor: the word of every command is legal and holds its
opcode and its selector. -/

namespace Sys2Proof.Laws

/-- The word of a command is legal by the check of R82 and holds the command's OP and SEL (R80, R81, R91). -/
def EncodingLegal.Statement (i : Instr) : Prop :=
  Word.legal (encode i) = true ∧ opField (encode i) = i.opcode ∧ selField (encode i) = i.selBits ∧
    rsvField (encode i) = 0#25

theorem EncodingLegal.nop : EncodingLegal.Statement .nop := by unfold EncodingLegal.Statement; decide

theorem EncodingLegal.predict (f : Selector) : EncodingLegal.Statement (.predict f) := by
  cases f <;> (unfold EncodingLegal.Statement; decide)

theorem EncodingLegal.xformFwd (f : Selector) : EncodingLegal.Statement (.xformFwd f) := by
  cases f <;> (unfold EncodingLegal.Statement; decide)

theorem EncodingLegal.xformInv (f : Selector) : EncodingLegal.Statement (.xformInv f) := by
  cases f <;> (unfold EncodingLegal.Statement; decide)

theorem EncodingLegal.symEnc : EncodingLegal.Statement .symEnc := by unfold EncodingLegal.Statement; decide

theorem EncodingLegal.symDec : EncodingLegal.Statement .symDec := by unfold EncodingLegal.Statement; decide

theorem EncodingLegal.mapFwd : EncodingLegal.Statement .mapFwd := by unfold EncodingLegal.Statement; decide

theorem EncodingLegal.mapInv : EncodingLegal.Statement .mapInv := by unfold EncodingLegal.Statement; decide

theorem EncodingLegal.pack : EncodingLegal.Statement .pack := by unfold EncodingLegal.Statement; decide

theorem EncodingLegal.unpack : EncodingLegal.Statement .unpack := by unfold EncodingLegal.Statement; decide

theorem EncodingLegal.encode (f : Selector) : EncodingLegal.Statement (.encode f) := by
  cases f <;> (unfold EncodingLegal.Statement; decide)

theorem EncodingLegal.decode (f : Selector) : EncodingLegal.Statement (.decode f) := by
  cases f <;> (unfold EncodingLegal.Statement; decide)

end Sys2Proof.Laws
end

