-- ==== Sys2Proof/Laws/Step.lean ====
section
/-! SUPPORT. Steps and runs: what the PCC's turn, the reset input and a host access do to a state. -/

namespace Sys2Proof.Machine

theorem core_run_zero (s : State) : Sys2Proof.core.run 0 s = .next s := rfl

/-- A run goes on from the state a step gives. -/
theorem run_succ (M : Host.Core) {s t : M.State} (k : Nat) (h : M.step s = .next t) : M.run (k + 1) s = M.run k t := by
  simp only [Host.Core.run, h]

/-- A run of this machine goes on from the state a step gives. -/
theorem core_run_succ {s t : State} (k : Nat) (h : step s = .next t) :
    Sys2Proof.core.run (k + 1) s = Sys2Proof.core.run k t := run_succ Sys2Proof.core k h

theorem step_nil {s : State} (h : s.agenda = []) : step s = pccTurn s := by simp [step, h]

theorem step_cons {s : State} {e : Event} {rest : List Event} (h : s.agenda = e :: rest) :
    step s = runEvent e { s with agenda := rest } := by simp [step, h]

/-- STATUS is in no output set, so it reads exactly at any time (R67). -/
theorem State.unsettled_status (s : State) : s.unsettled .status = false := by
  simp only [State.unsettled]
  split
  · rfl
  · split
    · rfl
    · rename_i i _
      have : (outputs i s.build).contains Loc.status = false := by
        rw [← Bool.not_eq_true, List.contains_iff_mem]
        cases i <;> simp [outputs, gridLocs, bitbufLocs]
      rw [this]; rfl

theorem wordOutputs_mapped (w : Word) (b : Build) : ∀ l ∈ wordOutputs w b, l.mapped b = true := by
  intro l hl
  simp only [wordOutputs] at hl
  split at hl
  · exact outputs_mapped _ b l hl
  · simp at hl

/-- The PCC's turn goes on in every state. -/
theorem pccTurn_next (s : State) : ∃ t, pccTurn s = .next t := by
  by_cases hr : s.inReset = true
  · exact ⟨s, by simp [pccTurn, hr]⟩
  cases hf : s.inFlight with
  | none => exact ⟨s, by simp [pccTurn, hf]⟩
  | some w =>
    by_cases ht : s.tainted.isEmpty = true
    · cases hd : decode w with
      | ok i => exact ⟨_, by simp only [pccTurn, hr, hf, ht, completeWord, hd, exec_eq_finish]; rfl⟩
      | error e => exact ⟨_, by simp only [pccTurn, hr, hf, ht, completeWord, hd]; rfl⟩
    · exact ⟨s.completeTainted w, by simp [pccTurn, hr, hf, ht]⟩

/-- The PCC's turn with a command in flight, outside reset. -/
theorem pccTurn_of_inFlight {s : State} {w : Word} (hr : s.inReset = false) (hf : s.inFlight = some w) :
    pccTurn s = if s.tainted.isEmpty then completeWord w s else .next (s.completeTainted w) := by
  simp [pccTurn, hr, hf]

/-- The completion step of an untainted command changes STATUS, ERR_INDEX and W(cmd) only. -/
theorem completeWord_sameBut {w : Word} {s t : State} (h : completeWord w s = .next t) :
    s.SameBut (fun l => l = .status ∨ l ∈ wordOutputs w s.build ∨ l = .errIndex ∧ t.status.err = true) t := by
  simp only [completeWord] at h
  split at h
  · rename_i i hd
    have := exec_sameBut h
    simpa only [wordOutputs, hd] using this
  · cases h
    refine (s.sameBut_completeError ⟨.illegalCommand, 0⟩ (outs := []) (by simp)).mono ?_
    rintro l (h | h | h)
    · exact .inl h
    · exact .inr (.inr ⟨h, rfl⟩)
    · simp at h

/-- Every completion leaves no command in flight, BUSY = 0 and DONE = 1 (R201). -/
theorem completeWord_done {w : Word} {s t : State} (h : completeWord w s = .next t) :
    t.inFlight = none ∧ t.tainted = [] ∧ ∃ k, t.status = .completed k := by
  simp only [completeWord] at h
  split at h
  · rcases exec_cases h with ⟨u, -, rfl⟩ | ⟨e, -, rfl⟩
    · exact ⟨rfl, rfl, none, rfl⟩
    · exact ⟨rfl, rfl, some e.kind, rfl⟩
  · cases h; exact ⟨rfl, rfl, some .illegalCommand, rfl⟩

theorem Status.completed_busy (k : Option ErrKind) : (Status.completed k).busy = false := by cases k <;> rfl
theorem Status.completed_done (k : Option ErrKind) : (Status.completed k).done = true := by cases k <;> rfl
theorem Status.completed_legal (k : Option ErrKind) : (Status.completed k).legal = true := by
  cases k with
  | none => decide
  | some k => cases k <;> decide

/-- The completion of a command that a forbidden write has spoilt changes STATUS, ERR_INDEX, W(cmd) and the written
locations only (log 9). -/
theorem State.completeTainted_sameBut (s : State) (w : Word) (ht : ∀ l ∈ s.tainted, l.mapped s.build = true) :
    s.SameBut (fun l => l = .status ∨ l = .errIndex ∨ l ∈ wordOutputs w s.build ∨ l ∈ s.tainted) (s.completeTainted w) := by
  have hm : ∀ l ∈ wordOutputs w s.build ++ s.tainted, l.mapped s.build = true := by
    intro l hl
    rcases List.mem_append.1 hl with hl | hl
    · exact wordOutputs_mapped w s.build l hl
    · exact ht l hl
  refine ⟨?_, ?_, State.scramble_build s _, State.scramble_agenda s _, State.scramble_lastRead s _, State.scramble_inReset s _,
    State.scramble_hostFault s _, State.scramble_resetDraw s _⟩
  · intro l hl hn
    simp only [not_or] at hn
    rw [← State.readLoc_scramble_out s hm hl (by simp [hn.2.2])]
    cases l <;> first | rfl | exact absurd rfl hn.1 | exact absurd rfl hn.2.1
  · intro a ha
    refine State.byteAt_scramble_out s _ fun l hl => ha l (hm l hl) ?_
    rcases List.mem_append.1 hl with hl | hl
    · exact .inr (.inr (.inl hl))
    · exact .inr (.inr (.inr hl))

/-- A host access inside the window goes on; outside it stops (R60, log 13). -/
theorem hostRead_next {s : State} {addr width off : Nat} (h : windowOffset s.build addr = some off) :
    ∃ t, hostRead addr width s = .next t := by simp only [hostRead, h]; exact ⟨_, rfl⟩

theorem hostWrite_next {s : State} {addr width off : Nat} {v : Word} (h : windowOffset s.build addr = some off) :
    ∃ t, hostWrite addr width v s = .next t := by simp only [hostWrite, h]; exact ⟨_, rfl⟩

end Sys2Proof.Machine
end

