-- ==== Sys2Proof/Tests/Slice0.lean ====
section
/-! SUPPORT. The model's own tests. Every expected result is a vector of 95_test_vectors.md, an example of a rule, or a hand
calculation from a rule, named in the test's docstring; none is the model's own answer. The witnesses at the end show a
state and operands that meet the hypotheses of the statements in Certificates/Slice0/Obligations.lean. -/

namespace Sys2Proof.Tests

open Sys2Proof.Machine

-- One test at a time: side by side, the kernel evaluations of so many take more threads than the check's limit allows.
set_option Elab.async false

/-! ### Builds and states for the tests -/

/-- EX13, the example table of R152 (for tests only). -/
def ex13 : CodeTable :=
  [⟨0, [true]⟩] ++
  [⟨1, [false, true, false]⟩, ⟨-1, [false, true, true]⟩] ++
  [⟨2, [false, false, true, false]⟩, ⟨-2, [false, false, true, true]⟩] ++
  [⟨3, [false, false, false, true, false]⟩, ⟨-3, [false, false, false, true, true]⟩] ++
  [⟨4, [false, false, false, false, true, false]⟩, ⟨-4, [false, false, false, false, true, true]⟩] ++
  [⟨5, [false, false, false, false, false, true, false]⟩, ⟨-5, [false, false, false, false, false, true, true]⟩] ++
  [⟨6, [false, false, false, false, false, false, true, false]⟩, ⟨-6, [false, false, false, false, false, false, true, true]⟩]

/-- R150: EX13 is well-formed, so a build may hold it. -/
theorem test_ex13_wf : ex13.wf = true := by decide +kernel

/-- A build of side `n` with EX13 at host address 0x8000. -/
abbrev paramsOf (n : Nat) : Params := { side := n, table := ex13, base := 0x8000, strongOrder := true }

def build1 : Build := ⟨paramsOf 1, by decide +kernel⟩
def build2 : Build := ⟨paramsOf 2, by decide +kernel⟩
def build4 : Build := ⟨paramsOf 4, by decide +kernel⟩
def build16 : Build := ⟨paramsOf 16, by decide +kernel⟩

/-- The machine of a build right after reset. -/
def boot (b : Build) : State := { State.reset with build := b }

/-- A list of words stored at consecutive cells of a buffer. -/
def fill (mk : Nat → Loc) (ws : List Word) (s : State) : State :=
  ((List.range ws.length).zip ws).foldl (fun t p => t.storeLoc (mk p.1) p.2) s

/-- The state a command gives. -/
def after (i : Instr) (s : State) : State :=
  match exec i s with
  | .next t => t
  | _ => s

theorem exec_after (i : Instr) (s : State) : exec i s = .next (after i s) := by cases i <;> rfl

/-! ### Well-formedness: what the checks refuse (R82, R150, R7) -/

/-- T-E1: RSV bit 7 set. -/
theorem test_wf_reserved_bits : Word.reservedClear 0x00000080#32 = false ∧ Word.legal 0x00000080#32 = false := by decide

/-- T-E1: the reserved opcodes. -/
theorem test_wf_reserved_opcode : Word.opcodeAssigned 0x0000000C#32 = false ∧ Word.legal 0x0000000F#32 = false := by decide

/-- R203: ENCODE with SEL 0, and PACK with SEL 1. -/
theorem test_wf_selector : Word.selectorFits 0x0000000A#32 = false ∧ Word.selectorFits 0x00000018#32 = false := by decide

/-- W1: an empty table, and one of 256 entries. -/
theorem test_wf_W1 : CodeTable.countOk [] = false ∧ CodeTable.countOk (List.replicate 256 ⟨0, [true]⟩) = false := by
  decide +kernel

/-- W2: two entries of one value, and a value outside 32 bits. -/
theorem test_wf_W2 : CodeTable.valuesOk [⟨0, [true]⟩, ⟨0, [false]⟩] = false ∧
    CodeTable.valuesOk [⟨2 ^ 31, [true]⟩] = false := by decide +kernel

/-- W3: an empty code, and a code of 25 bits. -/
theorem test_wf_W3 : CodeTable.lengthsOk [⟨0, []⟩] = false ∧
    CodeTable.lengthsOk [⟨0, List.replicate 25 true⟩] = false := by decide +kernel

/-- W4, S7: the codes `0` and `01`, in either order. -/
theorem test_wf_W4 : CodeTable.prefixFree [⟨0, [false]⟩, ⟨1, [false, true]⟩] = false ∧
    CodeTable.prefixFree [⟨1, [false, true]⟩, ⟨0, [false]⟩] = false := by decide +kernel

/-- W5: a table without 0. -/
theorem test_wf_W5 : CodeTable.hasZero [⟨1, [true]⟩] = false := by decide

/-- W6: a code shorter than that of 0. -/
theorem test_wf_W6 : CodeTable.zeroShortest [⟨0, [false, true]⟩, ⟨1, [true]⟩] = false := by decide +kernel

/-- R7: N is 1 to 32, BASE is 32 KiB aligned, and the platform keeps program order. -/
theorem test_wf_params : Params.sideOk (paramsOf 0) = false ∧ Params.sideOk (paramsOf 33) = false ∧
    Params.sideOk (paramsOf 32) = true ∧ Params.baseOk { paramsOf 4 with base := 0x4000 } = false ∧
    Params.wf { paramsOf 4 with strongOrder := false } = false := by decide +kernel

/-! ### Decoding, each word written out from R80 and R81 as RSV, SEL, OP -/

theorem test_decode_nop : decode (0#25 ++ 0b000#3 ++ 0b0000#4) = .ok .nop := by decide
theorem test_decode_predict : decode (0#25 ++ 0b110#3 ++ 0b0001#4) = .ok (.predict .abovegrad) := by decide
theorem test_decode_xformFwd : decode (0#25 ++ 0b111#3 ++ 0b0010#4) = .ok (.xformFwd .mean) := by decide
theorem test_decode_xformInv : decode (0#25 ++ 0b001#3 ++ 0b0011#4) = .ok (.xformInv .left) := by decide
theorem test_decode_symEnc : decode (0#25 ++ 0b000#3 ++ 0b0100#4) = .ok .symEnc := by decide
theorem test_decode_symDec : decode (0#25 ++ 0b000#3 ++ 0b0101#4) = .ok .symDec := by decide
theorem test_decode_mapFwd : decode (0#25 ++ 0b000#3 ++ 0b0110#4) = .ok .mapFwd := by decide
theorem test_decode_mapInv : decode (0#25 ++ 0b000#3 ++ 0b0111#4) = .ok .mapInv := by decide
theorem test_decode_pack : decode (0#25 ++ 0b000#3 ++ 0b1000#4) = .ok .pack := by decide
theorem test_decode_unpack : decode (0#25 ++ 0b000#3 ++ 0b1001#4) = .ok .unpack := by decide
theorem test_decode_encode : decode (0#25 ++ 0b100#3 ++ 0b1010#4) = .ok (.encode .plane) := by decide
theorem test_decode_decode : decode (0#25 ++ 0b100#3 ++ 0b1011#4) = .ok (.decode .plane) := by decide

/-- R83: the SEL values in order. -/
theorem test_decode_selectors :
    [0x11#32, 0x21#32, 0x31#32, 0x41#32, 0x51#32, 0x61#32, 0x71#32].map decode =
      [.ok (.predict .left), .ok (.predict .above), .ok (.predict .diag), .ok (.predict .plane),
       .ok (.predict .leftgrad), .ok (.predict .abovegrad), .ok (.predict .mean)] := by decide

/-- T-E1: words that are not legal, each refused by name. -/
theorem test_decode_illegal :
    [0x80#32, 0x81#32, 0x8A#32, 0xFFFFFFFF#32].map decode = List.replicate 4 (.error .reservedBits) ∧
    [0x0A#32, 0x0B#32, 0x01#32].map decode = List.replicate 3 (.error .selectorMissing) ∧
    [0x18#32, 0x70#32].map decode = List.replicate 2 (.error .selectorNotAllowed) ∧
    [0x0C#32, 0x0F#32, 0x7C#32].map decode = List.replicate 3 (.error .reservedOpcode) := by decide

/-- T-E2: word construction, and the assembler text of R91. -/
theorem test_encode_words :
    [Instr.predict .abovegrad, .xformFwd .mean, .xformInv .mean, .encode .plane, .decode .plane].map encode =
      [0x61#32, 0x72#32, 0x73#32, 0x4A#32, 0x4B#32] ∧ (Instr.encode .plane).text = "ENCODE p4" := by decide

/-- Every row of the opcode table: the decoder reads the row's command from its word. -/
theorem test_decodeTableWord :
    [0x00, 0x11, 0x22, 0x33, 0x04, 0x05, 0x06, 0x07, 0x08, 0x09, 0x6A, 0x7B].map (decodeTableWord 32) =
      [some .nop, some (.predict .left), some (.xformFwd .above), some (.xformInv .diag), some .symEnc, some .symDec,
       some .mapFwd, some .mapInv, some .pack, some .unpack, some (.encode .abovegrad), some (.decode .mean)] := by decide

/-- R200, R201: the step after `withFetchWord` runs the word's command, from the reset state. -/
theorem test_withFetchWord_runs :
    step (State.reset.withFetchWord 32 0x04) =
      exec .symEnc { State.reset with cmd := 0x04#32, status := .inProgress, inFlight := some 0x04#32 } := rfl

/-- P6: `RUN NOP` right after reset leaves STATUS 0x02. -/
theorem test_withFetchWord_nop :
    step (State.reset.withFetchWord 32 0) = .next { State.reset with status := ⟨false, true, false, 0#4⟩ } := rfl

/-- R201: every row's word runs as the first command after reset. -/
theorem test_withFetchWord_next :
    (∃ t, step (State.reset.withFetchWord 32 0x11) = .next t) ∧ (∃ t, step (State.reset.withFetchWord 32 0x22) = .next t) ∧
    (∃ t, step (State.reset.withFetchWord 32 0x33) = .next t) ∧ (∃ t, step (State.reset.withFetchWord 32 0x04) = .next t) ∧
    (∃ t, step (State.reset.withFetchWord 32 0x05) = .next t) ∧ (∃ t, step (State.reset.withFetchWord 32 0x06) = .next t) ∧
    (∃ t, step (State.reset.withFetchWord 32 0x07) = .next t) ∧ (∃ t, step (State.reset.withFetchWord 32 0x08) = .next t) ∧
    (∃ t, step (State.reset.withFetchWord 32 0x09) = .next t) ∧ (∃ t, step (State.reset.withFetchWord 32 0x6A) = .next t) ∧
    (∃ t, step (State.reset.withFetchWord 32 0x7B) = .next t) :=
  ⟨⟨_, rfl⟩, ⟨_, rfl⟩, ⟨_, rfl⟩, ⟨_, rfl⟩, ⟨_, rfl⟩, ⟨_, rfl⟩, ⟨_, rfl⟩, ⟨_, rfl⟩, ⟨_, rfl⟩, ⟨_, rfl⟩, ⟨_, rfl⟩⟩

/-! ### Formats (T-E3, T-M1, T-M2) -/

/-- T-E3. -/
theorem test_code_words : codeWord [false, false, true, true] = 0x04000003#32 ∧ codeWord [true] = 0x01000001#32 ∧
    codeWord (firstCellBits 100) = 0x08000064#32 ∧ codeWord (firstCellBits 255) = 0x080000FF#32 ∧
    codeBits 0x04000012#32 = [false, false, true, false] := by decide +kernel

/-- R152: EX13's canonical words. -/
theorem test_ex13_words : ex13.map (fun e => codeWord e.code) =
    [0x01000001#32, 0x03000002#32, 0x03000003#32, 0x04000002#32, 0x04000003#32, 0x05000002#32, 0x05000003#32,
     0x06000002#32, 0x06000003#32, 0x07000002#32, 0x07000003#32, 0x08000002#32, 0x08000003#32] := by decide +kernel

/-- T-M1: ID for N = 4 and N = 16. -/
theorem test_id : idWord build4 = 0x010D0804#32 ∧ idWord build16 = 0x010D0810#32 := by decide +kernel

/-- The state after the accesses of a list, all of which go on. -/
def accesses (es : List Event) (s : State) : State :=
  es.foldl (fun t e => match runEvent e t with | .next u => u | _ => t) s

/-- What the last read of a list of accesses returns on the N = 4 machine after reset. -/
def reads (es : List Event) : Option Word := (accesses es (boot build4)).lastRead

/-- T-M1: stored bits and read formats. -/
theorem test_register_access :
    reads [wr build4 .opa 0x00018000#32, rd build4 .opa] = some 0xFFFF8000#32 ∧
    reads [wr build4 .opb 0x00010005#32, rd build4 .opb] = some 5#32 ∧
    reads [wr build4 .symIn 0x80000000#32, rd build4 .symIn] = some 0x80000000#32 ∧
    reads [wr build4 .bitLen 0x00012345#32, rd build4 .bitLen] = some 0x2345#32 ∧
    reads [wr build4 .cursor 0xFFFFFFFF#32, rd build4 .cursor] = some 0xFFFF#32 := by decide +kernel

/-- T-M1: buffers, read-only registers, holes, narrow and misaligned accesses. -/
theorem test_window_access :
    reads [wr build4 (.raster 0) 0x1FF#32, rd build4 (.raster 0)] = some 0xFF#32 ∧
    reads [wr build4 (.resid 3) 0xFFFFFFF9#32, rd build4 (.resid 3)] = some 0xFFFFFFF9#32 ∧
    reads [wr build4 .status 0xFFFFFFFF#32, rd build4 .status] = some 0#32 ∧
    [0x03C, 0x040, 0xFFC, 0x1040, 0x6000, 0x7FFC].map (fun o => reads [.hostRead (0x8000 + o) 4]) =
      List.replicate 6 (some 0#32) ∧
    reads [.hostWrite 0x8010 1 0x7F#32, rd build4 .opa] = some 0#32 ∧
    reads [.hostRead 0x8012 4] = some 0#32 := by decide +kernel

/-- R66, T-M2: stream bit 0 is word 0 bit 31, BIT(58) is word 1 bit 5 and BIT(59) is word 1 bit 4. -/
theorem test_stream_bits :
    let s := fill .bitbuf [0x64266A46#32, 0x6C84EC20#32] (boot build4)
    (s.streamBits 12) = [false, true, true, false, false, true, false, false, false, false, true, false] ∧
      s.bit 58 = true ∧ s.bit 59 = false := by decide +kernel

/-- R60: an access outside the window is no access to this hardware. -/
theorem test_outside_window : step { boot build4 with agenda := [.hostRead 0x10000 4] } = .fault .outsideWindow := by rfl

/-! ### The life of a command (T-C1, T-C2) -/

/-- T-C1: acceptance, then IllegalCommand; CMD keeps the word. -/
theorem test_illegal_word :
    let s := accesses [wr build4 .cmd 0x0C#32] (boot build4)
    let t := accesses [.pccTurn] s
    s.status.word = 0x01#32 ∧ t.status.word = 0x36#32 ∧ t.errIndex = 0#16 ∧ t.cmd = 0x0C#32 := by decide +kernel

/-- T-C2 (a): a write to CMD while BUSY is dropped. -/
theorem test_busy_cmd_write :
    (accesses [wr build4 .cmd 0x61#32, wr build4 .cmd 0#32] (boot build4)).cmd = 0x61#32 := by decide +kernel

/-- T-Z1: UNPACK and SYM_DEC right after reset. -/
theorem test_after_reset :
    (after .unpack (boot build4)).status.word = 0x26#32 ∧ (after .symDec (boot build4)).status.word = 0x26#32 ∧
    (after .unpack (boot build4)).errIndex = 0#16 := by decide +kernel

/-! ### The commands -/

/-- T-P1 (P6): PREDICT p6 of 10, 20, 13. -/
theorem test_predict_p6 :
    (after (.predict .abovegrad) { boot build4 with opa := 10#16, opb := 20#16, opc := 13#16 }).predOut = 19#32 := by
  decide +kernel

/-- S4, S3, T-P1: negative odd sums truncate toward zero, and the 16-bit extremes stay exact. -/
theorem test_predict_truncates :
    (after (.predict .mean) { boot build4 with opa := 0xFFFD#16, opb := 0xFFFE#16 }).predOut = 0xFFFFFFFE#32 ∧
    (after (.predict .abovegrad) { boot build4 with opa := 3#16, opc := 6#16 }).predOut = 0xFFFFFFFF#32 ∧
    (after (.predict .plane) { boot build4 with opa := 0x8000#16, opb := 0x8000#16, opc := 0x7FFF#16 }).predOut =
      0xFFFE8001#32 := by decide +kernel

/-- S3: N = 2, the raster 13, 15, 10, 14. -/
def s3 : State := fill .raster [13#32, 15#32, 10#32, 14#32] (boot build2)

/-- S3: XFORM_FWD p6. -/
theorem test_xformFwd : (after (.xformFwd .abovegrad) s3).residCells = [13, 2, -3, 0] := by decide +kernel

/-- S3: XFORM_INV p6 on the residuals 13, 2, −3, 0. -/
theorem test_xformInv :
    (after (.xformInv .abovegrad) (fill .resid [13#32, 2#32, 0xFFFFFFFD#32, 0#32] (boot build2))).reconCells =
      [13, 15, 10, 14] := by decide +kernel

/-- T-G1 in small: a residual that leaves 0..255 at cell 0. -/
theorem test_xformInv_range :
    let t := after (.xformInv .plane) (fill .resid [256#32, 0#32, 0#32, 0#32] (boot build2))
    t.status.word = 0x26#32 ∧ t.errIndex = 0#16 := by decide +kernel

/-- R156: SYM_IN = −2. -/
theorem test_symEnc : (after .symEnc { boot build4 with symIn := 0xFFFFFFFE#32 }).codeOut = 0x04000003#32 := by
  decide +kernel

/-- S6: SYM_IN = 7 and −7. -/
theorem test_symEnc_outside :
    (after .symEnc { boot build4 with symIn := 7#32 }).status.word = 0x16#32 ∧
    (after .symEnc { boot build4 with symIn := 0xFFFFFFF9#32 }).status.word = 0x16#32 := by decide +kernel

/-- R157: BITBUF word 0 = 0x64266A46, BIT_LEN 60, CURSOR 8. -/
theorem test_symDec :
    let t := after .symDec (fill .bitbuf [0x64266A46#32, 0x6C84EC20#32] { boot build4 with bitLen := 60#16, cursor := 8#16 })
    t.symOut = 2#32 ∧ t.consumed = 4#8 ∧ t.cursor = 12#16 ∧ t.status.word = 0x02#32 := by decide +kernel

/-- R157: `01` at the end of the stream, and T-G1: BIT_LEN 40000 with CURSOR 50000. -/
theorem test_symDec_errors :
    (after .symDec (fill .bitbuf [0x40000000#32] { boot build4 with bitLen := 2#16 })).status.word = 0x26#32 ∧
    (after .symDec { boot build4 with bitLen := 40000#16, cursor := 50000#16 }).status.word = 0x46#32 := by decide +kernel

/-- R158: the residuals 100, 2, −1 and 6. -/
theorem test_mapFwd :
    (after .mapFwd (fill .resid [100#32, 2#32, 0xFFFFFFFF#32, 6#32] (boot build2))).codeCells =
      [0x08000064#32, 0x04000002#32, 0x03000003#32, 0x08000002#32] := by decide +kernel

/-- T-G2 in small: the first cell that cannot be coded is reported. -/
theorem test_mapFwd_first :
    let t := after .mapFwd (fill .resid [100#32, 0#32, 9#32, 7#32] (boot build2))
    t.status.word = 0x16#32 ∧ t.errIndex = 2#16 := by decide +kernel

/-- R159: cell 0 is the first-cell field, even where its word is also the code of +6. -/
theorem test_mapInv :
    (after .mapInv (fill .codegrid [0x08000002#32, 0x04000002#32, 0x03000003#32, 0x08000002#32] (boot build2))).residCells =
      [2, 2, -1, 6] := by decide +kernel

/-- R159: the word 0x04000012 is not canonical. -/
theorem test_mapInv_strict :
    let t := after .mapInv (fill .codegrid [0x08000064#32, 0x04000012#32, 0#32, 0#32] (boot build2))
    t.status.word = 0x26#32 ∧ t.errIndex = 1#16 := by decide +kernel

/-- R180: bits above LEN are ignored, LEN 0 adds nothing, and the bits beyond the stream keep their values. -/
theorem test_pack :
    let t := after .pack (fill .bitbuf [0xFFFFFFFF#32]
      (fill .codegrid [0x08000064#32, 0x04000012#32, 0x00FFFFFF#32, 0x03000003#32] (boot build2)))
    t.bitLen = 15#16 ∧ t.readLoc (.bitbuf 0) = 0x6427FFFF#32 := by decide +kernel

/-- T-G1: CODEGRID[1] = 0x19000000. -/
theorem test_pack_bad_length :
    let t := after .pack (fill .codegrid [0x08000064#32, 0x19000000#32, 0#32, 0#32] (boot build2))
    t.status.word = 0x46#32 ∧ t.errIndex = 1#16 := by decide +kernel

/-- R183: three codes after the first-cell field, and one bit left over. -/
theorem test_unpack :
    let t := after .unpack (fill .bitbuf [0x64270000#32] { boot build2 with bitLen := 17#16 })
    t.codeCells = [0x08000064#32, 0x04000002#32, 0x03000003#32, 0x01000001#32] ∧ t.bitPos = 16#16 := by decide +kernel

/-- R181: the example that fails at cell 3, where pos = end. -/
theorem test_unpack_exhausted :
    let t := after .unpack (fill .bitbuf [0x64260000#32] { boot build2 with bitLen := 15#16 })
    t.status.word = 0x26#32 ∧ t.errIndex = 3#16 := by decide +kernel

/-- S3: ENCODE p6. -/
theorem test_encode :
    let t := after (.encode .abovegrad) (fill .bitbuf [0#32] s3)
    t.bitLen = 18#16 ∧ t.readLoc (.bitbuf 0) = 0x0D21C000#32 ∧ t.residCells = [13, 2, -3, 0] := by decide +kernel

/-- S6 in small: the raster 0, 7, 7, 7 under p1. -/
theorem test_encode_outside :
    let t := after (.encode .left) (fill .raster [0#32, 7#32, 7#32, 7#32] (boot build2))
    t.status.word = 0x16#32 ∧ t.errIndex = 1#16 := by decide +kernel

/-- S3: DECODE p6. -/
theorem test_decode :
    let t := after (.decode .abovegrad) (fill .bitbuf [0x0D21C000#32] { boot build2 with bitLen := 18#16 })
    t.reconCells = [13, 15, 10, 14] ∧ t.bitPos = 18#16 ∧ t.status.word = 0x02#32 := by decide +kernel

/-- S5 in small: one bit cut. -/
theorem test_decode_truncated :
    let t := after (.decode .abovegrad) (fill .bitbuf [0x0D21C000#32] { boot build2 with bitLen := 17#16 })
    t.status.word = 0x26#32 ∧ t.errIndex = 3#16 := by decide +kernel

/-- T-X1: ENCODE p4 on the reference raster, N = 4. -/
theorem test_encode_reference :
    let t := after (.encode .plane) (fill .bitbuf [0#32, 0#32] (fill .raster
      [100#32, 102#32, 101#32, 99#32, 101#32, 103#32, 104#32, 100#32, 99#32, 100#32, 103#32, 102#32, 98#32, 99#32, 101#32,
       104#32] (boot build4)))
    t.bitLen = 60#16 ∧ t.readLoc (.bitbuf 0) = 0x64266A46#32 ∧ t.readLoc (.bitbuf 1) = 0x6C84EC20#32 := by decide +kernel

/-! ### Witnesses: a state and operands that meet the hypotheses of each statement, clause by clause -/

/-- An entry of EX13. -/
abbrev zero : Entry := ⟨0, [true]⟩
abbrev minusOne : Entry := ⟨-1, [false, true, true]⟩
abbrev two : Entry := ⟨2, [false, false, true, false]⟩
abbrev minusThree : Entry := ⟨-3, [false, false, false, true, true]⟩

/-- The N = 2 machine with a command accepted. -/
def busyWith (w : Word) : State := (boot build2).accept w

theorem witness_LegalWordsAreTheDecodedOnes :
    (¬ ∃ i, decode 0x0000000C#32 = .ok i) ∧ ∃ s : State, s.inReset = false ∧ s.status.busy = false :=
  ⟨(fun h => by obtain ⟨_, h⟩ := h; cases h), boot build2, rfl, rfl⟩

theorem witness_CodeWordsDenoteTheirBits :
    (∃ bs : List Bool, bs.length = 1) ∧ (∃ bs : List Bool, bs.length = 24) ∧
    (∃ w : Word, (w.extractLsb' 24 8).toNat = 0) ∧ ∃ w : Word, (w.extractLsb' 24 8).toNat = 24 :=
  ⟨⟨[true], rfl⟩, ⟨List.replicate 24 true, rfl⟩, ⟨0x00FFFFFF#32, by decide⟩, ⟨0x18ABCDEF#32, by decide⟩⟩

theorem witness_CmdWriteAcceptsOrIsDropped :
    (∃ s : State, s.inReset = false ∧ s.status.busy = false) ∧ ∃ s : State, s.inReset = false ∧ s.status.busy = true :=
  ⟨⟨boot build2, rfl, rfl⟩, ⟨busyWith 0#32, rfl, rfl⟩⟩

theorem witness_StepRunsTheDecodedCommand :
    (∃ (s : State) (w : Word) (i : Instr), s.inReset = false ∧ s.inFlight = some w ∧ s.tainted = [] ∧ decode w = .ok i ∧
      s.agenda = []) ∧
    ∃ (s : State) (w : Word) (i : Instr) (rest : List Event), s.inReset = false ∧ s.inFlight = some w ∧ s.tainted = [] ∧
      decode w = .ok i ∧ s.agenda = .pccTurn :: rest :=
  ⟨⟨busyWith 0x4A#32, 0x4A#32, .encode .plane, by decide +kernel⟩,
   ⟨(boot build2).issueNext 0x4A#32, 0x4A#32, .encode .plane, [], by decide +kernel⟩⟩

/-- One word for each way of R203 to be illegal. -/
theorem witness_IllegalWordChangesNothingElse :
    (∃ s : State, s.inReset = false ∧ s.inFlight = some 0x80#32 ∧ s.tainted = []) ∧
    (0x80#32).extractLsb' 7 25 ≠ 0#25 ∧ 0xC ≤ ((0x0C#32).extractLsb' 0 4).toNat ∧
    (((0x0A#32).extractLsb' 0 4).toNat ∈ [0x1, 0x2, 0x3, 0xA, 0xB] ∧ (0x0A#32).extractLsb' 4 3 = 0#3) ∧
    (((0x18#32).extractLsb' 0 4).toNat ∉ [0x1, 0x2, 0x3, 0xA, 0xB] ∧ (0x18#32).extractLsb' 4 3 ≠ 0#3) :=
  ⟨⟨busyWith 0x80#32, rfl, rfl, rfl⟩, by decide⟩

theorem witness_AcceptedCommandCompletes :
    ∃ (s : State) (w : Word), s.inReset = false ∧ s.inFlight = some w ∧ s.status.busy = true ∧
      s.agenda = [rd s.build .status, wr s.build .opa 1#32, .pccTurn] ∧
      ∀ e ∈ s.agenda, e = .pccTurn ∨
        (∃ addr width, e = .hostRead addr width ∧ s.build.base ≤ addr ∧ addr < s.build.base + 0x8000) ∨
        (∃ addr width v, e = .hostWrite addr width v ∧ s.build.base ≤ addr ∧ addr < s.build.base + 0x8000) := by
  refine ⟨{ busyWith 0#32 with agenda := [rd build2 .status, wr build2 .opa 1#32, .pccTurn] }, 0#32, rfl, rfl, rfl, rfl, ?_⟩
  intro e he
  simp only [List.mem_cons, List.not_mem_nil, or_false] at he
  obtain rfl | rfl | rfl := he
  · exact .inr (.inl ⟨_, _, rfl, by decide +kernel, by decide +kernel⟩)
  · exact .inr (.inr ⟨_, _, _, rfl, by decide +kernel, by decide +kernel⟩)
  · exact .inl rfl

theorem witness_RunIsTheSameAtEveryLatency : ∃ s : State, s.inReset = false ∧ s.status.busy = false :=
  ⟨boot build2, rfl, rfl⟩

/-- Each clause at a boundary: a byte access, offset 2, the first and last hole words, the first word past the windows, and
cell CELLS of the first and last grid. -/
theorem witness_UnsupportedAndUnmappedAccesses :
    ∃ s : State, s.inReset = false ∧ s.build.cells = 4 ∧
      (1 ≠ 4) ∧ (2 % 4 ≠ 0) ∧ (0x03C ≤ 0x03C ∧ 0x03C < 0x1000) ∧ (0x03C ≤ 0xFFC ∧ 0xFFC < 0x1000) ∧ 0x6000 ≤ 0x6000 ∧
      0x7FFC < 0x8000 ∧ (0x1000 ≤ 0x1010 ∧ 0x1010 < 0x5000 ∧ s.build.cells ≤ 0x1010 % 0x1000 / 4) ∧
      (0x1000 ≤ 0x4FFC ∧ 0x4FFC < 0x5000 ∧ s.build.cells ≤ 0x4FFC % 0x1000 / 4) := ⟨boot build2, by decide +kernel⟩

theorem witness_HostWritesStoreTheNamedBits :
    ∃ s : State, s.inReset = false ∧ s.status.busy = false ∧
      (∀ l ∈ [Loc.opa, .opb, .opc, .symIn, .cursor, .bitLen, .raster 3, .resid 0, .codegrid 3, .bitbuf 1023],
        l.mapped s.build = true) ∧
      (∀ l ∈ [Loc.status, .errIndex, .id, .predOut, .codeOut, .symOut, .consumed, .bitPos, .recon 3, .cmd],
        l.mapped s.build = true) := ⟨boot build2, by decide +kernel⟩

theorem witness_ReadsHaveNoSideEffect :
    (∃ (s t : State) (addr width : Nat), hostRead addr width s = .next t) ∧
    ∃ (s t : State) (l : Loc) (v : Word), s.status.busy = false ∧ l.mapped s.build = true ∧ l.hostWritable = true ∧
      hostWrite (s.build.base + l.offset) 4 v s = .next t :=
  ⟨⟨boot build2, _, 0x8000, 4, rfl⟩, ⟨boot build2, _, .raster 3, 0x1FF#32, rfl, by decide +kernel, rfl, rfl⟩⟩

/-- Idle; an illegal word in flight; a command that does not list the location; and PACK and ENCODE with the first BITBUF word
beyond their streams of 32 and 18 bits. -/
theorem witness_BusyReadsOutsideTheOutputsAreExact :
    (∃ s : State, s.inReset = false ∧ s.status.busy = false ∧ Loc.mapped s.build (.bitbuf 1023) = true) ∧
    (∃ (s : State) (w : Word), s.inReset = false ∧ s.status.busy = true ∧ s.inFlight = some w ∧ ∀ i, decode w ≠ .ok i) ∧
    (∃ (s : State) (w : Word) (i : Instr), s.inReset = false ∧ s.status.busy = true ∧ s.inFlight = some w ∧
      decode w = .ok i ∧ ∀ l ∈ [Loc.status, .cmd, .id, .raster 3, .bitbuf 0], l.mapped s.build = true ∧ l ∉ outputs i s.build) ∧
    (∃ s t : State, s.inReset = false ∧ s.status.busy = true ∧ s.inFlight = some 0x08#32 ∧ decode 0x08#32 = .ok .pack ∧
      s.tainted = [] ∧ exec .pack s = .next t ∧ t.status.err = false ∧ t.bitLen.toNat = 32 * 1) ∧
    ∃ s t : State, s.inReset = false ∧ s.status.busy = true ∧ s.inFlight = some 0x6A#32 ∧
      decode 0x6A#32 = .ok (.encode .abovegrad) ∧ s.tainted = [] ∧ exec (.encode .abovegrad) s = .next t ∧
      t.status.err = false ∧ t.bitLen.toNat ≤ 32 * 1 :=
  ⟨⟨boot build2, rfl, rfl, by decide +kernel⟩,
   ⟨busyWith 0x0C#32, 0x0C#32, rfl, rfl, rfl, fun i h => by cases h⟩,
   ⟨busyWith 0x42#32, 0x42#32, .xformFwd .plane, by decide +kernel⟩,
   ⟨(fill .codegrid [0x08000064#32, 0#32, 0x18ABCDEF#32, 0#32] (fill .bitbuf [0#32] (boot build2))).accept 0x08#32, _, rfl, rfl,
    rfl, by decide, rfl, exec_after _ _, by decide +kernel⟩,
   ⟨(fill .bitbuf [0#32] s3).accept 0x6A#32, _, rfl, rfl, rfl, by decide, rfl, exec_after _ _, by decide +kernel⟩⟩

/-- A first write, an illegal word in flight, and a second write to another location. -/
theorem witness_BusyWriteSpoilsTheCommand :
    (∃ (s : State) (w : Word) (l l' : Loc), s.inReset = false ∧ s.status.busy = true ∧ s.inFlight = some w ∧
      s.tainted = [] ∧ l.mapped s.build = true ∧ l ≠ .cmd ∧ l'.mapped s.build = true ∧
      (∀ i, decode w = .ok i → l' ∉ outputs i s.build) ∧ l' ≠ l ∧ l' ≠ .status ∧ l' ≠ .errIndex) ∧
    (∃ (s : State) (w : Word) (l : Loc), s.inReset = false ∧ s.status.busy = true ∧ s.inFlight = some w ∧
      (∀ i, decode w ≠ .ok i) ∧ s.tainted = [] ∧ l.mapped s.build = true ∧ l ≠ .cmd) ∧
    ∃ (s : State) (w : Word) (l l' : Loc), s.inReset = false ∧ s.status.busy = true ∧ s.inFlight = some w ∧
      s.tainted = [.opa] ∧ (∀ x ∈ s.tainted, x.mapped s.build = true) ∧ l.mapped s.build = true ∧ l ≠ .cmd ∧
      l'.mapped s.build = true ∧ (∀ i, decode w = .ok i → l' ∉ outputs i s.build) ∧ l' ≠ l ∧ l' ∉ s.tainted :=
  ⟨⟨busyWith 0x61#32, 0x61#32, .opa, .opb, rfl, rfl, rfl, rfl, rfl, by decide, rfl, (fun i h => by cases h; decide), by decide,
    by decide, by decide⟩,
   ⟨busyWith 0x0C#32, 0x0C#32, .opa, rfl, rfl, rfl, (fun i h => by cases h), rfl, rfl, by decide⟩,
   ⟨(busyWith 0x61#32).taint .opa, 0x61#32, .raster 3, .opb, rfl, rfl, rfl, rfl, by decide +kernel, by decide +kernel, by decide,
    rfl, (fun i h => by cases h; decide), by decide, by decide⟩⟩

theorem witness_IdReportsTheConfiguration :
    ∃ (s t : State) (v : Word), hostWrite (s.build.base + 0x00C) 4 v s = .next t := ⟨boot build2, _, 0#32, rfl⟩

theorem witness_NothingHappensDuringReset : ∃ (s : State) (off : Nat), s.inReset = true ∧ off < 0x8000 :=
  ⟨(boot build2).assertReset, 0x7FFC, rfl, by decide⟩

/-- Both ends of the samples' range; 0, 0, 255 and 255, 255, 0 are the extremes of T-P1. -/
theorem witness_PredictionsFromSamplesAreBounded :
    predict .plane 0 0 255 = -255 ∧ predict .plane 255 255 0 = 510 ∧ predict .leftgrad 0 0 255 = -127 ∧
    predict .abovegrad 255 255 0 = 382 ∧ predict .mean 255 255 255 = 255 := by decide +kernel

/-- A cell of the first row, one of the first column and one inside. -/
theorem witness_XformFwdWritesTheResidualGrid : ∃ (s : State) (r c : Nat), 0 < r ∧ r < s.build.side ∧ 0 < c ∧ c < s.build.side :=
  ⟨s3, 1, 1, by decide +kernel⟩

theorem witness_ResidualsAreBounded : ∃ (s t : State) (i : Nat), exec (.xformFwd .plane) s = .next t ∧
    s.build.side ≤ i ∧ i < s.build.side * s.build.side ∧ i % s.build.side ≠ 0 :=
  ⟨s3, after (.xformFwd .plane) s3, 3, exec_after _ _, by decide +kernel⟩

theorem witness_XformInvRebuildsTheRaster :
    ∃ (s : State) (ys : List Int), ys.length = s.build.cells ∧ (∀ y ∈ ys, 0 ≤ y ∧ y ≤ 255) ∧
      s.residCells = residuals s.build.side .abovegrad ys :=
  ⟨after (.xformFwd .abovegrad) s3, [13, 15, 10, 14], by decide +kernel⟩

/-- The residuals 255, 1: cell 1 would be 256. -/
theorem witness_XformInvReportsTheFirstBadCell :
    ∃ (f : Selector) (s : State) (ys : List Int) (x : Int), ys.length < s.build.cells ∧ (∀ y ∈ ys, 0 ≤ y ∧ y ≤ 255) ∧
      (∀ j, j < ys.length →
        ys.getD j 0 = s.residCells.getD j 0 + predictionAt s.build.side f (fun k => ys.getD k 0) j) ∧
      x = s.residCells.getD ys.length 0 + predictionAt s.build.side f (fun k => ys.getD k 0) ys.length ∧ (x < 0 ∨ 255 < x) :=
  ⟨.left, fill .resid [255#32, 1#32, 0#32, 0#32] (boot build2), [255], 256, by decide +kernel⟩

/-- Two rasters that differ after cell 1 only, and two residual grids that do. -/
theorem witness_ResidualsAreCausal :
    (∃ s s' t t' : State, s'.build = s.build ∧ 1 < s.build.cells ∧
      (∀ j, j ≤ 1 → s'.readLoc (.raster j) = s.readLoc (.raster j)) ∧ s'.readLoc (.raster 2) ≠ s.readLoc (.raster 2) ∧
      exec (.xformFwd .left) s = .next t ∧ exec (.xformFwd .left) s' = .next t') ∧
    ∃ s s' t t' : State, s'.build = s.build ∧ 1 < s.build.cells ∧
      (∀ j, j ≤ 1 → s'.readLoc (.resid j) = s.readLoc (.resid j)) ∧ s'.readLoc (.resid 2) ≠ s.readLoc (.resid 2) ∧
      exec (.xformInv .left) s = .next t ∧ exec (.xformInv .left) s' = .next t' ∧ t.status.err = false ∧ t'.status.err = false :=
  ⟨⟨s3, fill .raster [13#32, 15#32, 0#32, 0#32] (boot build2), _, _, by decide +kernel, by decide +kernel, by decide +kernel,
    by decide +kernel, exec_after _ _, exec_after _ _⟩,
   ⟨fill .resid [13#32, 2#32, 0xFFFFFFFD#32, 0#32] (boot build2), fill .resid [13#32, 2#32, 1#32, 1#32] (boot build2), _, _,
    by decide +kernel, by decide +kernel, by decide +kernel, by decide +kernel, exec_after _ _, exec_after _ _, by decide +kernel,
    by decide +kernel⟩⟩

theorem witness_TableOrderHasNoEffect : ∃ t t' : CodeTable, t.wf = true ∧ t.Perm t' ∧ t' ≠ t :=
  ⟨ex13, ex13.reverse, by decide +kernel, (List.reverse_perm _).symm, by decide +kernel⟩

theorem witness_LookupsAreInverse :
    ∃ (t : CodeTable) (v : Int) (bs : List Bool), t.wf = true ∧ encodeSymbol t v = some bs ∧ minusThree ∈ t :=
  ⟨ex13, -3, minusThree.code, by decide +kernel⟩

theorem witness_GridMappingIsInverse :
    (∃ s t : State, exec .mapFwd s = .next t ∧ t.status.err = false) ∧
    ∃ (s t u v : State) (i : Nat), exec .symEnc s = .next t ∧ t.status.err = false ∧ u.build = s.build ∧ 0 < i ∧
      i < u.build.cells ∧ u.readLoc (.codegrid i) = t.readLoc .codeOut ∧ exec .mapInv u = .next v ∧ v.status.err = false :=
  ⟨⟨fill .resid [100#32, 2#32, 0xFFFFFFFF#32, 6#32] (boot build2), _, exec_after _ _, by decide +kernel⟩,
   ⟨{ boot build2 with symIn := 2#32 }, _,
    fill .codegrid [0x08000064#32, 0x04000002#32, 0x03000003#32, 0x01000001#32] (boot build2), _, 1, exec_after _ _,
    by decide +kernel, rfl, by decide, by decide +kernel, by decide +kernel, exec_after _ _, by decide +kernel⟩⟩

theorem witness_SymEncLooksUpTheSymbol :
    (∃ s : State, ∃ e ∈ s.build.table, s.symIn.toInt = e.value) ∧
    ∃ s : State, ∀ e ∈ s.build.table, s.symIn.toInt ≠ e.value :=
  ⟨⟨{ boot build2 with symIn := 0xFFFFFFFD#32 }, minusThree, by decide +kernel⟩,
   ⟨{ boot build2 with symIn := 0xFFFFFFF9#32 }, by decide +kernel⟩⟩

/-- A code that ends exactly at BIT_LEN. -/
theorem witness_SymDecMatchesAtTheCursor :
    ∃ (s : State) (e : Entry), e ∈ s.build.table ∧ s.bitLen.toNat ≤ 32768 ∧
      s.cursor.toNat + e.code.length ≤ s.bitLen.toNat ∧
      ∀ j, j < e.code.length → s.bit (s.cursor.toNat + j) = e.code.getD j false :=
  ⟨fill .bitbuf [0x64266A46#32] { boot build2 with bitLen := 12#16, cursor := 8#16 }, two, by decide +kernel⟩

theorem witness_SymDecReportsItsErrors :
    (∃ s : State, 32768 < s.bitLen.toNat) ∧ (∃ s : State, s.bitLen.toNat < s.cursor.toNat) ∧
    ∃ s : State, s.bitLen.toNat ≤ 32768 ∧ s.cursor.toNat ≤ s.bitLen.toNat ∧
      ∀ e ∈ s.build.table, s.cursor.toNat + e.code.length ≤ s.bitLen.toNat →
        ∃ j, j < e.code.length ∧ s.bit (s.cursor.toNat + j) ≠ e.code.getD j false :=
  ⟨⟨{ boot build2 with bitLen := 32769#16 }, by decide⟩, ⟨{ boot build2 with cursor := 1#16 }, by decide⟩,
   ⟨fill .bitbuf [0x40000000#32] { boot build2 with bitLen := 2#16 }, by decide +kernel⟩⟩

theorem witness_MapFwdCodesTheGrid :
    ∃ s : State, (0 ≤ (s.readLoc (.resid 0)).toInt ∧ (s.readLoc (.resid 0)).toInt ≤ 255) ∧
      ∀ i, i < s.build.cells → 0 < i → ∃ e ∈ s.build.table, e.value = (s.readLoc (.resid i)).toInt :=
  ⟨fill .resid [255#32, 2#32, 0xFFFFFFFA#32, 6#32] (boot build2), by decide +kernel⟩

/-- Cell 0 at −1 and at 256, and cell 2 outside the alphabet. -/
theorem witness_MapFwdReportsTheFirstUncodableCell :
    (∃ s : State, (s.readLoc (.resid 0)).toInt < 0) ∧ (∃ s : State, 255 < (s.readLoc (.resid 0)).toInt) ∧
    ∃ s : State, 2 < s.build.cells ∧
      (∀ j, j < 2 → if j = 0 then 0 ≤ (s.readLoc (.resid 0)).toInt ∧ (s.readLoc (.resid 0)).toInt ≤ 255
        else ∃ e ∈ s.build.table, e.value = (s.readLoc (.resid j)).toInt) ∧
      ∀ e ∈ s.build.table, e.value ≠ (s.readLoc (.resid 2)).toInt :=
  ⟨⟨fill .resid [0xFFFFFFFF#32] (boot build2), by decide +kernel⟩, ⟨fill .resid [256#32] (boot build2), by decide +kernel⟩,
   ⟨fill .resid [0#32, 2#32, 7#32, 9#32] (boot build2), by decide +kernel⟩⟩

theorem witness_MapInvReadsCanonicalWords :
    ∃ (s : State) (v : Byte), s.readLoc (.codegrid 0) = 0x08000000#32 + v.setWidth 32 ∧
      ∀ i, i < s.build.cells → 0 < i → ∃ e ∈ s.build.table, s.readLoc (.codegrid i) = codeWord e.code :=
  ⟨fill .codegrid [0x080000FF#32, 0x04000002#32, 0x03000003#32, 0x01000001#32] (boot build2), 255#8, by decide +kernel⟩

theorem witness_MapInvReportsTheFirstBadWord :
    (∃ s : State, (s.readLoc (.codegrid 0)).extractLsb' 8 24 ≠ 0x080000#24) ∧
    ∃ s : State, 2 < s.build.cells ∧
      (∀ j, j < 2 → if j = 0 then (s.readLoc (.codegrid 0)).extractLsb' 8 24 = 0x080000#24
        else ∃ e ∈ s.build.table, s.readLoc (.codegrid j) = codeWord e.code) ∧
      ∀ e ∈ s.build.table, s.readLoc (.codegrid 2) ≠ codeWord e.code :=
  ⟨⟨fill .codegrid [0x04000002#32] (boot build2), by decide +kernel⟩,
   ⟨fill .codegrid [0x08000000#32, 0x04000002#32, 0x04000012#32] (boot build2), by decide +kernel⟩⟩

/-- Lengths 8, 0, 24 and 3. -/
theorem witness_PackConcatenatesTheCells :
    ∃ s : State, ∀ i, i < s.build.cells → ((s.readLoc (.codegrid i)).extractLsb' 24 8).toNat ≤ 24 :=
  ⟨fill .codegrid [0x08000064#32, 0#32, 0x18ABCDEF#32, 0x03000003#32] (boot build2), by decide +kernel⟩

/-- A stream whose last bit is left over. -/
theorem witness_UnpackParsesTheStream :
    ∃ (s : State) (v : Byte) (es : List Entry), s.bitLen.toNat ≤ 32768 ∧ es.length + 1 = s.build.cells ∧
      (∀ e ∈ es, e ∈ s.build.table) ∧ firstCellBits v.toNat ++ es.flatMap Entry.code <+: s.streamBits s.bitLen.toNat :=
  ⟨fill .bitbuf [0x64270000#32] { boot build2 with bitLen := 17#16 }, 100#8, [two, minusOne, zero], by decide +kernel⟩

/-- Seven bits, and a stream that ends after two codes. -/
theorem witness_UnpackReportsTheFirstCellItCannotFill :
    (∃ s : State, s.bitLen.toNat ≤ 32768 ∧ s.bitLen.toNat = 7) ∧
    ∃ (s : State) (first rest : List Bool) (es : List Entry), s.bitLen.toNat ≤ 32768 ∧ first.length = 8 ∧
      es.length + 1 < s.build.cells ∧ (∀ e ∈ es, e ∈ s.build.table) ∧
      s.streamBits s.bitLen.toNat = first ++ es.flatMap Entry.code ++ rest ∧ ∀ e ∈ s.build.table, ¬ e.code <+: rest :=
  ⟨⟨{ boot build2 with bitLen := 7#16 }, by decide⟩,
   ⟨fill .bitbuf [0x64260000#32] { boot build2 with bitLen := 15#16 }, firstCellBits 100, [], [two, minusOne],
    by decide +kernel⟩⟩

/-- Two stores that differ beyond BIT_LEN = 18 only. -/
theorem witness_OnlyTheStreamBitsMatter :
    ∃ (s : State) (m : Memory) (t t' : State), m ≠ s.mem ∧
      (∀ k, k < s.bitLen.toNat → State.bit { s with mem := m } k = s.bit k) ∧
      exec (.decode .abovegrad) s = .next t ∧ exec (.decode .abovegrad) { s with mem := m } = .next t' ∧ t.status.err = false :=
  ⟨fill .bitbuf [0x0D21C000#32] { boot build2 with bitLen := 18#16 }, (fill .bitbuf [0x0D21FFFF#32] (boot build2)).mem, _, _,
    by decide +kernel, by decide +kernel, exec_after _ _, exec_after _ _, by decide +kernel⟩

theorem witness_TruncationAlwaysFails :
    ∃ (s t : State) (len : BitVec 16), exec .unpack s = .next t ∧ t.status.err = false ∧
      (t.readLoc .bitPos).toNat = s.bitLen.toNat ∧ len.toNat < s.bitLen.toNat :=
  ⟨fill .bitbuf [0x0D21C000#32] { boot build2 with bitLen := 18#16 }, _, 17#16, exec_after _ _, by decide +kernel⟩

theorem witness_PackThenUnpackRestoresTheGrid :
    ∃ s t : State, exec .mapFwd s = .next t ∧ t.status.err = false :=
  ⟨after (.xformFwd .abovegrad) s3, _, exec_after _ _, by decide +kernel⟩

theorem witness_StreamLengthOfAMappedGrid :
    ∃ s t : State, exec .mapFwd s = .next t ∧ t.status.err = false ∧ s.build.cells = 1 :=
  ⟨fill .resid [255#32] (boot build1), _, exec_after _ _, by decide +kernel⟩

theorem witness_EncodeWritesTheStream :
    ∃ (f : Selector) (s : State) (es : List Entry), (∀ e ∈ es, e ∈ s.build.table) ∧
      es.map Entry.value = (residuals s.build.side f s.rasterCells).tail :=
  ⟨.abovegrad, s3, [two, minusThree, zero], by decide +kernel⟩

theorem witness_ConstantRasterEncodesToTheShortestCode :
    ∃ (s : State) (k : Byte), ∀ i, i < s.build.cells → s.readLoc (.raster i) = k.setWidth 32 :=
  ⟨fill .raster [255#32, 255#32, 255#32, 255#32] (boot build2), 255#8, by decide +kernel⟩

theorem witness_DecodeRecoversTheRaster :
    ∃ (f : Selector) (s : State) (ys : List Int) (es : List Entry), s.bitLen.toNat ≤ 32768 ∧ ys.length = s.build.cells ∧
      (∀ y ∈ ys, 0 ≤ y ∧ y ≤ 255) ∧ (∀ e ∈ es, e ∈ s.build.table) ∧
      es.map Entry.value = (residuals s.build.side f ys).tail ∧
      firstCellBits (ys.getD 0 0).toNat ++ es.flatMap Entry.code <+: s.streamBits s.bitLen.toNat :=
  ⟨.abovegrad, fill .bitbuf [0x0D21C000#32] { boot build2 with bitLen := 18#16 }, [13, 15, 10, 14], [two, minusThree, zero],
    by decide +kernel⟩

/-- One run without an error and one with. -/
theorem witness_EncodeIsItsStages :
    (∃ s a b c t : State, exec (.xformFwd .abovegrad) s = .next a ∧ exec .mapFwd a = .next b ∧ exec .pack b = .next c ∧
      exec (.encode .abovegrad) s = .next t ∧ b.status.err = false) ∧
    ∃ s a b c t : State, exec (.xformFwd .left) s = .next a ∧ exec .mapFwd a = .next b ∧ exec .pack b = .next c ∧
      exec (.encode .left) s = .next t ∧ b.status.err = true :=
  ⟨⟨s3, _, _, _, _, exec_after _ _, exec_after _ _, exec_after _ _, exec_after _ _, by decide +kernel⟩,
   ⟨fill .raster [0#32, 7#32, 7#32, 7#32] (boot build2), _, _, _, _, exec_after _ _, exec_after _ _, exec_after _ _,
    exec_after _ _, by decide +kernel⟩⟩

/-- One run without an error, one that fails to parse, and one that leaves the samples' range. -/
theorem witness_DecodeIsItsStages :
    (∃ s a b c t : State, exec .unpack s = .next a ∧ exec .mapInv a = .next b ∧ exec (.xformInv .abovegrad) b = .next c ∧
      exec (.decode .abovegrad) s = .next t ∧ a.status.err = false ∧ c.status.err = false) ∧
    (∃ s a : State, exec .unpack s = .next a ∧ a.status.err = true) ∧
    ∃ s a b c : State, exec .unpack s = .next a ∧ exec .mapInv a = .next b ∧ exec (.xformInv .left) b = .next c ∧
      a.status.err = false ∧ c.status.err = true :=
  ⟨⟨fill .bitbuf [0x0D21C000#32] { boot build2 with bitLen := 18#16 }, _, _, _, _, exec_after _ _, exec_after _ _,
    exec_after _ _, exec_after _ _, by decide +kernel⟩,
   ⟨fill .bitbuf [0x0D21C000#32] { boot build2 with bitLen := 17#16 }, _, exec_after _ _, by decide +kernel⟩,
   ⟨fill .bitbuf [0xFF4B8000#32] { boot build2 with bitLen := 17#16 }, _, _, _, exec_after _ _, exec_after _ _,
    exec_after _ _, by decide +kernel⟩⟩

/-- The raster and the bits beyond the stream are overwritten in between. -/
theorem witness_EncodeThenDecodeIsLossless :
    ∃ s t t' : State, exec (.encode .abovegrad) s = .next t ∧ t.status.err = false ∧ t'.build = t.build ∧
      t'.bitLen = t.bitLen ∧ (∀ k, k < t.bitLen.toNat → t'.bit k = t.bit k) ∧ t'.mem ≠ t.mem :=
  ⟨fill .bitbuf [0#32] s3, _,
    { fill .bitbuf [0x0D21FFFF#32] (fill .raster [0#32, 0#32] (boot build2)) with bitLen := 18#16 }, exec_after _ _,
    by decide +kernel⟩

theorem witness_BadOperandCauses :
    (∃ s : State, 32768 < s.bitLen.toNat) ∧ (∃ s : State, s.bitLen.toNat < s.cursor.toNat) ∧
    (∃ (s : State) (i : Nat), i < s.build.cells ∧ 24 < ((s.readLoc (.codegrid i)).extractLsb' 24 8).toNat ∧
      ∀ j, j < i → ((s.readLoc (.codegrid j)).extractLsb' 24 8).toNat ≤ 24) ∧
    ∃ (f : Selector) (s t : State), exec (.encode f) s = .next t :=
  ⟨⟨{ boot build2 with bitLen := 32769#16 }, by decide⟩, ⟨{ boot build2 with cursor := 1#16 }, by decide⟩,
   ⟨fill .codegrid [0x08000064#32, 0x19000000#32] (boot build2), 1, by decide +kernel⟩, ⟨.plane, s3, _, exec_after _ _⟩⟩

/-- Every command gives a next state from the N = 2 machine after reset, with or without an error. -/
theorem witness_Frames : ∀ i : Instr, ∃ t, exec i (boot build2) = .next t := fun i => ⟨_, exec_after i _⟩

theorem witness_Frames_error :
    (after .symEnc { boot build2 with symIn := 7#32 }).status.err = true ∧ (after .symDec (boot build2)).status.err = true ∧
    (after .unpack (boot build2)).status.err = true ∧ (after .pack (fill .codegrid [0#32, 0#32, 0#32, 0#32]
      (fill .bitbuf [0xFFFFFFFF#32] (boot build2)))).status.err = false := by decide +kernel

theorem witness_NoCommandWritesTheHostsInputs :
    ∃ (s t : State) (l : Loc), s.tainted = [] ∧ s.inFlight.isSome ∧ pccTurn s = .next t ∧ l.mapped s.build = true ∧ l = .raster 3 :=
  ⟨busyWith 0x4A#32, _, .raster 3, rfl, rfl, rfl, by decide +kernel, rfl⟩

/-- The invariant holds in a state with a command in flight, a written sample and its completion next. -/
theorem witness_EveryStepKeepsTheInvariant : ∃ s t : State, s.Inv ∧ step s = .next t := by
  refine ⟨(fill .raster [7#32] (boot build2)).accept 0#32, _, ?_, rfl⟩
  exact {
    memWf := by decide +kernel
    memStored := fun c hc => ⟨.raster 0, by decide +kernel, by
      have h : c = (0x1000, 7#8) := by exact List.mem_singleton.mp hc
      subst h; decide +kernel⟩
    statusLegal := by decide +kernel
    busyInFlight := rfl
    cmdInFlight := fun w h => by injection h
    errIndexInFlight := fun _ => rfl
    errIndexCell := fun _ => by decide +kernel
    taintedInFlight := fun h => (h rfl).elim
    taintedMapped := fun l h => by cases h
    resetIdle := fun h => by cases h
    drawn := by decide }

/-- The last byte of the window and the first beyond it, and no access at all. -/
theorem witness_OnlyAccessesOutsideTheWindowStop :
    (∃ (s : State) (addr width : Nat), s.agenda = [.hostRead addr width] ∧ s.build.base + 0x8000 = addr) ∧
    (∃ s : State, s.agenda = []) ∧
    ∃ (s : State) (addr width : Nat), s.agenda = [.hostRead addr width] ∧ addr = s.build.base + 0x7FFF :=
  ⟨⟨{ boot build2 with agenda := [.hostRead 0x10000 4] }, 0x10000, 4, rfl, rfl⟩, ⟨boot build2, rfl⟩,
   ⟨{ boot build2 with agenda := [.hostRead 0xFFFF 1] }, 0xFFFF, 1, rfl, rfl⟩⟩

end Sys2Proof.Tests
end

section
/-! PROOFS. Halving truncates toward zero (R12), and each SEL value but 0 selects its formula (R111). -/

/-! ### Selectors and the formulas they name -/

namespace Sys2Proof

/-- A formula is selected by its own SEL value alone (R83). -/
theorem bits_of_selectorOf_eq_some {sel : BitVec 3} {f : Selector} (h : selectorOf sel = some f) : f.bits = sel := by
  revert sel f
  decide

theorem selectorOf_isSome_of_ne_zero {sel : BitVec 3} (h : sel ≠ 0#3) : (selectorOf sel).isSome := by
  revert sel
  decide

theorem decodeWithSelector_of_selField_zero {w : Word} (mk : Selector → Instr) (h : selField w = 0#3) :
    decodeWithSelector w mk = .error .selectorMissing := by
  simp [decodeWithSelector, h, selectorOf]

/-- The five commands that call the filter are illegal without a selector (R111). -/
theorem decode_of_filter_opcode_of_selField_zero {w : Word} (hr : rsvField w = 0#25) (hs : selField w = 0#3)
    (ho : (opField w).toNat ∈ [0x1, 0x2, 0x3, 0xA, 0xB]) : decode w = .error .selectorMissing := by
  simp only [List.mem_cons, List.not_mem_nil, or_false] at ho
  obtain ho | ho | ho | ho | ho := ho <;> simp [decode, hr, ho, decodeWithSelector_of_selField_zero _ hs]

end Sys2Proof

namespace Sys2Proof.Machine

/-! ### Halving -/

theorem tdiv2_bounds_of_nonneg {n : Int} (h : 0 ≤ n) : 2 * tdiv2 n ≤ n ∧ n < 2 * tdiv2 n + 2 := by
  rw [tdiv2_of_nonneg h]
  omega

/-- Below zero the bounds are those of the opposite, so that halving rounds toward zero from both sides. -/
theorem tdiv2_bounds_of_neg {n : Int} (h : n < 0) : 2 * -tdiv2 n ≤ -n ∧ -n < 2 * -tdiv2 n + 2 := by
  rw [← tdiv2_neg]
  exact tdiv2_bounds_of_nonneg (by omega)

/-- Settles O18: halving by its two signs, SEL 0 by the decoder's check of the selector, and the seven formulas by cases
on the formula whose SEL value is given. -/
theorem sevenFormulasWithTruncation : Obligations.SevenFormulasWithTruncation := by
  refine ⟨⟨fun _ => tdiv2_bounds_of_nonneg, fun _ => tdiv2_bounds_of_neg, by decide⟩, rfl, ?_, ?_⟩
  · simp only [List.forall_mem_cons]
    refine ⟨?_, ?_, ?_, ?_, ?_, by simp⟩ <;> exact decode_of_filter_opcode_of_selField_zero rfl rfl (by decide)
  · intro sel hsel
    obtain ⟨f, hf⟩ := Option.isSome_iff_exists.mp (selectorOf_isSome_of_ne_zero hsel)
    obtain rfl := bits_of_selectorOf_eq_some hf
    refine ⟨f, hf, fun a b c => ?_⟩
    cases f <;> rfl

end Sys2Proof.Machine
end

section
/-! PROOFS. ID is a function of the build, and nothing the host or a reset does changes the build (R34). -/

/-! ### The bounds of the configuration -/

namespace Sys2Proof

/-- W1: at least one entry and at most 255. -/
theorem CodeTable.count_bounds {t : CodeTable} (h : t.wf = true) : 1 ≤ t.count ∧ t.count ≤ 255 := by
  simpa [CodeTable.countOk] using (CodeTable.wf_parts h).1

theorem CodeTable.lMax_le_iff {t : CodeTable} {n : Nat} : t.lMax ≤ n ↔ ∀ e ∈ t, e.code.length ≤ n := by
  rw [CodeTable.lMax, List.foldl_eq_foldr]
  induction t with
  | nil => simp
  | cons e t ih => simp [ih]

/-- W3: L_MAX is at most 24. -/
theorem CodeTable.lMax_le {t : CodeTable} (h : t.wf = true) : t.lMax ≤ 24 :=
  CodeTable.lMax_le_iff.2 fun _ he => (CodeTable.lengths h he).2

end Sys2Proof

namespace Sys2Proof.Machine

/-! ### The fields of ID -/

/-- Four bytes side by side, each read back from its own place. -/
theorem extractLsb'_append_bytes (a b c d : Byte) :
    (a ++ b ++ c ++ d).extractLsb' 0 8 = d ∧ (a ++ b ++ c ++ d).extractLsb' 8 8 = c ∧
      (a ++ b ++ c ++ d).extractLsb' 16 8 = b ∧ (a ++ b ++ c ++ d).extractLsb' 24 8 = a := by
  simp (disch := omega) only [BitVec.extractLsb'_append_eq_of_add_le, BitVec.extractLsb'_append_eq_of_le,
    BitVec.extractLsb'_eq_self, Nat.reduceSub, and_self]

/-- N, L_MAX and K of an admitted build fit their fields, so ID reports them exactly. -/
theorem idWord_fields (b : Build) :
    ((idWord b).extractLsb' 0 8).toNat = b.side ∧ ((idWord b).extractLsb' 8 8).toNat = b.table.lMax ∧
      ((idWord b).extractLsb' 16 8).toNat = b.table.count ∧ (idWord b).extractLsb' 24 8 = Config.revision := by
  have hside := b.side_bounds
  have hlMax := CodeTable.lMax_le b.parts.2.1
  have hcount := CodeTable.count_bounds b.parts.2.1
  obtain ⟨h0, h8, h16, h24⟩ := extractLsb'_append_bytes Config.revision (BitVec.ofNat 8 b.table.count)
    (BitVec.ofNat 8 b.table.lMax) (BitVec.ofNat 8 b.side)
  rw [idWord, h0, h8, h16, h24]
  refine ⟨?_, ?_, ?_, rfl⟩ <;> exact Nat.mod_eq_of_lt (by omega)

/-! ### The build stands -/

@[simp] theorem State.writeWindow_build (s : State) (off width : Nat) (v : Word) :
    (s.writeWindow off width v).build = s.build := by
  obtain h | ⟨-, h⟩ | ⟨l, -, -, -, h⟩ | ⟨l, -, -, -, h⟩ := s.writeWindow_cases off width v <;> simp [h]

/-- No host write, of any address, width or value and in any state, changes the configuration. -/
theorem hostWrite_build {s t : State} {addr width : Nat} {v : Word} (h : hostWrite addr width v s = .next t) :
    t.build = s.build := by
  cases hw : windowOffset s.build addr with
  | none => simp [hostWrite, hw] at h
  | some off =>
    simp only [hostWrite, hw] at h
    cases h
    split_ifs <;> simp

/-- ID depends on the build alone. -/
theorem State.readLoc_id_of_build {s t : State} (h : t.build = s.build) : t.readLoc .id = s.readLoc .id :=
  congrArg idWord h

/-- Settles O15: the fields by the bounds of an admitted build, and their standing under reset and a write because
neither changes the build. -/
theorem idReportsTheConfiguration : Obligations.IdReportsTheConfiguration := by
  intro s
  obtain ⟨hside, hlMax, hcount, hrev⟩ := idWord_fields s.build
  exact ⟨hside, hlMax, hcount, hrev, State.readLoc_id_of_build rfl,
    fun _ _ h => State.readLoc_id_of_build (hostWrite_build h)⟩

end Sys2Proof.Machine
end

section
/-! PROOFS. A write of the host to an idle PCC: by the location, a store, nothing, or the acceptance of a command (R63). -/

namespace Sys2Proof.Machine

/-! ### Which locations a host write stores to -/

/-- The RW rows of R23, and RASTER, RESID, CODEGRID and BITBUF (R40, R41, R42, R44). -/
theorem Loc.hostWritable_iff {l : Loc} :
    l.hostWritable = true ↔ l ∈ [.opa, .opb, .opc, .symIn, .cursor, .bitLen] ∨
      ∃ i, l = .raster i ∨ l = .resid i ∨ l = .codegrid i ∨ l = .bitbuf i := by
  cases l <;> simp [Loc.hostWritable]

/-- The RO rows of R23, and RECON (R43); CMD stores nothing either. -/
theorem Loc.hostWritable_eq_false_iff {l : Loc} :
    l.hostWritable = false ↔ l = .cmd ∨ l ∈ [.status, .errIndex, .id, .predOut, .codeOut, .symOut, .consumed, .bitPos] ∨
      ∃ i, l = .recon i := by
  cases l <;> simp [Loc.hostWritable]

/-! ### The three effects of an idle write -/

section
variable {s : State} {l : Loc} (hr : s.inReset = false) (hb : s.status.busy = false)
include hr hb

theorem hostWrite_idle_cmd (v : Word) : hostWrite (s.build.base + Loc.cmd.offset) 4 v s = .next (s.accept v) := by
  simp [hostWrite_cmd s hr, hb]

theorem hostWrite_idle_hostWritable (hm : l.mapped s.build = true) (hw : l.hostWritable = true) (v : Word) :
    hostWrite (s.build.base + l.offset) 4 v s = .next (s.storeLoc l v) := by
  have hc : l ≠ .cmd := by rintro rfl; cases hw
  simp [hostWrite_loc s hm hc hr, hb, hw]

theorem hostWrite_idle_readOnly (hm : l.mapped s.build = true) (hc : l ≠ .cmd) (hw : l.hostWritable = false) (v : Word) :
    hostWrite (s.build.base + l.offset) 4 v s = .next s := by
  simp [hostWrite_loc s hm hc hr, hb, hw]

end

/-- Every RW location reads back the bits it keeps: CMD, STATUS and ID, which store nothing, are not RW. -/
theorem State.readLoc_storeLoc_hostWritable (s : State) {l : Loc} (hw : l.hostWritable = true) (v : Word) :
    (s.storeLoc l v).readLoc l = l.kept v :=
  s.readLoc_storeLoc_same (by refine ⟨?_, ?_, ?_⟩ <;> rintro rfl <;> cases hw) v

/-- Settles O11: the idle write of a RW location is one store, which reads back the kept bits and stands apart from every
other location; a read-only location and CMD by their own effect. -/
theorem hostWritesStoreTheNamedBits : Obligations.HostWritesStoreTheNamedBits := by
  intro s l v hr hb hm
  refine ⟨fun hl => ?_, fun hl => ?_, ?_⟩
  · have hw := Loc.hostWritable_iff.2 hl
    refine ⟨s.storeLoc l v, hostWrite_idle_hostWritable hr hb hm hw v, ?_, s.storeLoc_sameBut hm v, by simp⟩
    rw [s.readLoc_storeLoc_hostWritable hw]
    cases l with
    | opa | opb | opc | cursor | bitLen | raster i =>
      simp [Loc.kept, BitVec.setWidth_eq_extractLsb']
    | symIn | resid i | codegrid i | bitbuf i => rfl
    | _ => cases hw
  · have hw := Loc.hostWritable_eq_false_iff.2 (.inr hl)
    have hc : l ≠ .cmd := by rintro rfl; simp at hl
    exact hostWrite_idle_readOnly hr hb hm hc hw v
  · rintro rfl
    exact hostWrite_idle_cmd hr hb v

end Sys2Proof.Machine
end

section
/-! PROOFS. A word decodes exactly when it is legal (R82), and an illegal word completes with IllegalCommand. -/

/-! ### Which words decode -/

namespace Sys2Proof

theorem decodePlain_ok_iff {w : Word} (i : Instr) : (∃ j, decodePlain w i = .ok j) ↔ selField w = 0#3 := by
  by_cases h : selField w = 0#3 <;> simp [decodePlain, h]

theorem decodeWithSelector_ok_iff {w : Word} (mk : Selector → Instr) :
    (∃ i, decodeWithSelector w mk = .ok i) ↔ selField w ≠ 0#3 := by
  constructor
  · rintro ⟨i, hi⟩ h
    simp [decodeWithSelector_of_selField_zero mk h] at hi
  · intro h
    obtain ⟨f, hf⟩ := Option.isSome_iff_exists.mp (selectorOf_isSome_of_ne_zero h)
    exact ⟨mk f, by simp [decodeWithSelector, hf]⟩

/-- The three conditions of R82 on the fields of a command word. -/
def LegalFields (rsv : BitVec 25) (sel : BitVec 3) (op : BitVec 4) : Prop :=
  rsv = 0#25 ∧ op.toNat ≤ 0xB ∧ (usesSelector op.toNat = true ↔ sel ≠ 0#3)

theorem decode_ok_iff_legalFields (w : Word) :
    (∃ i, decode w = .ok i) ↔ LegalFields (rsvField w) (selField w) (opField w) := by
  by_cases hr : rsvField w = 0#25
  · rw [decode, if_neg (not_not_intro hr)]
    split
    case h_13 =>
      have hop : ¬ (opField w).toNat ≤ 0xB := by grind
      simp [LegalFields, hop]
    all_goals simp [*, LegalFields, usesSelector, decodePlain_ok_iff, decodeWithSelector_ok_iff]
  · simp [decode_of_rsv hr, LegalFields, hr]

/-! ### The forms of legality -/

theorem usesSelector_iff_mem (n : Nat) : usesSelector n = true ↔ n ∈ [0x1, 0x2, 0x3, 0xA, 0xB] := by
  simp [usesSelector, or_assoc]

/-- The conditions of R82 as ranges of the field values. -/
theorem legalFields_iff_ranges (rsv : BitVec 25) (sel : BitVec 3) (op : BitVec 4) :
    LegalFields rsv sel op ↔ rsv = 0#25 ∧ op.toNat ≤ 0xB ∧
      if op.toNat ∈ [0x1, 0x2, 0x3, 0xA, 0xB] then 1 ≤ sel.toNat ∧ sel.toNat ≤ 7 else sel.toNat = 0 := by
  have hsel : sel ≠ 0#3 ↔ 1 ≤ sel.toNat ∧ sel.toNat ≤ 7 := by bv_omega
  rw [LegalFields, usesSelector_iff_mem, hsel]
  split_ifs with hop
  · simp [hop]
  · simp only [hop, false_iff, show ¬(1 ≤ sel.toNat ∧ sel.toNat ≤ 7) ↔ sel.toNat = 0 by omega]

/-- A mask that keeps RSV takes a word with RSV ≠ 0 to no word with RSV = 0. -/
theorem and_notMem_of_rsvField_ne_zero {w m : Word} {l : List Word} (hr : rsvField w ≠ 0#25)
    (hm : rsvField m = BitVec.allOnes 25) (hl : ∀ x ∈ l, rsvField x = 0#25) : w &&& m ∉ l :=
  fun h => hr (by rw [← rsvField_and w m hm, hl _ h])

/-- The match/mask form of R82: the seven plain words, and the five opcodes with a selector. -/
theorem legalFields_iff_masks (w : Word) : LegalFields (rsvField w) (selField w) (opField w) ↔
    (w &&& 0xFFFFFFFF#32 ∈ [0x0#32, 0x4#32, 0x5#32, 0x6#32, 0x7#32, 0x8#32, 0x9#32]) ∨
    (w &&& 0xFFFFFF8F#32 ∈ [0x1#32, 0x2#32, 0x3#32, 0xA#32, 0xB#32] ∧ selField w ≠ 0#3) := by
  induction w using word_cases with
  | h0 sel op => unfold LegalFields; revert sel op; decide
  | h1 w hr =>
    have hplain := and_notMem_of_rsvField_ne_zero (m := 0xFFFFFFFF#32)
      (l := [0x0#32, 0x4#32, 0x5#32, 0x6#32, 0x7#32, 0x8#32, 0x9#32]) hr rfl (by simp [rsvField])
    have hsel := and_notMem_of_rsvField_ne_zero (m := 0xFFFFFF8F#32)
      (l := [0x1#32, 0x2#32, 0x3#32, 0xA#32, 0xB#32]) hr rfl (by simp [rsvField])
    simp only [LegalFields, hr, hplain, hsel, false_and, or_false]

theorem reservedClear_iff (w : Word) : Word.reservedClear w = true ↔ rsvField w = 0#25 := by
  have htop : w.toNat >>> 7 < 2 ^ 25 := by omega
  rw [Word.reservedClear, beq_iff_eq, rsvField, ← BitVec.toNat_inj, ← BitVec.toNat_inj, BitVec.extractLsb'_toNat,
    Nat.mod_eq_of_lt htop, BitVec.toNat_ushiftRight]
  rfl

theorem legalFields_iff_legal (w : Word) :
    LegalFields (rsvField w) (selField w) (opField w) ↔ Word.legal w = true := by
  induction w using word_cases with
  | h0 sel op => unfold LegalFields; revert sel op; decide
  | h1 w hr => simp [LegalFields, Word.legal, reservedClear_iff, hr]

end Sys2Proof

/-! ### The completion of an illegal word -/

namespace Sys2Proof.Machine

/-- A completion with IllegalCommand reads as STATUS 0x36 (R25, R220, R225). -/
theorem State.readLoc_status_completeError_illegalCommand (s : State) (i : Nat) (outs : List Loc) :
    (s.completeError ⟨.illegalCommand, i⟩ outs).readLoc .status = 0x36#32 := by
  change (Status.completed (some .illegalCommand)).word = 0x36#32
  decide

theorem completeWord_of_not_ok {w : Word} (h : ¬ ∃ i, decode w = .ok i) (s : State) :
    completeWord w s = .next (s.completeError ⟨.illegalCommand, 0⟩ []) := by
  cases hd : decode w with
  | ok i => exact absurd ⟨i, hd⟩ h
  | error e => simp only [completeWord, hd]

/-- Settles O2: each form of legality is the three conditions on the fields, which decide whether the word decodes; the
completion of a word that does not decode is the error completion of IllegalCommand. -/
theorem legalWordsAreTheDecodedOnes : Obligations.LegalWordsAreTheDecodedOnes := by
  intro w
  refine ⟨(decode_ok_iff_legalFields w).trans (legalFields_iff_ranges _ _ _),
    (decode_ok_iff_legalFields w).trans (legalFields_iff_masks w),
    (decode_ok_iff_legalFields w).trans (legalFields_iff_legal w), fun hw s hr hb => ?_⟩
  refine ⟨hostWrite_idle_cmd hr hb w, (s.accept w).completeError ⟨.illegalCommand, 0⟩ [], ?_,
    State.readLoc_status_completeError_illegalCommand _ _ _⟩
  rw [pccTurn_of_inFlight (s := s.accept w) hr rfl]
  exact completeWord_of_not_ok hw _

end Sys2Proof.Machine
end

section
/-! PROOFS. A code word holds the length and the value of its bit string, and denotes it (R86 to R88). -/

namespace Sys2Proof.Machine

/-- The value of a bit string as the weighted sum of its bits (R87). -/
theorem bitsVal_eq_sum (bs : List Bool) : bitsVal bs =
    ((List.range bs.length).map fun k => (bs.getD k false).toNat * 2 ^ (bs.length - 1 - k)).sum := by
  induction bs using List.reverseRecOn with
  | nil => rfl
  | append_singleton bs b ih =>
    have hshift : ∀ k ∈ List.range bs.length,
        ((bs ++ [b]).getD k false).toNat * 2 ^ (bs.length - k) =
          2 * ((bs.getD k false).toNat * 2 ^ (bs.length - 1 - k)) := by
      intro k hk
      have hlt := List.mem_range.1 hk
      rw [List.getD_append _ _ _ _ hlt, show bs.length - k = bs.length - 1 - k + 1 by omega, pow_succ]
      ring
    rw [bitsVal_concat, ih, List.length_append, List.length_singleton, List.range_succ, Nat.add_sub_cancel,
      List.map_append, List.sum_append, List.map_congr_left hshift, List.sum_map_mul_left]
    simp

/-- BITS of a canonical word is the value of the bit string (R87). -/
theorem toNat_bits_codeWord {bs : List Bool} (h : bs.length ≤ 24) : ((codeWord bs).extractLsb' 0 24).toNat = bitsVal bs := by
  have hval : bitsVal bs < 2 ^ 24 := (bitsVal_lt bs).trans_le (Nat.pow_le_pow_right (by decide) h)
  rw [codeWord, BitVec.extractLsb'_append_eq_of_add_le (by decide), BitVec.extractLsb'_eq_self, BitVec.toNat_ofNat,
    Nat.mod_eq_of_lt hval]

/-- str(w) is BITS[LEN-1] to BITS[0] (R86). -/
theorem getD_codeBits (w : Word) {k : Nat} (h : k < codeLen w) : (codeBits w).getD k false = w.getLsbD (codeLen w - 1 - k) := by
  simp [codeBits, h]

/-- The first-cell field holds the sample's bits, most significant first (R88). -/
theorem getD_firstCellBits (v : Nat) {k : Nat} (h : k < 8) : (firstCellBits v).getD k false = v.testBit (7 - k) := by
  simp [firstCellBits, h]

/-- Settles O4: the length, value and bits of a canonical word, the bits of any word, and the first-cell field, each by
its lemma; the sample words by evaluation. -/
theorem codeWordsDenoteTheirBits : Obligations.CodeWordsDenoteTheirBits := by
  refine ⟨fun bs _ h => ⟨codeLen_codeWord h, ?_, codeBits_codeWord h⟩, fun w _ => ⟨length_codeBits w, fun _ => getD_codeBits w⟩,
    fun v => ⟨length_firstCellBits _, fun _ => getD_firstCellBits _, bitsVal_firstCellBits v.isLt, ?_⟩, by decide⟩
  · rw [toNat_bits_codeWord h, bitsVal_eq_sum]
  · rw [codeWord_firstCellBits v.isLt, BitVec.ofNat_add, BitVec.ofNat_toNat]

end Sys2Proof.Machine
end

section
/-! PROOFS. On samples every prediction keeps its range (R113), and equal neighbours predict their own value (R114). -/

namespace Sys2Proof.Machine

/-- The mean of two samples is in the range of a sample. -/
theorem tdiv2_add_sample_range {x y : Int} (hx : 0 ≤ x ∧ x ≤ 255) (hy : 0 ≤ y ∧ y ≤ 255) :
    0 ≤ tdiv2 (x + y) ∧ tdiv2 (x + y) ≤ 255 := by
  have := (tdiv2_range (x + y)).1
  omega

/-- Truncation keeps half the difference of two samples within 127 of zero on both sides. -/
theorem tdiv2_sub_sample_range {x y : Int} (hx : 0 ≤ x ∧ x ≤ 255) (hy : 0 ≤ y ∧ y ≤ 255) :
    -127 ≤ tdiv2 (x - y) ∧ tdiv2 (x - y) ≤ 127 := by
  have := tdiv2_range (x - y)
  omega

/-- A sample plus half the difference of two samples: the range of both gradient formulas. -/
theorem add_tdiv2_sub_sample_range {x y z : Int} (hx : 0 ≤ x ∧ x ≤ 255) (hy : 0 ≤ y ∧ y ≤ 255) (hz : 0 ≤ z ∧ z ≤ 255) :
    -127 ≤ x + tdiv2 (y - z) ∧ x + tdiv2 (y - z) ≤ 382 := by
  have := tdiv2_sub_sample_range hy hz
  omega

theorem tdiv2_sub_self (k : Int) : tdiv2 (k - k) = 0 := by
  rw [Int.sub_self]
  rfl

theorem tdiv2_add_self (k : Int) : tdiv2 (k + k) = k := by
  rw [← Int.two_mul]
  exact Int.mul_tdiv_cancel_left k (by decide)

/-- Settles O19: each formula named by the clause has the range of its own sum, difference or half. -/
theorem predictionsFromSamplesAreBounded : Obligations.PredictionsFromSamplesAreBounded := by
  intro f a b c ha hb hc
  simp only [List.mem_cons, List.not_mem_nil, or_false]
  refine ⟨?_, ?_, ?_⟩
  · rintro (rfl | rfl | rfl | rfl)
    exacts [ha, hb, hc, tdiv2_add_sample_range ha hb]
  · rintro rfl
    rw [predict]
    omega
  · rintro (rfl | rfl)
    exacts [add_tdiv2_sub_sample_range ha hb hc, add_tdiv2_sub_sample_range hb ha hc]

/-- Settles O20: by cases on the formula; a difference of equal neighbours halves to zero, and their sum to the value. -/
theorem equalNeighboursPredictTheirValue : Obligations.EqualNeighboursPredictTheirValue := by
  intro f k
  cases f with
  | left | above | diag => rfl
  | plane => exact Int.add_sub_cancel k k
  | leftgrad | abovegrad => rw [predict, tdiv2_sub_self, Int.add_zero]
  | mean => exact tdiv2_add_self k

end Sys2Proof.Machine
end

section
/-! PROOFS. XFORM_FWD writes the residual grid by its border rules (R130) and within its ranges (R134), and XFORM_INV takes
that grid back to the raster (R133). -/

namespace Sys2Proof.Machine

/-! ### What XFORM_FWD leaves in RESID -/

theorem exec_xformFwd (f : Selector) (s : State) : exec (.xformFwd f) s = .next (xformFwdStage f s).completeOk :=
  exec_of_ok rfl

/-- A residual as the host reads it: the sample less its prediction from the samples before it. -/
theorem readLoc_resid_exec_xformFwd {f : Selector} {s t : State} (h : exec (.xformFwd f) s = .next t) {i : Nat}
    (hi : i < s.build.cells) : (t.readLoc (.resid i)).toInt = (s.readLoc (.raster i)).toInt -
      predictionAt s.build.side f (fun j => (s.readLoc (.raster j)).toInt) i := by
  rw [exec_xformFwd] at h
  cases h
  have hcells : (xformFwdStage f s).completeOk.residCells = residuals s.build.side f s.rasterCells :=
    xformFwdStage_residCells f s
  have hpred : predictionAt s.build.side f (fun j => (s.readLoc (.raster j)).toInt) i =
      predictionAt s.build.side f (fun j => s.rasterCells.getD j 0) i :=
    predictionAt_congr s.build.side_bounds.1 fun j hj => s.readLoc_raster (hj.trans hi)
  rw [State.readLoc_resid (xformFwdStage f s).completeOk hi, hcells, residuals_getD _ _ _ hi, s.readLoc_raster hi, hpred]

/-! ### The walk back -/

/-- XFORM_INV on the residual grid of a raster writes that raster. -/
theorem xformInvStage_of_residuals {f : Selector} {s : State} {ys : List Int} (hl : ys.length = s.build.cells)
    (hy : ∀ y ∈ ys, 0 ≤ y ∧ y ≤ 255) (h : s.residCells = residuals s.build.side f ys) :
    xformInvStage f s = .ok (s.writeRecon ys) := by
  rw [xformInvStage, h, reconstruct_residuals s.build.side_bounds.1 f hl hy]

/-- Where RECON and RASTER hold the same cells, the host reads the same words. -/
theorem State.readLoc_recon_of_reconCells {s t : State} (hb : t.build = s.build) (h : t.reconCells = s.rasterCells)
    {i : Nat} (hi : i < s.build.cells) : t.readLoc (.recon i) = s.readLoc (.raster i) := by
  have hbyte : t.byteAt (reconBase + 4 * i) = s.byteAt (rasterBase + 4 * i) := by
    simpa [State.reconCells, State.rasterCells, hb, hi, BitVec.toNat_inj] using congrArg (·[i]?) h
  exact congrArg (BitVec.setWidth 32) hbyte

/-- Settles O26: acceptance leaves the residual grid of RASTER in RESID, and the walk back writes RASTER into RECON. -/
theorem transformRoundTrip : Obligations.TransformRoundTrip := by
  intro f s
  set t := ((xformFwdStage f s).completeOk).accept (encode (.xformInv f))
  have hresid : t.residCells = residuals t.build.side f s.rasterCells := xformFwdStage_residCells f s
  have hinv : stage (.xformInv f) t = .ok (t.writeRecon s.rasterCells) :=
    xformInvStage_of_residuals s.length_rasterCells s.rasterCells_range hresid
  have hrecon : (t.writeRecon s.rasterCells).completeOk.reconCells = s.rasterCells :=
    t.reconCells_writeRecon s.length_rasterCells s.rasterCells_range
  have hbuild : (t.writeRecon s.rasterCells).completeOk.build = s.build := rfl
  exact ⟨_, _, exec_xformFwd f s, rfl, exec_of_ok hinv, rfl, fun i => State.readLoc_recon_of_reconCells hbuild hrecon⟩

/-! ### The prediction of a cell by its place in the grid (R130) -/

theorem predictionAt_zero (n : Nat) (f : Selector) (y : Nat → Int) : predictionAt n f y 0 = 0 := by
  simp [predictionAt]

section
variable {n : Nat} {f : Selector} {y : Nat → Int} {i : Nat}

theorem predictionAt_firstRow (h0 : 0 < i) (hi : i < n) : predictionAt n f y i = y (i - 1) := by
  simp [predictionAt, Nat.div_eq_of_lt hi, Nat.mod_eq_of_lt hi, h0.ne']

theorem predictionAt_firstColumn (hn : 0 < n) (hi : n ≤ i) (hc : i % n = 0) : predictionAt n f y i = y (i - n) := by
  simp [predictionAt, (Nat.div_pos hi hn).ne', hc]

theorem predictionAt_interior (hn : 0 < n) (hi : n ≤ i) (hc : i % n ≠ 0) :
    predictionAt n f y i = predict f (y (i - 1)) (y (i - n)) (y (i - n - 1)) := by
  simp [predictionAt, (Nat.div_pos hi hn).ne', hc]

end

/-! ### The border rules by row and column -/

theorem rowMajor_lt {n r c : Nat} (hr : r < n) (hc : c < n) : r * n + c < n * n :=
  calc r * n + c < r * n + n := Nat.add_lt_add_left hc _
    _ = (r + 1) * n := (Nat.succ_mul r n).symm
    _ ≤ n * n := Nat.mul_le_mul_right n hr

/-- A row lies one side behind the row after it. -/
theorem row_eq_prev_add {n r : Nat} (hr : 0 < r) : r * n = (r - 1) * n + n := by
  rw [← Nat.succ_mul, Nat.succ_eq_add_one, Nat.sub_add_cancel hr]

/-- Settles O22: each cell by its place in the grid, where its neighbours stand one cell, one row, and both before it. -/
theorem xformFwdWritesTheResidualGrid : Obligations.XformFwdWritesTheResidualGrid := by
  intro f s
  refine ⟨_, exec_xformFwd f s, rfl, ?_⟩
  intro n X E
  have hn : 0 < n := s.build.side_bounds.1
  have hE : ∀ {r c}, r < n → c < n →
      E r c = X r c - predictionAt n f (fun j => (s.readLoc (.raster j)).toInt) (r * n + c) :=
    fun hr hc => readLoc_resid_exec_xformFwd (exec_xformFwd f s) (rowMajor_lt hr hc)
  refine ⟨?_, fun c hc0 hc => ?_, fun r hr0 hr => ?_, fun r c hr0 hr hc0 hc => ?_⟩
  · rw [hE hn hn, Nat.zero_mul, predictionAt_zero, Int.sub_zero]
  · rw [hE hn hc, Nat.zero_mul, Nat.zero_add, predictionAt_firstRow hc0 hc]
    simp only [X, Nat.zero_mul, Nat.zero_add]
  · have hrow := row_eq_prev_add (n := n) hr0
    rw [hE hr hn, predictionAt_firstColumn hn (by omega) (by simp),
      show r * n + 0 - n = (r - 1) * n + 0 by omega]
  · have hrow := row_eq_prev_add (n := n) hr0
    have hmod : (r * n + c) % n ≠ 0 := by
      rw [Nat.mul_add_mod', Nat.mod_eq_of_lt hc]
      exact hc0.ne'
    rw [hE hr hc, predictionAt_interior hn (by omega) hmod,
      show r * n + c - n = (r - 1) * n + c by omega, show r * n + c - 1 = r * n + (c - 1) by omega,
      show (r - 1) * n + c - 1 = (r - 1) * n + (c - 1) by omega]

/-! ### The ranges of the residuals -/

theorem State.readLoc_raster_range (s : State) (i : Nat) :
    0 ≤ (s.readLoc (.raster i)).toInt ∧ (s.readLoc (.raster i)).toInt ≤ 255 := by
  have hbyte := (s.byteAt (rasterBase + 4 * i)).isLt
  rw [State.readLoc, BitVec.toInt_eq_toNat_of_lt (by simp; omega), BitVec.toNat_setWidth]
  omega

/-- A cell of the first row or column is predicted by a sample, or by nothing. -/
theorem predictionAt_border_range {n : Nat} {f : Selector} {y : Nat → Int} {i : Nat} (hn : 0 < n)
    (hy : ∀ j, 0 ≤ y j ∧ y j ≤ 255) (hi : i < n ∨ i % n = 0) :
    0 ≤ predictionAt n f y i ∧ predictionAt n f y i ≤ 255 := by
  rcases Nat.eq_zero_or_pos i with rfl | h0
  · simp [predictionAt_zero]
  by_cases hrow : i < n
  · rw [predictionAt_firstRow h0 hrow]
    exact hy _
  · rw [predictionAt_firstColumn hn (not_lt.1 hrow) (hi.resolve_left hrow)]
    exact hy _

/-- The ranges of R113 hold of the prediction of every cell, with the sample's own range on the border. -/
theorem predictionAt_range {n : Nat} {y : Nat → Int} (hn : 0 < n) (hy : ∀ j, 0 ≤ y j ∧ y j ≤ 255) (f : Selector) (i : Nat) :
    (i < n ∨ i % n = 0 ∨ f ∈ [.left, .above, .diag, .mean] → 0 ≤ predictionAt n f y i ∧ predictionAt n f y i ≤ 255) ∧
    (f = .plane → -255 ≤ predictionAt n f y i ∧ predictionAt n f y i ≤ 510) ∧
    (f ∈ [.leftgrad, .abovegrad] → -127 ≤ predictionAt n f y i ∧ predictionAt n f y i ≤ 382) := by
  by_cases hb : i < n ∨ i % n = 0
  · have := predictionAt_border_range (f := f) hn hy hb
    refine ⟨fun _ => this, fun _ => ?_, fun _ => ?_⟩ <;> omega
  · obtain ⟨hrow, hcol⟩ := not_or.1 hb
    rw [predictionAt_interior hn (not_lt.1 hrow) hcol]
    obtain ⟨hsample, hplane, hgrad⟩ := predictionsFromSamplesAreBounded f _ _ _ (hy (i - 1)) (hy (i - n)) (hy (i - n - 1))
    exact ⟨fun h => hsample ((h.resolve_left hrow).resolve_left hcol), hplane, hgrad⟩

/-- The three groups of formulas that R113 bounds alike are all seven. -/
theorem selector_range_groups (f : Selector) :
    f ∈ [.left, .above, .diag, .mean] ∨ f = .plane ∨ f ∈ [.leftgrad, .abovegrad] := by
  cases f <;> decide

/-- Settles O23: a residual is a sample less a prediction in its range (R113). -/
theorem residualsAreBounded : Obligations.ResidualsAreBounded := by
  intro f s t ht n E
  have hn : 0 < n := s.build.side_bounds.1
  have hE : ∀ i, i < n * n → E i = (s.readLoc (.raster i)).toInt -
      predictionAt n f (fun j => (s.readLoc (.raster j)).toInt) i := fun _ => readLoc_resid_exec_xformFwd ht
  have hx := s.readLoc_raster_range
  refine ⟨?_, fun i _ hi hb => ?_, fun i _ hi _ hf => ?_, fun i _ hi _ hf => ?_, fun i hi => ?_⟩
  · rw [hE 0 (Nat.mul_pos hn hn), predictionAt_zero, Int.sub_zero]
    exact hx 0
  all_goals
    obtain ⟨hsample, hplane, hgrad⟩ := predictionAt_range hn hx f i
    have hxi := hx i
    rw [hE i hi]
  · have := hsample hb
    omega
  · have := hplane hf
    omega
  · have := hgrad hf
    omega
  · obtain hf | hf | hf := selector_range_groups f
    · have := hsample (.inr (.inr hf))
      omega
    · have := hplane hf
      omega
    · have := hgrad hf
      omega

end Sys2Proof.Machine
end

section
/-! PROOFS. A grid that MAP_FWD writes comes back from PACK and UNPACK (R187), and a stream that UNPACK uses up completely
does not parse once it is cut short (R184). -/

namespace Sys2Proof.Machine

/-- A command that reports no error has written what its rule gives. -/
theorem stage_ok_of_exec {i : Instr} {s u : State} (h : exec i s = .next u) (herr : u.status.err = false) :
    ∃ t, stage i s = .ok t ∧ u = t.completeOk := by
  obtain hok | ⟨e, -, rfl⟩ := exec_cases h
  · exact hok
  · cases herr

/-! ### The stream PACK writes is the stream UNPACK reads -/

/-- MAP_FWD leaves the canonical words of a byte and of one table entry for each other cell (R158). -/
theorem exec_mapFwd_codeCells {s t : State} (h : exec .mapFwd s = .next t) (herr : t.status.err = false) :
    t.build = s.build ∧ ∃ (v : Nat) (es : List Entry), es.length + 1 = t.build.cells ∧ (∀ e ∈ es, e ∈ t.build.table) ∧
      t.codeCells = codeWord (firstCellBits v) :: es.map fun e => codeWord e.code := by
  obtain ⟨m, hm, rfl⟩ := stage_ok_of_exec h herr
  obtain ⟨v, es, -, hes, hresid, rfl⟩ := mapFwdStage_ok_iff.1 hm
  have hl : es.length + 1 = s.build.cells := by simpa using (congrArg List.length hresid).symm
  exact ⟨rfl, v, es, hl, hes, s.codeCells_writeCodes (by simp [hl])⟩

/-- BIT_LEN delimits exactly the stream PACK writes, since no packed stream outgrows BITBUF. -/
theorem packStage_of_packGrid {s : State} {bs : List Bool} (h : packGrid s.codeCells = .ok bs) :
    ∃ t, packStage s = .ok t ∧ t.build = s.build ∧ t.bitLen.toNat ≤ 32768 ∧ t.streamBits t.bitLen.toNat = bs := by
  have hfits := packed_fits h
  have hlen : (BitVec.ofNat 16 bs.length).toNat = bs.length := toNat_ofNat16 (by omega)
  refine ⟨{ s.writeStream bs with bitLen := BitVec.ofNat 16 bs.length }, by rw [packStage, h], rfl, ?_, ?_⟩
  · exact hlen.le.trans (by omega)
  · rw [hlen]
    exact s.streamBits_writeStream bs

/-- UNPACK on a stream of one grid and nothing more: the grid's words, and BIT_POS at the end of the stream. -/
theorem unpackStage_of_whole_stream {s : State} {v : Nat} {es : List Entry} (hb : s.bitLen.toNat ≤ 32768)
    (hl : es.length + 1 = s.build.cells) (hes : ∀ e ∈ es, e ∈ s.build.table)
    (hs : s.streamBits s.bitLen.toNat = firstCellBits v ++ es.flatMap Entry.code) :
    ∃ t, unpackStage s = .ok t ∧ t.build = s.build ∧ t.bitPos = t.bitLen ∧
      t.codeCells = codeWord (firstCellBits v) :: es.map fun e => codeWord e.code := by
  refine ⟨_, unpackStage_of_stream hb hl hes (hs ▸ List.prefix_rfl), rfl, ?_, s.codeCells_writeCodes (by simp [hl])⟩
  have hused : 8 + (es.flatMap Entry.code).length = s.bitLen.toNat := by
    simpa using (congrArg List.length hs).symm
  rw [hused]
  exact (BitVec.ofNat_toNat 16 s.bitLen).trans s.bitLen.setWidth_eq

theorem State.readLoc_codegrid_of_codeCells {s t : State} (hb : t.build = s.build) (h : t.codeCells = s.codeCells)
    {i : Nat} (hi : i < s.build.cells) : t.readLoc (.codegrid i) = s.readLoc (.codegrid i) := by
  rw [State.readLoc_codegrid t (hb ▸ hi), State.readLoc_codegrid s hi, h]

/-- Settles O44: MAP_FWD leaves the canonical words of table entries; PACK writes exactly their codes, which UNPACK reads
back one by one, each the only match at its boundary (W4). -/
theorem packThenUnpackRestoresTheGrid : Obligations.PackThenUnpackRestoresTheGrid := by
  intro s t ht herr
  obtain ⟨hbuild, v, es, hl, hes, hcodes⟩ := exec_mapFwd_codeCells ht herr
  have hgrid : packGrid t.codeCells = .ok (firstCellBits v ++ es.flatMap Entry.code) := by
    rw [hcodes, packGrid_mapped t.build.parts.2.1 es hes]
  obtain ⟨p, hpack, hpb, hfits, hstream⟩ := packStage_of_packGrid (s := t.accept (encode .pack)) hgrid
  rw [State.accept_build] at hpb
  obtain ⟨q, hunpack, hqb, hpos, hwords⟩ :=
    unpackStage_of_whole_stream (s := p.completeOk.accept (encode .unpack)) hfits (hpb ▸ hl) (hpb ▸ hes) hstream
  refine ⟨_, _, exec_of_ok hpack, rfl, exec_of_ok hunpack, rfl, fun i hi => ?_, congrArg (BitVec.setWidth 32) hpos⟩
  exact State.readLoc_codegrid_of_codeCells (t := q.completeOk) (hqb.trans hpb) (hwords.trans hcodes.symm) (hbuild ▸ hi)

/-! ### Parsing does not look ahead (R182) -/

section
variable {t : CodeTable} {bs : List Bool} {r : List Word × Nat}

/-- A parse that has succeeded gives the same whatever follows in the stream. -/
theorem unpackCells_append (h : t.wf = true) {k i : Nat} (hr : unpackCells t k i bs = .ok r) (tail : List Bool) :
    unpackCells t k i (bs ++ tail) = .ok r := by
  obtain ⟨es, rfl, hes, ⟨rest, rfl⟩, hws, hn⟩ := unpackCells_ok hr
  rw [List.append_assoc, unpackCells_of_codes h es hes, ← hws, ← hn]

theorem unpackGrid_append (h : t.wf = true) {cells : Nat} (hr : unpackGrid t cells bs = .ok r) (tail : List Bool) :
    unpackGrid t cells (bs ++ tail) = .ok r := by
  simp only [unpackGrid] at hr ⊢
  split_ifs at hr with h8
  rw [not_lt] at h8
  rw [if_neg (by simp; omega), List.drop_append_of_le_length h8, List.take_append_of_le_length h8]
  split at hr
  · cases hr
  · next hu => rw [unpackCells_append h hu, ← hr]

/-- No more bits are used than the stream has. -/
theorem used_le_length_of_unpackGrid {cells : Nat} (hc : 1 ≤ cells) (hr : unpackGrid t cells bs = .ok r) :
    r.2 ≤ bs.length := by
  obtain ⟨es, -, -, h8, hpre, -, hn⟩ := unpackGrid_ok hc hr
  have hle := hpre.length_le
  rw [List.length_append, List.length_take_of_le h8] at hle
  omega

/-- Where a parse uses a stream up, no shorter beginning of the stream parses (R184). -/
theorem unpackGrid_take_of_used_up (h : t.wf = true) {cells : Nat} (hc : 1 ≤ cells) (hr : unpackGrid t cells bs = .ok r)
    (hall : r.2 = bs.length) {len : Nat} (hlen : len < bs.length) : ∃ e, unpackGrid t cells (bs.take len) = .error e := by
  cases hcut : unpackGrid t cells (bs.take len) with
  | error e => exact ⟨e, rfl⟩
  | ok r' =>
    have hsame : r = r' :=
      Except.ok.inj (by rw [← hr, ← unpackGrid_append h hcut (bs.drop len), List.take_append_drop])
    have hused := used_le_length_of_unpackGrid hc hcut
    rw [← hsame, hall, List.length_take] at hused
    omega

end

/-! ### A stream cut short -/

theorem State.streamBits_take (s : State) {len len' : Nat} (h : len ≤ len') :
    (s.streamBits len').take len = s.streamBits len := by
  rw [State.streamBits_eq_map, State.streamBits_eq_map, ← List.map_take, List.take_range, Nat.min_eq_left h]

theorem unpackStage_of_unpackGrid_error {s : State} {e : CmdError} (hb : s.bitLen.toNat ≤ 32768)
    (h : unpackGrid s.build.table s.build.cells (s.streamBits s.bitLen.toNat) = .error e) : unpackStage s = .error e := by
  rw [unpackStage, if_neg (show ¬ Config.maxBits < s.bitLen.toNat from hb.not_gt), h]

/-- Settles O42: a shorter stream that parsed would parse to the same with the removed bits behind it, and so use no more
than its own bits. -/
theorem truncationAlwaysFails : Obligations.TruncationAlwaysFails := by
  intro s t len ht herr hpos hlen
  obtain ⟨m, hm, rfl⟩ := stage_ok_of_exec ht herr
  obtain ⟨hmax, ws, n, hparse, -, rfl⟩ := unpackStage_ok hm
  have hc := s.build.one_le_cells
  have hfits : n ≤ s.bitLen.toNat := by simpa using used_le_length_of_unpackGrid hc hparse
  have hall : n = (s.streamBits s.bitLen.toNat).length := by
    rw [State.length_streamBits, ← hpos]
    exact (toNat_read16 (by omega)).symm
  obtain ⟨e, he⟩ := unpackGrid_take_of_used_up s.build.parts.2.1 hc hparse hall (len := len.toNat) (by simpa using hlen)
  rw [s.streamBits_take hlen.le] at he
  have hcut : unpackStage { s with bitLen := len } = .error e := unpackStage_of_unpackGrid_error (hlen.le.trans hmax) he
  refine ⟨_, exec_of_error hcut, ?_⟩
  rw [State.completeError_status, (unpackGrid_error hc he).1]

end Sys2Proof.Machine
end

section
/-! PROOFS. The life of a command: CMD written while idle and while BUSY (R200), an illegal word (R203), and the round trip
of a raster through ENCODE and DECODE (R206). -/

namespace Sys2Proof.Machine

/-! ### The round trip -/

/-- What ENCODE leaves behind (R204): BIT_LEN delimits the first-cell field of the first residual and the codes of the
others. -/
theorem encodeStage_stream {f : Selector} {s t : State} (h : encodeStage f s = .ok t) :
    t.build = s.build ∧ t.bitLen.toNat ≤ 32768 ∧ ∃ (v : Nat) (es : List Entry), v < 256 ∧
      es.length + 1 = s.build.cells ∧ (∀ e ∈ es, e ∈ s.build.table) ∧
      residuals s.build.side f s.rasterCells = (v : Int) :: es.map Entry.value ∧
      t.streamBits t.bitLen.toNat = firstCellBits v ++ es.flatMap Entry.code := by
  obtain ⟨u, hmap, hpack⟩ := encodeStage_ok h
  obtain ⟨v, es, hv, hes, hresid, rfl⟩ := mapFwdStage_ok_iff.1 hmap
  rw [xformFwdStage_residCells] at hresid
  have hl : es.length + 1 = s.build.cells := by
    simpa [Params.cells] using (congrArg List.length hresid).symm
  have hcodes := (xformFwdStage f s).codeCells_writeCodes
    (ws := codeWord (firstCellBits v) :: es.map fun e => codeWord e.code) (by simpa [(xformFwdStage_writes f s).build] using hl)
  obtain ⟨p, hp, hb, hfits, hstream⟩ := packStage_of_packGrid (hcodes ▸ packGrid_mapped s.build.parts.2.1 es hes)
  cases hp.symm.trans hpack
  exact ⟨hb, hfits, v, es, hv, hl, hes, hresid, hstream⟩

theorem getD_sample_range {ys : List Int} (hy : ∀ y ∈ ys, 0 ≤ y ∧ y ≤ 255) (i : Nat) : 0 ≤ ys.getD i 0 ∧ ys.getD i 0 ≤ 255 := by
  by_cases h : i < ys.length
  · rw [List.getD_eq_getElem _ _ h]
    exact hy _ (List.getElem_mem h)
  · rw [List.getD_eq_default _ _ (not_lt.1 h)]
    decide

/-- DECODE from UNPACK on (R205): where the unpacked words code the residual grid of a raster under the same formula, RECON
takes that raster, and BIT_POS and BIT_LEN stay as UNPACK left them. -/
theorem decodeStage_of_unpackStage {f : Selector} {s t : State} {ys : List Int} {v : Nat} {es : List Entry}
    (h : unpackStage s = .ok t) (hl : ys.length = t.build.cells) (hy : ∀ y ∈ ys, 0 ≤ y ∧ y ≤ 255) (hv : v < 256)
    (hes : ∀ e ∈ es, e ∈ t.build.table) (hresid : residuals t.build.side f ys = (v : Int) :: es.map Entry.value)
    (hcodes : t.codeCells = codeWord (firstCellBits v) :: es.map fun e => codeWord e.code) :
    ∃ u, decodeStage f s = .ok u ∧ u.build = t.build ∧ u.bitPos = t.bitPos ∧ u.bitLen = t.bitLen ∧ u.reconCells = ys := by
  have hmap : mapInvStage t = .ok (t.writeResid (residuals t.build.side f ys)) :=
    hresid ▸ mapInvStage_of_words hv hes hcodes
  have hgrid : (t.writeResid (residuals t.build.side f ys)).residCells = residuals t.build.side f ys :=
    t.residCells_writeResid (length_residuals _ _ _) (residuals_fit (getD_sample_range hy))
  refine ⟨(t.writeResid (residuals t.build.side f ys)).writeRecon ys, ?_, rfl, rfl, rfl, State.reconCells_writeRecon _ hl hy⟩
  simp only [decodeStage, h, hmap]
  exact xformInvStage_of_residuals hl hy hgrid

theorem State.streamBits_congr {s t : State} {len : Nat} (h : ∀ k, k < len → t.bit k = s.bit k) :
    t.streamBits len = s.streamBits len := by
  rw [State.streamBits_eq_map, State.streamBits_eq_map]
  exact List.map_congr_left fun k hk => h k (List.mem_range.1 hk)

/-- Settles O50: ENCODE writes the code of the raster's residual grid and nothing more; UNPACK reads it back, and the walk
over that grid rebuilds the raster. -/
theorem encodeThenDecodeIsLossless : Obligations.EncodeThenDecodeIsLossless := by
  intro f s t t' ht herr hbuild hlen hbits
  obtain ⟨m, hm, rfl⟩ := stage_ok_of_exec ht herr
  obtain ⟨hb, hfits, v, es, hv, hl, hes, hresid, hstream⟩ := encodeStage_stream hm
  have hb' : t'.build = s.build := hbuild.trans hb
  have hstream' : t'.streamBits t'.bitLen.toNat = firstCellBits v ++ es.flatMap Entry.code := by
    rw [hlen, State.streamBits_congr hbits]
    exact hstream
  obtain ⟨p, hunpack, hpb, hpos, hcodes⟩ :=
    unpackStage_of_whole_stream (s := t'.accept (encode (.decode f))) (hlen ▸ hfits) (hb' ▸ hl) (hb' ▸ hes) hstream'
  have hpb' : p.build = s.build := hpb.trans hb'
  obtain ⟨u, hdecode, hub, hupos, hulen, hrecon⟩ := decodeStage_of_unpackStage hunpack (hpb' ▸ s.length_rasterCells)
    s.rasterCells_range hv (hpb' ▸ hes) (hpb' ▸ hresid) hcodes
  refine ⟨u.completeOk, exec_of_ok (i := .decode f) hdecode, rfl, fun i hi => ?_, ?_⟩
  · exact State.readLoc_recon_of_reconCells (t := u.completeOk) (hub.trans hpb') hrecon hi
  · exact congrArg (BitVec.setWidth 32) (hupos.trans (hpos.trans hulen.symm))

/-! ### An illegal word -/

/-- The ways of R203 for a word to break R82. -/
theorem not_legalFields_iff (rsv : BitVec 25) (sel : BitVec 3) (op : BitVec 4) :
    ¬ LegalFields rsv sel op ↔ rsv ≠ 0#25 ∨ 0xC ≤ op.toNat ∨ (op.toNat ∈ [0x1, 0x2, 0x3, 0xA, 0xB] ∧ sel = 0#3) ∨
      (op.toNat ∉ [0x1, 0x2, 0x3, 0xA, 0xB] ∧ sel ≠ 0#3) := by
  rw [LegalFields, usesSelector_iff_mem, show 0xC ≤ op.toNat ↔ ¬ op.toNat ≤ 0xB from Nat.not_le.symm]
  tauto

/-- Settles O7: such a word does not decode, so its turn is the error completion of IllegalCommand with an empty W(cmd). -/
theorem illegalWordChangesNothingElse : Obligations.IllegalWordChangesNothingElse := by
  intro s w hr hf htaint hillegal
  have hw : ¬ ∃ i, decode w = .ok i :=
    mt (decode_ok_iff_legalFields w).1 ((not_legalFields_iff (rsvField w) (selField w) (opField w)).2 hillegal)
  refine ⟨s.completeError ⟨.illegalCommand, 0⟩ [], ?_, State.readLoc_status_completeError_illegalCommand s 0 [], rfl, rfl, ?_⟩
  · simp [pccTurn_of_inFlight hr hf, htaint, completeWord_of_not_ok hw]
  · refine (s.sameBut_completeError _ (outs := []) (by simp)).mono fun l hl => ?_
    simpa using hl

/-! ### A write of CMD -/

theorem hostWrite_busy_cmd {s : State} (hr : s.inReset = false) (hb : s.status.busy = true) (v : Word) :
    hostWrite (s.build.base + Loc.cmd.offset) 4 v s = .next s := by
  simp [hostWrite_cmd s hr, hb]

/-- Settles O5: CMD stands at offset 0; an idle write of it is the acceptance of the word, a write while BUSY nothing. -/
theorem cmdWriteAcceptsOrIsDropped : Obligations.CmdWriteAcceptsOrIsDropped :=
  fun _ w hr => ⟨fun hb => hostWrite_idle_cmd hr hb w, fun hb => hostWrite_busy_cmd hr hb w⟩

end Sys2Proof.Machine
end

section
/-! PROOFS. BadOperand: a stream longer than BITBUF, a cursor past the stream, and a code word that is too long (R224). -/

namespace Sys2Proof.Machine

/-- A rule's error as the host reads it: its kind in STATUS and its index in ERR_INDEX (R225). -/
theorem exec_next_of_error {i : Instr} {s : State} {e : CmdError} (h : stage i s = .error e) :
    ∃ t, exec i s = .next t ∧ t.status = .completed (some e.kind) ∧
      t.readLoc .errIndex = (BitVec.ofNat 16 e.index).setWidth 32 :=
  ⟨_, exec_of_error h, rfl, rfl⟩

/-! ### The rules that raise BadOperand -/

/-- BIT_LEN above MAX_BITS is the first thing the commands that read the stream check. -/
theorem stage_of_bitLen_gt {i : Instr} {s : State} (hi : i = .symDec ∨ i = .unpack ∨ ∃ f, i = .decode f)
    (h : 32768 < s.bitLen.toNat) : stage i s = .error ⟨.badOperand, 0⟩ := by
  have hunpack : unpackStage s = .error ⟨.badOperand, 0⟩ := if_pos h
  obtain rfl | rfl | ⟨f, rfl⟩ := hi
  · exact if_pos h
  · exact hunpack
  · simp only [stage, decodeStage, hunpack]

/-- CURSOR above BIT_LEN raises BadOperand on either side of the check of BIT_LEN. -/
theorem symDecStage_of_bitLen_lt_cursor {s : State} (h : s.bitLen.toNat < s.cursor.toNat) :
    symDecStage s = .error ⟨.badOperand, 0⟩ := by
  by_cases hmax : Config.maxBits < s.bitLen.toNat
  · exact if_pos hmax
  · exact (if_neg hmax).trans (if_pos h)

theorem packCell_of_lt {w : Word} (h : 24 < codeLen w) (i : Nat) : packCell i w = .error ⟨.badOperand, i⟩ := if_pos h

theorem packCell_of_le {w : Word} (h : codeLen w ≤ 24) (i : Nat) : packCell i w = .ok (codeBits w) := if_neg h.not_gt

/-- PACK fails at the first cell whose LEN is above 24 (R180, R226). -/
theorem packStage_of_first_too_long {s : State} {i : Nat} (hi : i < s.build.cells)
    (h : 24 < codeLen (s.readLoc (.codegrid i))) (hbefore : ∀ j, j < i → codeLen (s.readLoc (.codegrid j)) ≤ 24) :
    packStage s = .error ⟨.badOperand, i⟩ := by
  have hcell : ∀ j (hj : j < s.codeCells.length), s.codeCells[j] = s.readLoc (.codegrid j) := fun j hj => by
    rw [s.readLoc_codegrid (by simpa using hj), List.getD_eq_getElem _ _ hj]
  have hwalk : mapCells packCell 0 s.codeCells = .error ⟨.badOperand, i⟩ := by
    refine (mapCells_error_iff _ _ _ _).2 ⟨i, by simpa using hi, ?_, fun j hj => ?_⟩
    · rw [hcell, Nat.zero_add, packCell_of_lt h]
    · exact ⟨_, by rw [hcell, packCell_of_le (hbefore j hj)]⟩
  simp only [packStage, packGrid, hwalk]

/-! ### ENCODE -/

/-- The four error codes differ (R220). -/
theorem ErrKind.code_injective : Function.Injective ErrKind.code := by
  intro k k' h
  cases k <;> cases k' <;> simp_all [ErrKind.code]

theorem Status.completed_eq_completed_some_iff {r : Option ErrKind} {k : ErrKind} :
    Status.completed r = .completed (some k) ↔ r = some k := by
  cases r with
  | none => simp [Status.completed]
  | some k' => simp [Status.completed, ErrKind.code_injective.eq_iff]

/-- A command completes with an error only of a kind that its rule can raise (R220). -/
theorem mem_errorKinds_of_exec {i : Instr} {s t : State} {k : ErrKind} (h : exec i s = .next t)
    (hst : t.status = .completed (some k)) : k ∈ errorKinds i := by
  obtain ⟨u, -, rfl⟩ | ⟨e, he, rfl⟩ := exec_cases h
  · cases Status.completed_eq_completed_some_iff (r := none).1 hst
  · cases Status.completed_eq_completed_some_iff (r := some e.kind).1 hst
    exact (stage_error he).1

/-- Settles O53: BIT_LEN is checked first and CURSOR next, PACK's walk ends at its first long word, and BadOperand is none
of the kinds ENCODE's rule can raise, since MAP_FWD writes only words of at most 24 bits. -/
theorem badOperandCauses : Obligations.BadOperandCauses := by
  refine ⟨fun s i hi h => exec_next_of_error (stage_of_bitLen_gt hi h),
    fun s h => exec_next_of_error (i := .symDec) (symDecStage_of_bitLen_lt_cursor h), fun s i hi h hbefore => ?_,
    fun f s t h hst => by simpa [errorKinds] using mem_errorKinds_of_exec h hst⟩
  obtain ⟨t, ht, hst, herr⟩ := exec_next_of_error (i := .pack) (packStage_of_first_too_long hi h hbefore)
  have hlt : i < 65536 := (hi.trans_le s.build.cells_le).trans_le (by decide)
  exact ⟨t, ht, hst, by rw [herr, toNat_read16 hlt]⟩

end Sys2Proof.Machine
end

section
/-! PROOFS. The decoder inverts the encoder, and gives a command on no other word (R80, R81, R91). -/

/-! ### From a decoded word back to its fields -/

namespace Sys2Proof

theorem decodePlain_eq_ok_iff {w : Word} {i j : Instr} : decodePlain w i = .ok j ↔ selField w = 0#3 ∧ i = j := by
  by_cases h : selField w = 0#3 <;> simp [decodePlain, h]

theorem decodeWithSelector_eq_ok {w : Word} {mk : Selector → Instr} {j : Instr} (h : decodeWithSelector w mk = .ok j) :
    ∃ f, f.bits = selField w ∧ mk f = j := by
  simp only [decodeWithSelector] at h
  split at h
  · next f hf => exact ⟨f, bits_of_selectorOf_eq_some hf, Except.ok.inj h⟩
  · cases h

/-- A decoded word holds the opcode and the SEL of its command, and RSV = 0. -/
theorem fields_of_decode {w : Word} {i : Instr} (h : decode w = .ok i) :
    rsvField w = 0#25 ∧ selField w = i.selBits ∧ opField w = i.opcode := by
  have hr : rsvField w = 0#25 := by
    by_contra hr
    simp [decode_of_rsv hr] at h
  rw [decode, if_neg (not_not_intro hr)] at h
  refine ⟨hr, ?_⟩
  split at h
  case h_13 => cases h
  case h_2 | h_3 | h_4 | h_11 | h_12 =>
    next hop =>
      obtain ⟨f, hf, rfl⟩ := decodeWithSelector_eq_ok h
      exact ⟨hf.symm, BitVec.eq_of_toNat_eq hop⟩
  all_goals
    next hop =>
      obtain ⟨hs, rfl⟩ := decodePlain_eq_ok_iff.1 h
      exact ⟨hs, BitVec.eq_of_toNat_eq hop⟩

theorem encode_of_decode {w : Word} {i : Instr} (h : decode w = .ok i) : encode i = w := by
  obtain ⟨hr, hs, ho⟩ := fields_of_decode h
  rw [encode, ← hr, ← hs, ← ho, word_fields]

/-! ### From a command to its word -/

theorem decode_encode (i : Instr) : decode (encode i) = .ok i := by
  cases i with
  | predict f | xformFwd f | xformInv f | encode f | decode f => cases f <;> rfl
  | _ => rfl

/-- Settles O1: a decoded word is put together again from its fields, and every command decodes from its own word. -/
theorem decodeAndEncodeAgree : Obligations.DecodeAndEncodeAgree :=
  fun _ i => ⟨encode_of_decode, fun h => h ▸ decode_encode i⟩

/-- Settles O3: by evaluation of the decoder. -/
theorem sampleWordsDecode : Obligations.SampleWordsDecode := by
  unfold Obligations.SampleWordsDecode
  decide

end Sys2Proof
end

section
/-! PROOFS. What the PCC's turn and a host access can do, said once each: every fact about a step is read off these cases. -/

namespace Sys2Proof.Machine

section
variable {s t : State}

/-- Everything the PCC's turn can do (R201, R250, R253): nothing, the completion of the command in flight, or the completion of
a spoilt one. -/
theorem pccTurn_cases (h : pccTurn s = .next t) :
    t = s ∨ (∃ w, s.inFlight = some w ∧ completeWord w s = .next t) ∨
      ∃ w, s.inFlight = some w ∧ s.tainted ≠ [] ∧ t = s.completeTainted w := by
  rw [pccTurn] at h
  split at h
  · cases h; exact .inl rfl
  · split at h
    · cases h; exact .inl rfl
    · next w hf =>
      split_ifs at h with htaint
      · exact .inr (.inl ⟨w, hf, h⟩)
      · cases h; exact .inr (.inr ⟨w, hf, by simpa using htaint, rfl⟩)

/-- Everything a host read can do, in reset or not (R69): only the host's own data, and the count of free values. -/
theorem hostRead_cases {addr width : Nat} (h : hostRead addr width s = .next t) :
    ∃ r d, t = { s with lastRead := some r, draws := d } ∧ s.draws ≤ d := by
  rw [hostRead] at h
  split at h
  · cases h
  · next off _ =>
    cases h
    split_ifs
    · exact ⟨_, s.draws + 1, rfl, Nat.le_succ _⟩
    · exact s.readWindow_cases off width

/-- Everything a host write can do (R63, R67, R200, R250): nothing, or outside reset the acceptance of a command while idle, the
store of a RW location while idle, or the spoiling of the command in flight. -/
theorem hostWrite_cases {addr width : Nat} {v : Word} (h : hostWrite addr width v s = .next t) :
    t = s ∨ (s.inReset = false ∧ s.status.busy = false ∧ t = s.accept v) ∨
      (∃ l, l.mapped s.build = true ∧ l.hostWritable = true ∧ s.status.busy = false ∧ t = s.storeLoc l v) ∨
      ∃ l, l.mapped s.build = true ∧ s.status.busy = true ∧ t = s.taint l := by
  rw [hostWrite] at h
  split at h
  · cases h
  · next off _ =>
    cases h
    split_ifs with hr
    · exact .inl rfl
    · obtain hw | ⟨hb, hw⟩ | ⟨l, hm, hwr, hb, hw⟩ | ⟨l, hm, -, hb, hw⟩ := s.writeWindow_cases off width v
      · exact .inl hw
      · exact .inr (.inl ⟨by simpa using hr, hb, hw⟩)
      · exact .inr (.inr (.inl ⟨l, hm, hwr, hb, hw⟩))
      · exact .inr (.inr (.inr ⟨l, hm, hb, hw⟩))

end

end Sys2Proof.Machine
end

section
/-! PROOFS. The invariant of the machine: it holds at reset, and every event keeps it. -/

namespace Sys2Proof

/-- ERR_INDEX 0 names a cell (R26). -/
theorem Build.zero_lt_cells (b : Build) : (0#16).toNat < b.cells := b.one_le_cells

end Sys2Proof

namespace Sys2Proof.Machine

/-! ### Acceptance, stores and reset -/

theorem Status.completed_err_eq_false_iff {k : Option ErrKind} : (Status.completed k).err = false ↔ k = none := by
  cases k <;> simp [Status.completed]

/-- ERR_INDEX is no location a host write stores to (R63). -/
theorem State.storeLoc_errIndex_of_hostWritable (s : State) {l : Loc} (h : l.hostWritable = true) (w : Word) :
    (s.storeLoc l w).errIndex = s.errIndex := by
  cases l <;> first | rfl | cases h

/-- The states right after reset (R251 to R253), whatever build, inputs and counters the machine has. -/
def State.afterReset (b : Build) (r : Bool) (a : List Event) (l : Option Word) (d e : Nat) : State :=
  { State.reset with build := b, inReset := r, agenda := a, lastRead := l, draws := d, resetDraw := e }

theorem State.reset_eq_afterReset : State.reset = .afterReset Config.build false [] none 1 0 := rfl

theorem State.assertReset_eq_afterReset (s : State) :
    s.assertReset = .afterReset s.build true s.agenda s.lastRead (s.draws + 1) s.draws := rfl

/-- Right after reset nothing is in flight, nothing is stored and no fault is recorded. -/
theorem State.inv_afterReset (b : Build) (r : Bool) (a : List Event) (l : Option Word) {d e : Nat} (h : e < d) :
    (State.afterReset b r a l d e).Inv where
  memWf := .nil
  memStored := nofun
  statusLegal := rfl
  busyInFlight := rfl
  cmdInFlight := nofun
  errIndexInFlight _ := rfl
  errIndexCell _ := ⟨b.zero_lt_cells, fun _ => rfl⟩
  taintedInFlight h := absurd rfl h
  taintedMapped := nofun
  resetIdle _ := rfl
  drawn := h

/-- Settles O59: the reset state is one of the states right after reset. -/
theorem resetMeetsTheInvariant : Obligations.ResetMeetsTheInvariant := by
  rw [Obligations.ResetMeetsTheInvariant, State.reset_eq_afterReset]
  exact State.inv_afterReset _ _ _ _ Nat.one_pos

namespace State.Inv

variable {s t : State}

/-- The inputs, the host's last read and a growing count of draws are none of the invariant's concern. -/
theorem withInputs (h : s.Inv) (a : List Event) (l : Option Word) {d : Nat} (hd : s.draws ≤ d) :
    State.Inv { s with agenda := a, lastRead := l, draws := d } :=
  { h with drawn := h.drawn.trans_le hd }

theorem inFlight_of_busy (h : s.Inv) (hb : s.status.busy = true) : s.inFlight.isSome = true := h.busyInFlight ▸ hb

/-- Acceptance puts the word in flight and clears ERR_INDEX (R200). -/
theorem accept (h : s.Inv) (hr : s.inReset = false) (w : Word) : (s.accept w).Inv where
  memWf := h.memWf
  memStored := h.memStored
  statusLegal := rfl
  busyInFlight := rfl
  cmdInFlight _ hw := Option.some.inj hw
  errIndexInFlight _ := rfl
  errIndexCell _ := ⟨s.build.zero_lt_cells, fun _ => rfl⟩
  taintedInFlight ht := absurd rfl ht
  taintedMapped := by simp
  resetIdle hr' := by simp [hr] at hr'
  drawn := h.drawn

/-- A host's store touches only a register the invariant does not speak of, or the bytes of a mapped location. -/
theorem storeLoc (h : s.Inv) {l : Loc} (hm : l.mapped s.build = true) (hw : l.hostWritable = true) (v : Word) :
    (s.storeLoc l v).Inv where
  memWf := State.wf_storeLoc h.memWf l v
  memStored := by
    rw [State.storeLoc_build]
    exact State.stored_storeLoc h.memStored hm v
  statusLegal := by simpa using h.statusLegal
  busyInFlight := by simpa using h.busyInFlight
  cmdInFlight := by simpa using h.cmdInFlight
  errIndexInFlight := by simpa [s.storeLoc_errIndex_of_hostWritable hw] using h.errIndexInFlight
  errIndexCell := by simpa [s.storeLoc_errIndex_of_hostWritable hw] using h.errIndexCell
  taintedInFlight := by simpa using h.taintedInFlight
  taintedMapped := by simpa using h.taintedMapped
  resetIdle := by simpa using h.resetIdle
  drawn := by simpa using h.drawn

/-- A forbidden write while BUSY records a mapped location and the host fault (R67, R256). -/
theorem taint (h : s.Inv) {l : Loc} (hm : l.mapped s.build = true) (hb : s.status.busy = true) : (s.taint l).Inv where
  memWf := State.wf_taint h.memWf l
  memStored := by
    rw [State.taint_build]
    exact State.stored_taint h.memStored hm
  statusLegal := by simpa using h.statusLegal
  busyInFlight := by simpa using h.busyInFlight
  cmdInFlight := by simpa using h.cmdInFlight
  errIndexInFlight := by simpa using h.errIndexInFlight
  errIndexCell hf := by simp at hf
  taintedInFlight _ := ⟨by simpa using h.inFlight_of_busy hb, rfl⟩
  taintedMapped := by simpa using ⟨hm, h.taintedMapped⟩
  resetIdle := by simpa using h.resetIdle
  drawn := by simpa using h.drawn.trans (Nat.lt_succ_self _)

/-! ### Completion -/

/-- What every completion owes the invariant: canonical storage, and ERR_INDEX at a cell unless the host has broken R256. -/
theorem of_completed {k : Option ErrKind} (hwf : t.mem.wf) (hstored : ∀ c ∈ t.mem, storageByte t.build c.1)
    (hstatus : t.status = .completed k) (hidle : t.inFlight = none) (hclean : t.tainted = [])
    (hindex : t.hostFault = false → t.errIndex.toNat < t.build.cells ∧ (k = none → t.errIndex = 0#16))
    (hdrawn : t.resetDraw < t.draws) : t.Inv where
  memWf := hwf
  memStored := hstored
  statusLegal := hstatus ▸ Status.completed_legal k
  busyInFlight := by rw [hstatus, hidle, Status.completed_busy]; rfl
  cmdInFlight := by simp [hidle]
  errIndexInFlight := by simp [hidle]
  errIndexCell := by simpa only [hstatus, Status.completed_err_eq_false_iff] using hindex
  taintedInFlight ht := absurd hclean ht
  taintedMapped := by simp [hclean]
  resetIdle _ := hidle
  drawn := hdrawn

/-- A completion without an error leaves ERR_INDEX as acceptance set it. -/
theorem completeOk (h : s.Inv) (hf : s.inFlight.isSome) {i : Instr} (ht : stage i s = .ok t) : t.completeOk.Inv := by
  have hw := stage_writes ht
  have hstored : ∀ c ∈ t.mem, storageByte t.build c.1 := hw.build ▸ hw.stored h.memStored
  have hzero : t.errIndex = 0#16 := hw.errIndex.trans (h.errIndexInFlight hf)
  refine of_completed (k := none) (hw.wf h.memWf) hstored rfl rfl rfl (fun _ => ⟨?_, fun _ => hzero⟩) ?_
  · rw [State.completeOk_errIndex, hzero]
    exact t.build.zero_lt_cells
  · simpa [hw.resetDraw, hw.draws] using h.drawn

theorem scramble_stored (h : s.Inv) {outs : List Loc} (hm : ∀ l ∈ outs, l.mapped s.build = true) :
    ∀ c ∈ (s.scramble outs).mem, storageByte (s.scramble outs).build c.1 := by
  rw [State.scramble_build]
  exact State.stored_scramble h.memStored hm

/-- An error is recorded at a cell of the grid (R225). -/
theorem completeError (h : s.Inv) {e : CmdError} {outs : List Loc} (hm : ∀ l ∈ outs, l.mapped s.build = true)
    (he : e.index < s.build.cells) : (s.completeError e outs).Inv := by
  refine of_completed (k := some e.kind) (State.wf_scramble h.memWf outs) (h.scramble_stored hm) rfl rfl rfl
    (fun _ => ⟨?_, nofun⟩) ?_
  · have := s.build.cells_le
    rw [State.completeError_build, State.completeError_errIndex, toNat_ofNat16 (by omega)]
    exact he
  · simpa using h.drawn.trans (Nat.lt_succ_self _)

/-- A spoilt command may leave any ERR_INDEX, but only a host that has broken R256 can spoil one (log 9). -/
theorem completeTainted (h : s.Inv) (ht : s.tainted ≠ []) (w : Word) : (s.completeTainted w).Inv := by
  have hm : ∀ l ∈ wordOutputs w s.build ++ s.tainted, l.mapped s.build = true := by
    simpa [or_imp, forall_and] using ⟨wordOutputs_mapped w s.build, h.taintedMapped⟩
  refine of_completed (k := Config.freeOutcome s.draws) (State.wf_scramble h.memWf _) (h.scramble_stored hm) rfl rfl rfl
    (fun hf => ?_) ?_
  · have hfault : (s.completeTainted w).hostFault = s.hostFault := State.scramble_hostFault s _
    simp [hfault, (h.taintedInFlight ht).2] at hf
  · have hdraw : (s.completeTainted w).resetDraw = s.resetDraw := State.scramble_resetDraw s _
    exact hdraw ▸ h.drawn.trans (Nat.lt_succ_self _)

theorem completeWord (h : s.Inv) (hf : s.inFlight.isSome) {w : Word} (ht : completeWord w s = .next t) : t.Inv := by
  rw [Machine.completeWord] at ht
  split at ht
  · obtain ⟨u, hu, rfl⟩ | ⟨e, he, rfl⟩ := exec_cases ht
    · exact h.completeOk hf hu
    · exact h.completeError (outputs_mapped _ _) (stage_error he).2
  · cases ht
    exact h.completeError (by simp) s.build.one_le_cells

/-! ### Every event -/

theorem pccTurn (h : s.Inv) (ht : pccTurn s = .next t) : t.Inv := by
  obtain rfl | ⟨w, hf, ht⟩ | ⟨w, -, htaint, rfl⟩ := pccTurn_cases ht
  · exact h
  · exact h.completeWord (by simp [hf]) ht
  · exact h.completeTainted htaint w

theorem hostRead (h : s.Inv) {addr width : Nat} (ht : hostRead addr width s = .next t) : t.Inv := by
  obtain ⟨r, d, rfl, hd⟩ := hostRead_cases ht
  exact h.withInputs s.agenda _ hd

theorem hostWrite (h : s.Inv) {addr width : Nat} {v : Word} (ht : hostWrite addr width v s = .next t) : t.Inv := by
  obtain rfl | ⟨hr, -, rfl⟩ | ⟨l, hm, hw, -, rfl⟩ | ⟨l, hm, hb, rfl⟩ := hostWrite_cases ht
  · exact h
  · exact h.accept hr v
  · exact h.storeLoc hm hw v
  · exact h.taint hm hb

theorem runEvent (h : s.Inv) {e : Event} (ht : runEvent e s = .next t) : t.Inv := by
  cases e with
  | pccTurn => exact h.pccTurn ht
  | hostRead addr width => exact h.hostRead ht
  | hostWrite addr width v => exact h.hostWrite ht
  | resetAssert =>
    cases ht
    rw [s.assertReset_eq_afterReset]
    exact State.inv_afterReset _ _ _ _ (Nat.lt_succ_self _)
  | resetRelease =>
    cases ht
    exact { h with resetIdle := nofun }

end State.Inv

/-- Settles O58: a step is one event on a state that differs in its inputs only, or the PCC's turn when no input is left. -/
theorem everyStepKeepsTheInvariant : Obligations.EveryStepKeepsTheInvariant := by
  intro s t h ht
  cases ha : s.agenda with
  | nil => exact h.pccTurn (step_nil ha ▸ ht)
  | cons e rest => exact (h.withInputs rest s.lastRead le_rfl).runEvent (step_cons ha ▸ ht)

end Sys2Proof.Machine
end

section
/-! PROOFS. Steps and runs: where the machine stops (R60), that every accepted command completes (R201, R262), and RUN at every
latency (R92, R262). -/

namespace Sys2Proof.Machine

/-! ### No event changes the configuration (R38) -/

section
variable {s t : State}

theorem pccTurn_build (h : pccTurn s = .next t) : t.build = s.build := by
  obtain rfl | ⟨w, -, h⟩ | ⟨w, -, -, rfl⟩ := pccTurn_cases h
  · rfl
  · exact (completeWord_sameBut h).build
  · exact State.scramble_build s _

theorem hostRead_build {addr width : Nat} (h : hostRead addr width s = .next t) : t.build = s.build := by
  obtain ⟨r, d, rfl, -⟩ := hostRead_cases h
  rfl

theorem runEvent_build {e : Event} (h : runEvent e s = .next t) : t.build = s.build := by
  cases e with
  | pccTurn => exact pccTurn_build h
  | hostRead addr width => exact hostRead_build h
  | hostWrite addr width v => exact hostWrite_build h
  | resetAssert | resetRelease => cases h; rfl

end

/-! ### Where the machine stops (R60) -/

/-- A host access outside the window. -/
def Event.outside (b : Build) : Event → Prop
  | .hostRead addr _ | .hostWrite addr _ _ => addr < b.base ∨ b.base + 0x8000 ≤ addr
  | .pccTurn | .resetAssert | .resetRelease => False

/-- An access of the host, inside the window or not. -/
def Event.isAccess : Event → Prop
  | .hostRead .. | .hostWrite .. => True
  | .pccTurn | .resetAssert | .resetRelease => False

theorem runEvent_of_outside {s : State} {e : Event} (h : e.outside s.build) : runEvent e s = .fault .outsideWindow := by
  cases e with
  | hostRead addr width => simp only [runEvent, hostRead, windowOffset_eq_none.2 h]
  | hostWrite addr width v => simp only [runEvent, hostWrite, windowOffset_eq_none.2 h]
  | pccTurn | resetAssert | resetRelease => exact h.elim

theorem runEvent_of_not_outside {s : State} {e : Event} (h : ¬ e.outside s.build) : ∃ t, runEvent e s = .next t := by
  cases e with
  | hostRead addr width =>
    obtain ⟨off, hoff⟩ := Option.ne_none_iff_exists'.1 (mt windowOffset_eq_none.1 h)
    exact hostRead_next hoff
  | hostWrite addr width v =>
    obtain ⟨off, hoff⟩ := Option.ne_none_iff_exists'.1 (mt windowOffset_eq_none.1 h)
    exact hostWrite_next hoff
  | pccTurn => exact pccTurn_next s
  | resetAssert | resetRelease => exact ⟨_, rfl⟩

/-- Settles O60: a step is one event, which faults exactly on an access outside the window and otherwise goes on in the same
build. -/
theorem onlyAccessesOutsideTheWindowStop : Obligations.OnlyAccessesOutsideTheWindowStop := by
  refine fun s => ⟨?_, fun hin => ?_⟩
  · rintro ⟨addr, width, rest, ha | ⟨v, ha⟩, hout⟩ <;> rw [step_cons ha]
    · exact runEvent_of_outside (e := .hostRead addr width) hout
    · exact runEvent_of_outside (e := .hostWrite addr width v) hout
  · cases ha : s.agenda with
    | nil =>
      obtain ⟨t, ht⟩ := pccTurn_next s
      exact ⟨t, (step_nil ha).trans ht, pccTurn_build ht⟩
    | cons e rest =>
      have hin' : ¬ e.outside s.build := by
        intro hout
        cases e with
        | hostRead addr width => exact hin ⟨addr, width, rest, .inl ha, hout⟩
        | hostWrite addr width v => exact hin ⟨addr, width, rest, .inr ⟨v, ha⟩, hout⟩
        | pccTurn | resetAssert | resetRelease => exact hout
      obtain ⟨t, ht⟩ := runEvent_of_not_outside (s := { s with agenda := rest }) hin'
      exact ⟨t, (step_cons ha).trans ht, runEvent_build (s := { s with agenda := rest }) ht⟩

/-! ### The turn of a command in flight -/

/-- With a command in flight the turn completes it, spoilt or not. -/
theorem pccTurn_completes {s : State} {w : Word} (hr : s.inReset = false) (hf : s.inFlight = some w) :
    ∃ t k, pccTurn s = .next t ∧ t.inFlight = none ∧ t.status = .completed k := by
  obtain ⟨t, ht⟩ := pccTurn_next s
  have hturn := pccTurn_of_inFlight hr hf
  by_cases htaint : s.tainted.isEmpty = true
  · rw [ht, if_pos htaint] at hturn
    obtain ⟨hidle, -, k, hk⟩ := completeWord_done hturn.symm
    exact ⟨t, k, ht, hidle, hk⟩
  · rw [if_neg htaint] at hturn
    exact ⟨_, _, hturn, rfl, rfl⟩

theorem pccTurn_of_decode {s : State} {w : Word} {i : Instr} (hr : s.inReset = false) (hf : s.inFlight = some w)
    (ht : s.tainted = []) (hd : decode w = .ok i) : pccTurn s = exec i s := by
  simp [pccTurn_of_inFlight hr hf, ht, completeWord, hd]

/-- Settles O6: the step is the PCC's turn, which runs the command that the word in flight decodes to. -/
theorem stepRunsTheDecodedCommand : Obligations.StepRunsTheDecodedCommand := by
  intro s w i hr hf ht hd
  refine ⟨fun ha => ?_, fun rest ha => ?_⟩
  · rw [step_nil ha, pccTurn_of_decode hr hf ht hd]
  · rw [step_cons ha]
    exact pccTurn_of_decode (s := { s with agenda := rest }) hr hf ht hd

/-! ### Every accepted command completes -/

/-- A host access while BUSY leaves the command in flight, and BUSY with it (R67). -/
theorem access_keeps_inFlight {s t : State} {e : Event} (he : e.isAccess) (hb : s.status.busy = true)
    (h : runEvent e s = .next t) :
    t.inFlight = s.inFlight ∧ t.status = s.status ∧ t.inReset = s.inReset ∧ t.agenda = s.agenda := by
  cases e with
  | hostRead addr width =>
    obtain ⟨r, d, rfl, -⟩ := hostRead_cases h
    exact ⟨rfl, rfl, rfl, rfl⟩
  | hostWrite addr width v =>
    obtain rfl | ⟨-, hidle, -⟩ | ⟨l, -, -, hidle, -⟩ | ⟨l, -, -, rfl⟩ := hostWrite_cases h
    · exact ⟨rfl, rfl, rfl, rfl⟩
    · simp [hb] at hidle
    · simp [hb] at hidle
    · simp
  | pccTurn | resetAssert | resetRelease => exact he.elim

/-- A run whose next step is the turn of a command in flight ends with that command completed. -/
theorem run_one_completes {s s' : State} {w : Word} (hr : s'.inReset = false) (hf : s'.inFlight = some w)
    (hstep : step s = pccTurn s') : ∃ t, Sys2Proof.core.run 1 s = .next t ∧ t.inFlight = none ∧ t.status.done = true ∧
      t.status.busy = false := by
  obtain ⟨t, k, ht, hidle, hk⟩ := pccTurn_completes hr hf
  exact ⟨t, by rw [core_run_succ 0 (hstep.trans ht), core_run_zero], hidle, hk ▸ Status.completed_done k,
    hk ▸ Status.completed_busy k⟩

/-- Settles O8: by induction on the inputs; an access leaves the command in flight for the rest of them, and the PCC's turn, at
the latest when no input is left, completes it. -/
theorem acceptedCommandCompletes : Obligations.AcceptedCommandCompletes := by
  intro s w
  induction ha : s.agenda generalizing s with
  | nil =>
    intro hr hf _ _
    obtain ⟨t, hrun, hdone⟩ := run_one_completes hr hf (step_nil ha)
    exact ⟨1, t, le_rfl, hrun, hdone⟩
  | cons e rest ih =>
    intro hr hf hb hall
    obtain rfl | ⟨hacc, hin⟩ : e = .pccTurn ∨ e.isAccess ∧ ¬ e.outside s.build := by
      obtain he | ⟨addr, width, rfl, hwin⟩ | ⟨addr, width, v, rfl, hwin⟩ := hall e List.mem_cons_self
      · exact .inl he
      all_goals exact .inr ⟨trivial, by simp only [Event.outside]; omega⟩
    · obtain ⟨t, hrun, hdone⟩ := run_one_completes (s' := { s with agenda := rest }) hr hf (step_cons ha)
      exact ⟨1, t, by simp, hrun, hdone⟩
    · obtain ⟨u, hu⟩ := runEvent_of_not_outside (s := { s with agenda := rest }) hin
      obtain ⟨huf, hus, hur, hua⟩ := access_keeps_inFlight (s := { s with agenda := rest }) hacc hb hu
      have hub : u.build = s.build := runEvent_build (s := { s with agenda := rest }) hu
      obtain ⟨k, t, hk, hrun, hdone⟩ := ih u hua (hur.trans hr) (huf.trans hf) (hus ▸ hb)
        fun e he => hub ▸ hall e (List.mem_cons_of_mem _ he)
      exact ⟨k + 1, t, by simpa using hk, by rw [core_run_succ k ((step_cons ha).trans hu), hrun], hdone⟩

/-! ### RUN at every latency -/

/-- A command always goes on to a next state. -/
theorem exec_next (i : Instr) (s : State) : ∃ t, exec i s = .next t := ⟨_, exec_eq_finish i s⟩

/-- STATUS reads exactly at any time outside reset (R67). -/
theorem hostRead_status (s : State) (hr : s.inReset = false) :
    hostRead (s.build.base + Loc.status.offset) 4 s = .next { s with lastRead := some (s.readLoc .status) } := by
  simp [hostRead_loc s (l := .status) rfl hr, State.unsettled_status]

/-- A step of the machine that reads STATUS. -/
theorem step_rd_status {s : State} (hr : s.inReset = false) (rest : List Event) (r : Option Word) :
    step (s.withInputs (rd s.build .status :: rest) r) = .next (s.withInputs rest (some (s.readLoc .status))) := by
  rw [step_cons (rest := rest) rfl]
  exact hostRead_status (s.withInputs rest r) hr

/-- Reads of STATUS before the PCC's turn change nothing but the host's own data (R69). -/
theorem run_replicate_rd_status {s : State} (hr : s.inReset = false) (n k : Nat) (rest : List Event) (r : Option Word) :
    ∃ r', Sys2Proof.core.run (k + n) (s.withInputs (List.replicate k (rd s.build .status) ++ rest) r) =
      Sys2Proof.core.run n (s.withInputs rest r') := by
  induction k generalizing r with
  | zero => exact ⟨r, by rw [Nat.zero_add]; rfl⟩
  | succ k ih =>
    obtain ⟨r', hrun⟩ := ih (some (s.readLoc .status))
    refine ⟨r', ?_⟩
    rw [List.replicate_succ, List.cons_append, Nat.add_right_comm, core_run_succ _ (step_rd_status hr _ r), hrun]

/-- POLL of R92 from an accepted command: its rule's state, with STATUS as the last read. -/
theorem run_poll {s u : State} {w : Word} {i : Instr} (hr : s.inReset = false) (hf : s.inFlight = some w)
    (ht : s.tainted = []) (hd : decode w = .ok i) (hu : exec i s = .next u) (k : Nat) (rest : List Event) (r : Option Word) :
    Sys2Proof.core.run (k + 2) (s.withInputs (poll s.build k ++ rest) r) =
      .next (u.withInputs rest (some (u.readLoc .status))) := by
  have hub := (exec_sameBut hu).build
  have hur : u.inReset = false := (exec_sameBut hu).inReset.trans hr
  obtain ⟨r', hreads⟩ := run_replicate_rd_status hr 2 k (.pccTurn :: rd s.build .status :: rest) r
  have hturn : step (s.withInputs (.pccTurn :: rd s.build .status :: rest) r') =
      .next (u.withInputs (rd u.build .status :: rest) r') := by
    rw [hub, step_cons (rest := rd s.build .status :: rest) rfl, ← exec_withInputs hu]
    exact pccTurn_of_decode (s := s.withInputs _ r') hr hf ht hd
  rw [poll, List.append_assoc]
  exact hreads.trans ((core_run_succ 1 hturn).trans
    ((core_run_succ 0 (step_rd_status hur rest r')).trans (core_run_zero _)))

/-- Settles O9: the write of CMD accepts the command, and POLL takes it to the state its rule gives, whatever the latency. -/
theorem runIsTheSameAtEveryLatency : Obligations.RunIsTheSameAtEveryLatency := by
  intro s i k hr hb
  obtain ⟨u, hu⟩ := exec_next i (s.accept (encode i))
  refine ⟨u, hu, ?_⟩
  have hagenda : u.agenda = s.agenda := (exec_sameBut hu).agenda
  have haccept : step (s.withInputs (wr s.build .cmd (encode i) :: (poll s.build k ++ s.agenda)) s.lastRead) =
      .next ((s.accept (encode i)).withInputs (poll s.build k ++ s.agenda) s.lastRead) := by
    rw [step_cons (rest := poll s.build k ++ s.agenda) rfl]
    exact hostWrite_idle_cmd (s := s.withInputs (poll s.build k ++ s.agenda) s.lastRead) hr hb _
  have hpoll := run_poll (s := s.accept (encode i)) hr rfl rfl (decode_encode i) hu k s.agenda s.lastRead
  refine (core_run_succ (k + 2) haccept).trans (hpoll.trans ?_)
  rw [State.withInputs, ← hagenda]

end Sys2Proof.Machine
end

section
/-! PROOFS. Accesses of the host: where the window holds nothing (R61, R62), reads (R64, R67, R69), forbidden writes (R67, R256),
and accesses during reset (R250). -/

namespace Sys2Proof.Machine

/-! ### Where the window holds nothing -/

/-- The reserved and unmapped offsets of the window, and the grid words at CELLS and above (R60, R62). -/
theorem Loc.ofOffset_eq_none {b : Build} {off : Nat} (hoff : off < 0x8000)
    (h : (0x03C ≤ off ∧ off < 0x1000) ∨ 0x6000 ≤ off ∨
      (0x1000 ≤ off ∧ off < 0x5000 ∧ b.cells ≤ off % 0x1000 / 4)) :
    Loc.ofOffset b off = none := by
  rw [Loc.ofOffset]
  split
  case h_1 => exact registerAt_none (by omega)
  case h_6 => omega
  case h_7 => rfl
  all_goals exact if_neg (by omega)

/-- An access that is not supported, or reaches nothing, has no effect as a write and reads 0 (R61, R62). -/
theorem window_of_nothing {s : State} {off width : Nat} (h : supported off width = false ∨ Loc.ofOffset s.build off = none)
    (v : Word) : s.writeWindow off width v = s ∧ s.readWindow off width = { s with lastRead := some 0#32 } := by
  cases hs : supported off width with
  | false => simp [State.writeWindow, State.readWindow, hs]
  | true => simp [State.writeWindow, State.readWindow, hs, h.resolve_left (by simp [hs])]

/-- Settles O10: such an access is unsupported, or nothing stands at its offset. -/
theorem unsupportedAndUnmappedAccesses : Obligations.UnsupportedAndUnmappedAccesses := by
  intro s off width v hr hoff h
  have hnothing : supported off width = false ∨ Loc.ofOffset s.build off = none := by
    obtain h | h | h := h
    · simp [supported, h]
    · simp [supported, h]
    · exact .inr (Loc.ofOffset_eq_none hoff h)
  obtain ⟨hw, hrd⟩ := window_of_nothing hnothing v
  simp [hostWrite, hostRead, windowOffset_add s.build hoff, hr, hw, hrd]

/-! ### Reads have no side effect, and idle writes are idempotent -/

theorem hostWrite_inReset {s : State} {off : Nat} (hoff : off < 0x8000) (hr : s.inReset = true) (width : Nat) (v : Word) :
    hostWrite (s.build.base + off) width v s = .next s := by
  simp [hostWrite, windowOffset_add s.build hoff, hr]

theorem hostRead_inReset {s : State} {off : Nat} (hoff : off < 0x8000) (hr : s.inReset = true) (width : Nat) :
    hostRead (s.build.base + off) width s = .next (s.readFree off) := by
  simp [hostRead, windowOffset_add s.build hoff, hr]

/-- Settles O12: a read by its cases; a write in reset has no effect, and an idle one is a store, which a second store of the
same word leaves as it is. -/
theorem readsHaveNoSideEffect : Obligations.ReadsHaveNoSideEffect := by
  refine ⟨fun s t addr width h => ?_, fun s t l v hb hm hw h => ?_⟩
  · obtain ⟨r, d, rfl, -⟩ := hostRead_cases h
    rfl
  · cases hr : s.inReset with
    | true =>
      have hnone := hostWrite_inReset (Loc.offset_lt hm).1 hr 4 v
      rw [hnone] at h
      cases h
      exact hnone
    | false =>
      rw [hostWrite_idle_hostWritable hr hb hm hw] at h
      cases h
      have hagain := hostWrite_idle_hostWritable (s := s.storeLoc l v) (l := l) (by simpa using hr) (by simpa using hb)
        (by simpa using hm) hw v
      rwa [State.storeLoc_build, State.storeLoc_storeLoc] at hagain

/-! ### Which reads are exact while BUSY -/

theorem State.unsettled_of_not_ok {s : State} {w : Word} (hf : s.inFlight = some w) (hd : ∀ i, decode w ≠ .ok i) (l : Loc) :
    s.unsettled l = false := by
  cases h : decode w with
  | ok i => exact absurd h (hd i)
  | error e => simp [State.unsettled, hf, h]

theorem State.unsettled_of_notMem_outputs {s : State} {w : Word} {i : Instr} {l : Loc} (hf : s.inFlight = some w)
    (hd : decode w = .ok i) (hl : l ∉ outputs i s.build) : s.unsettled l = false := by
  simp [State.unsettled, hf, hd, hl]

/-- The extent of an unspoilt PACK or ENCODE that will complete without an error is the BIT_LEN it will write (R84). -/
theorem streamExtent_of_exec {i : Instr} {s t : State} (hi : i = .pack ∨ ∃ f, i = .encode f) (h : exec i s = .next t)
    (herr : t.status.err = false) : streamExtent i s = t.bitLen.toNat := by
  obtain ⟨u, hu, rfl⟩ := stage_ok_of_exec h herr
  obtain rfl | ⟨f, rfl⟩ := hi
  · have hu : packStage s = .ok u := hu
    simp only [streamExtent, hu, State.completeOk_bitLen]
  · have hu : encodeStage f s = .ok u := hu
    simp only [streamExtent, hu, State.completeOk_bitLen]

theorem State.unsettled_of_streamExtent_le {s : State} {w : Word} {i : Instr} {j : Nat} (hf : s.inFlight = some w)
    (hd : decode w = .ok i) (ht : s.tainted = []) (hj : streamExtent i s ≤ 32 * j) : s.unsettled (.bitbuf j) = false := by
  simp [State.unsettled, hf, hd, ht, hj]

/-- Settles O13: a read is exact where the location is settled, by each of the ways of R67 and R84. -/
theorem busyReadsOutsideTheOutputsAreExact : Obligations.BusyReadsOutsideTheOutputsAreExact := by
  intro s l hr hm h
  suffices hsettled : s.status.busy = false ∨ s.unsettled l = false by
    rw [hostRead_loc s hm hr, if_neg (by simpa [or_iff_not_imp_left] using hsettled)]
  obtain hb | ⟨w, hf, h⟩ := h
  · exact .inl hb
  right
  obtain hd | ⟨i, hd, hl | ⟨hi, ht, t, j, hexec, herr, rfl, hj⟩⟩ := h
  · exact State.unsettled_of_not_ok hf hd l
  · exact State.unsettled_of_notMem_outputs hf hd hl
  · exact State.unsettled_of_streamExtent_le hf hd ht (streamExtent_of_exec hi hexec herr ▸ hj)

/-! ### A forbidden write -/

/-- A forbidden write makes its own location free and no other. -/
theorem State.readLoc_taint_of_ne (s : State) {l l' : Loc} (h : l.mapped s.build = true) (h' : l'.mapped s.build = true)
    (hne : l' ≠ l) : (s.taint l).readLoc l' = s.readLoc l' := by
  by_cases hw : l.hostWritable = true
  · rw [← s.readLoc_storeLoc_ne h h' hne (Config.freeWord s.draws l.offset), State.taint, if_pos hw]
    cases l' <;> rfl
  · rw [State.taint, if_neg hw]
    cases l' <;> rfl

theorem mem_wordOutputs {w : Word} {b : Build} {l : Loc} :
    l ∈ wordOutputs w b ↔ ∃ i, decode w = .ok i ∧ l ∈ outputs i b := by
  cases h : decode w <;> simp [wordOutputs, h]

/-- Settles O14: the write records the spoilt location, and the turn that follows completes the spoilt command, freeing W(cmd)
and the recorded locations only. -/
theorem busyWriteSpoilsTheCommand : Obligations.BusyWriteSpoilsTheCommand := by
  intro s w v l hr hb hf htm hm hc
  have hturn : pccTurn (s.taint l) = .next ((s.taint l).completeTainted w) := by
    rw [pccTurn_of_inFlight (w := w) (by simpa using hr) (by simpa using hf), if_neg (by simp)]
  have hmapped : ∀ x ∈ (s.taint l).tainted, x.mapped (s.taint l).build = true := by simpa using ⟨hm, htm⟩
  refine ⟨s.taint l, (s.taint l).completeTainted w, by simp [hostWrite_loc s hm hc hr, hb], by simpa using hf, by simp, rfl,
    hturn, Status.completed_busy _, Status.completed_done _, rfl, State.scramble_hostFault _ _, ?_⟩
  intro l' hm' hout hne hnt hstatus herr
  have hout' : l' ∉ wordOutputs w s.build := fun hmem => by
    obtain ⟨i, hi, hl⟩ := mem_wordOutputs.1 hmem
    exact hout i hi hl
  rw [((s.taint l).completeTainted_sameBut w hmapped).locs l' (by simpa using hm') (by simp [*]),
    s.readLoc_taint_of_ne hm hm' hne]

/-! ### Reset -/

theorem Status.word_idle : Status.idle.word = 0#32 := by decide

/-- Every register but ID reads 0 right after reset. -/
theorem State.readLoc_afterReset (b : Build) (r : Bool) (a : List Event) (l : Option Word) (d e : Nat) :
    ∀ reg ∈ [Loc.cmd, .status, .errIndex, .opa, .opb, .opc, .predOut, .symIn, .codeOut, .cursor, .symOut, .consumed, .bitLen,
      .bitPos], (State.afterReset b r a l d e).readLoc reg = 0#32 := by
  simp only [List.forall_mem_cons]
  exact ⟨rfl, Status.word_idle, rfl, rfl, rfl, rfl, rfl, rfl, rfl, rfl, rfl, rfl, rfl, rfl, nofun⟩

/-- Settles O16: both states are states right after reset, and reset keeps the build. -/
theorem registersAfterReset : Obligations.RegistersAfterReset := by
  intro s t ht
  simp only [List.mem_cons, List.not_mem_nil, or_false] at ht
  obtain rfl | rfl := ht
  · exact ⟨State.readLoc_afterReset s.build false s.agenda s.lastRead (s.draws + 1) s.draws, rfl, rfl, rfl⟩
  · exact ⟨State.reset_eq_afterReset ▸ State.readLoc_afterReset _ _ _ _ _ _, rfl, rfl, rfl⟩

/-- Settles O17: by the effect of each access and of the PCC's turn while reset is asserted. -/
theorem nothingHappensDuringReset : Obligations.NothingHappensDuringReset :=
  ⟨fun _ => ⟨rfl, rfl⟩, fun s off width v hr hoff =>
    ⟨hostWrite_inReset hoff hr width v, ⟨_, hostRead_inReset hoff hr width⟩, by simp [pccTurn, hr]⟩⟩

/-! ### What no command writes -/

/-- RASTER, the operands, SYM_IN, CMD and ID are in no output set (R40, R84). -/
theorem hostInput_notMem_outputs {l : Loc} (h : l ∈ [.cmd, .id, .opa, .opb, .opc, .symIn] ∨ ∃ i, l = .raster i) (i : Instr)
    (b : Build) : l ∉ outputs i b := by
  simp only [List.mem_cons, List.not_mem_nil, or_false] at h
  obtain (rfl | rfl | rfl | rfl | rfl | rfl) | ⟨j, rfl⟩ := h <;> cases i <;> simp [outputs, mem_gridLocs, mem_bitbufLocs]

/-- Settles O57: the turn of an unspoilt command changes STATUS, ERR_INDEX and W(cmd) only. -/
theorem noCommandWritesTheHostsInputs : Obligations.NoCommandWritesTheHostsInputs := by
  intro s t htaint ht l hm hl
  obtain rfl | ⟨w, -, hw⟩ | ⟨w, -, hspoilt, -⟩ := pccTurn_cases ht
  · rfl
  · refine (completeWord_sameBut hw).locs l hm ?_
    rintro (rfl | hmem | ⟨rfl, -⟩)
    · simp at hl
    · obtain ⟨i, -, hout⟩ := mem_wordOutputs.1 hmem
      exact hostInput_notMem_outputs hl i s.build hout
    · simp at hl
  · exact absurd htaint hspoilt

/-- Settles O51: NOP's rule writes nothing, so its completion is all there is. -/
theorem nopOnlyCompletes : Obligations.NopOnlyCompletes := fun s => exec_of_ok (i := .nop) (s := s) rfl

end Sys2Proof.Machine
end

section
/-! PROOFS. How the host sees a completion: the words of STATUS and ERR_INDEX (R25, R26, R220). -/

namespace Sys2Proof.Machine

/-- STATUS after a completion with an error: ERRCODE in [7:4], ERR and DONE (R25, R220). -/
def ErrKind.statusWord : ErrKind → Word
  | .unknownSymbol => 0x16#32
  | .malformedStream => 0x26#32
  | .illegalCommand => 0x36#32
  | .badOperand => 0x46#32

theorem Status.word_completed_none : (Status.completed none).word = 0x02#32 := by decide

theorem Status.word_completed_some (k : ErrKind) : (Status.completed (some k)).word = ErrKind.statusWord k := by
  cases k <;> decide

/-- An error as the host reads it: its number in STATUS and its cell in ERR_INDEX, which holds every cell (R26). -/
theorem exec_reports_of_error {i : Instr} {s : State} {e : CmdError} (h : stage i s = .error e) :
    ∃ t, exec i s = .next t ∧ t.readLoc .status = ErrKind.statusWord e.kind ∧ (t.readLoc .errIndex).toNat = e.index := by
  obtain ⟨t, ht, hst, herr⟩ := exec_next_of_error h
  have hlt : e.index < 65536 := ((stage_error h).2.trans_le s.build.cells_le).trans_le (by decide)
  exact ⟨t, ht, (congrArg Status.word hst).trans (Status.word_completed_some e.kind), by rw [herr, toNat_read16 hlt]⟩

/-- An error at cell 0, or of a command without a grid, leaves ERR_INDEX 0 (R26). -/
theorem exec_reports_of_error_zero {i : Instr} {s : State} {k : ErrKind} (h : stage i s = .error ⟨k, 0⟩) :
    ∃ t, exec i s = .next t ∧ t.readLoc .status = ErrKind.statusWord k ∧ t.readLoc .errIndex = 0#32 := by
  obtain ⟨t, ht, hst, herr⟩ := exec_reports_of_error h
  exact ⟨t, ht, hst, BitVec.eq_of_toNat_eq herr⟩

/-- Settles O52: a command completes with what its rule writes, or with one of the errors its rule can raise. -/
theorem errorCodesByCommand : Obligations.ErrorCodesByCommand := by
  intro i s
  cases hs : stage i s with
  | ok t => exact ⟨_, exec_of_ok hs, .inl Status.word_completed_none⟩
  | error e =>
    obtain ⟨t, ht, hst, -⟩ := exec_reports_of_error hs
    have hmem : t.readLoc .status ∈ (errorKinds i).map ErrKind.statusWord := hst ▸ List.mem_map_of_mem (stage_error hs).1
    exact ⟨t, ht, .inr (by cases i <;> exact hmem)⟩

end Sys2Proof.Machine
end

section
/-! PROOFS. PREDICT gives the exact prediction (R112); the residual transform backward: the raster it rebuilds, the cell it
reports (R132), and causality both ways (R135). -/

namespace Sys2Proof.Machine

/-! ### PREDICT -/

/-- No prediction from signed 16-bit operands leaves the range of R28. -/
theorem predict_range {a b c : Int} (f : Selector) (ha : -32768 ≤ a ∧ a ≤ 32767) (hb : -32768 ≤ b ∧ b ≤ 32767)
    (hc : -32768 ≤ c ∧ c ≤ 32767) : -98303 ≤ predict f a b c ∧ predict f a b c ≤ 98302 := by
  have hbc := tdiv2_range (b - c)
  have hac := tdiv2_range (a - c)
  have hab := tdiv2_range (a + b)
  cases f <;> simp only [predict] <;> omega

theorem sext16_range (v : BitVec 16) : -32768 ≤ sext16 v ∧ sext16 v ≤ 32767 := by
  have hlo := v.le_toInt
  have hhi := v.toInt_lt
  simp only [sext16]
  omega

theorem toInt_signExtend16 (v : BitVec 16) : (v.signExtend 32).toInt = sext16 v := BitVec.toInt_signExtend_of_le (by decide)

/-- Settles O21: the prediction of the operands' signed values fits PRED_OUT, so it reads back exactly. -/
theorem predictWritesTheExactPrediction : Obligations.PredictWritesTheExactPrediction := by
  intro f s
  have hrange := predict_range f (sext16_range s.opa) (sext16_range s.opb) (sext16_range s.opc)
  have hexact : ((predictStage f s).completeOk.readLoc .predOut).toInt =
      predict f (sext16 s.opa) (sext16 s.opb) (sext16 s.opc) :=
    BitVec.toInt_ofInt_eq_self (by decide) (by omega) (by omega)
  refine ⟨(predictStage f s).completeOk, exec_of_ok rfl, ?_, ?_, ?_, rfl⟩
  · rw [hexact, ← toInt_signExtend16, ← toInt_signExtend16, ← toInt_signExtend16]
    rfl
  all_goals omega

/-! ### XFORM_INV -/

/-- Settles O24: the walk over the residual grid of a raster writes that raster. -/
theorem xformInvRebuildsTheRaster : Obligations.XformInvRebuildsTheRaster := by
  intro f s ys hl hy hresid
  refine ⟨_, exec_of_ok (i := .xformInv f) (xformInvStage_of_residuals hl hy hresid), rfl, fun i hi => ?_⟩
  exact ((s.writeRecon ys).readLoc_recon hi).trans (by rw [s.reconCells_writeRecon hl hy])

/-- The walk stops at the first cell that leaves 0..255, when the samples before it explain the residuals before it. -/
theorem reconstruct_of_first_bad {n : Nat} (hn : 0 < n) {f : Selector} {es ys : List Int} (hl : ys.length < es.length)
    (hy : ∀ y ∈ ys, 0 ≤ y ∧ y ≤ 255)
    (hes : ∀ j, j < ys.length → ys.getD j 0 = es.getD j 0 + predictionAt n f (fun k => ys.getD k 0) j)
    (hbad : es.getD ys.length 0 + predictionAt n f (fun k => ys.getD k 0) ys.length < 0 ∨
      255 < es.getD ys.length 0 + predictionAt n f (fun k => ys.getD k 0) ys.length) :
    reconstruct n f es = .error ⟨.malformedStream, ys.length⟩ := by
  refine (reconstructFrom_error_iff n f [] es _).2 ⟨ys.length, hl, by simp, ys, ?_, by simpa using hbad⟩
  refine (reconstructFrom_ok_iff hn f [] _ ys).2 ⟨by simp; omega, by simp, fun k hk => ?_⟩
  have hk' : k < ys.length := hk.trans_le (List.length_take_le _ _)
  have htake : (es.take ys.length).getD k 0 = es.getD k 0 := by
    simp [List.getD_eq_getElem?_getD, hk']
  simp only [List.length_nil, Nat.zero_add, htake]
  exact ⟨hes k hk', getD_sample_range hy k⟩

/-- Settles O25: the walk stops at the bad cell, and its error is reported. -/
theorem xformInvReportsTheFirstBadCell : Obligations.XformInvReportsTheFirstBadCell := by
  rintro f s ys x hl hy hes rfl hbad
  have hwalk := reconstruct_of_first_bad s.build.side_bounds.1 (by simpa using hl) hy hes hbad
  have hstage : stage (.xformInv f) s = .error ⟨.malformedStream, ys.length⟩ := by
    simp only [stage, xformInvStage, hwalk]
  exact exec_reports_of_error hstage

/-! ### Causality -/

/-- A reconstructed sample depends only on the residuals up to its cell. -/
theorem reconstruct_getD_congr {n : Nat} (hn : 0 < n) {f : Selector} {es es' ys ys' : List Int}
    (h : reconstruct n f es = .ok ys) (h' : reconstruct n f es' = .ok ys') {i : Nat} (hi : i < es.length)
    (hi' : i < es'.length) (hsame : ∀ j, j ≤ i → es'.getD j 0 = es.getD j 0) : ys'.getD i 0 = ys.getD i 0 := by
  obtain ⟨-, -, hcell⟩ := (reconstructFrom_ok_iff hn f [] es ys).1 h
  obtain ⟨-, -, hcell'⟩ := (reconstructFrom_ok_iff hn f [] es' ys').1 h'
  simp only [List.length_nil, Nat.zero_add] at hcell hcell'
  induction i using Nat.strong_induction_on with
  | _ i ih =>
    rw [(hcell i hi).1, (hcell' i hi').1, hsame i le_rfl,
      predictionAt_congr hn fun j hj => ih j hj (hj.trans hi) (hj.trans hi') fun k hk => hsame k (hk.trans hj.le)]

/-- What XFORM_INV leaves in RECON when it raises no error. -/
theorem exec_xformInv_reconCells {f : Selector} {s t : State} (h : exec (.xformInv f) s = .next t)
    (herr : t.status.err = false) :
    t.build = s.build ∧ reconstruct s.build.side f s.residCells = .ok t.reconCells := by
  obtain ⟨u, hu, rfl⟩ := stage_ok_of_exec h herr
  obtain ⟨xs, hxs, hl, rfl⟩ := xformInvStage_ok hu
  obtain ⟨-, -, hcell⟩ := (reconstructFrom_ok_iff s.build.side_bounds.1 f [] _ xs).1 hxs
  have hrange : ∀ x ∈ xs, 0 ≤ x ∧ x ≤ 255 := by
    intro x hx
    obtain ⟨k, hk, rfl⟩ := List.getElem_of_mem hx
    have hx := (hcell k (by simpa [hl] using hk)).2
    rwa [List.length_nil, Nat.zero_add, List.getD_eq_getElem _ _ hk] at hx
  have hrecon : (s.writeRecon xs).completeOk.reconCells = xs := s.reconCells_writeRecon hl hrange
  exact ⟨rfl, hrecon.symm ▸ hxs⟩

/-- Settles O27: a prediction reads only samples before its cell, and the walk back only residuals up to it. -/
theorem residualsAreCausal : Obligations.ResidualsAreCausal := by
  intro f s s' t t' i hb hi
  have hi' : i < s'.build.cells := hb ▸ hi
  refine ⟨fun hsame ht ht' => ?_, fun hsame ht ht' herr herr' => ?_⟩
  · apply BitVec.eq_of_toInt_eq
    rw [readLoc_resid_exec_xformFwd ht hi, readLoc_resid_exec_xformFwd ht' hi', hsame i le_rfl, hb,
      predictionAt_congr s.build.side_bounds.1 fun j hj => congrArg BitVec.toInt (hsame j hj.le)]
  · obtain ⟨htb, hys⟩ := exec_xformInv_reconCells ht herr
    obtain ⟨htb', hys'⟩ := exec_xformInv_reconCells ht' herr'
    rw [hb] at hys'
    have hcells : ∀ j, j ≤ i → s'.residCells.getD j 0 = s.residCells.getD j 0 := fun j hj => by
      rw [← s.readLoc_resid (hj.trans_lt hi), ← s'.readLoc_resid (hj.trans_lt hi'), hsame j hj]
    have hrecon := reconstruct_getD_congr s.build.side_bounds.1 hys hys' (by simpa using hi) (by simpa using hi') hcells
    rw [← t.readLoc_recon (htb ▸ hi), ← t'.readLoc_recon (htb' ▸ hi'), Nat.cast_inj] at hrecon
    exact BitVec.eq_of_toNat_eq hrecon

end Sys2Proof.Machine
end

section
/-! PROOFS. The code table: the order of its entries has no effect (R151), and its lookups are inverse (R160). -/

/-! ### Well-formedness does not see the order -/

namespace Sys2Proof

section
variable {t t' : CodeTable}

theorem CodeTable.prefixFree_iff_pairwise :
    t.prefixFree = true ↔ t.Pairwise fun e e' => ¬ e.code <+: e'.code ∧ ¬ e'.code <+: e.code := by
  refine ⟨CodeTable.prefixFree_pairwise, fun h => ?_⟩
  induction h with
  | nil => rfl
  | cons hhead _ ih => simpa [CodeTable.prefixFree, ih, ← Bool.not_eq_true] using hhead

theorem CodeTable.prefixFree_perm (hp : t.Perm t') : t.prefixFree = t'.prefixFree := by
  rw [Bool.eq_iff_iff, prefixFree_iff_pairwise, prefixFree_iff_pairwise]
  exact hp.pairwise_iff And.symm

theorem CodeTable.wf_perm (hp : t.Perm t') : t.wf = t'.wf := by
  have hcount : t.countOk = t'.countOk := by
    rw [CodeTable.countOk, CodeTable.count, hp.length_eq]
    rfl
  have hvalues : t.valuesOk = t'.valuesOk := by
    simp only [CodeTable.valuesOk, (hp.map Entry.value).nodup_iff, hp.all_eq]
  have hshort : t.zeroShortest = t'.zeroShortest := by simp only [CodeTable.zeroShortest, hp.all_eq]
  simp only [CodeTable.wf, hcount, hvalues, hshort, CodeTable.prefixFree_perm hp, CodeTable.lengthsOk, CodeTable.hasZero,
    hp.all_eq, hp.any_eq]

/-- A search that at most one entry answers finds the same in every order. -/
theorem find?_perm {α : Type} {l l' : List α} {p : α → Bool} (hp : l.Perm l')
    (hone : ∀ a ∈ l, ∀ b ∈ l, p a = true → p b = true → a = b) : l'.find? p = l.find? p := by
  cases h : l.find? p with
  | none => exact List.find?_eq_none.2 fun a ha => List.find?_eq_none.1 h a (hp.mem_iff.2 ha)
  | some a =>
    have ha := List.mem_of_find?_eq_some h
    obtain ⟨b, hb⟩ := Option.isSome_iff_exists.1
      (List.find?_isSome.2 ⟨a, hp.mem_iff.1 ha, List.find?_some h⟩ : (l'.find? p).isSome)
    rw [hb, hone a ha b (hp.mem_iff.2 (List.mem_of_find?_eq_some hb)) (List.find?_some h) (List.find?_some hb)]

/-- W4: at most one code of the table begins a stream. -/
theorem CodeTable.entry_of_isPrefix_stream (h : t.wf = true) {e e' : Entry} (he : e ∈ t) (he' : e' ∈ t) {bs : List Bool}
    (hp : e.code <+: bs) (hp' : e'.code <+: bs) : e = e' := by
  obtain hq | hq := List.prefix_or_prefix_of_prefix hp hp'
  · exact CodeTable.entry_of_isPrefix h he he' hq
  · exact (CodeTable.entry_of_isPrefix h he' he hq).symm

end

end Sys2Proof

namespace Sys2Proof.Machine

/-- Entries of one canonical word are one entry (R87, W3, W4). -/
theorem entry_of_codeWord {t : CodeTable} (h : t.wf = true) {e e' : Entry} (he : e ∈ t) (he' : e' ∈ t)
    (hw : codeWord e.code = codeWord e'.code) : e = e' := by
  have hcode := codeWord_injective (CodeTable.lengths h he).2 (CodeTable.lengths h he').2 hw
  exact CodeTable.entry_of_isPrefix h he he' (hcode ▸ List.prefix_rfl)

/-- Settles O28: each lookup is a search that at most one entry answers: by W2, by W4, and by W3 and W4. -/
theorem tableOrderHasNoEffect : Obligations.TableOrderHasNoEffect := by
  intro t t' h hp
  refine ⟨CodeTable.wf_perm hp ▸ h, fun v => ?_, fun bs => ?_, fun w => ?_⟩
  · rw [encodeSymbol, find?_perm hp, encodeSymbol]
    simp only [beq_iff_eq]
    exact fun e he e' he' hv hv' => CodeTable.entry_of_value h he he' (hv.trans hv'.symm)
  · refine find?_perm hp ?_
    simp only [List.isPrefixOf_iff_prefix]
    exact fun e he e' he' => CodeTable.entry_of_isPrefix_stream h he he'
  · refine find?_perm hp ?_
    simp only [beq_iff_eq]
    exact fun e he e' he' hw hw' => entry_of_codeWord h he he' (hw.trans hw'.symm)

/-- Settles O29: the entry found by its value is the entry its code leads back to, and the other way round. -/
theorem lookupsAreInverse : Obligations.LookupsAreInverse := by
  refine fun t h => ⟨fun v bs tail hbs => ?_, fun e he => ?_⟩
  · obtain ⟨e, he, rfl, rfl⟩ := encodeSymbol_eq_some hbs
    exact ⟨e, matchEntry_of_isPrefix h he (List.prefix_append _ _), rfl, rfl⟩
  · exact ⟨e, matchEntry_of_isPrefix h he List.prefix_rfl, encodeSymbol_of_mem h he⟩

end Sys2Proof.Machine
end

section
/-! PROOFS. SYM_ENC and SYM_DEC (R156, R157). -/

namespace Sys2Proof.Machine

/-! ### SYM_ENC -/

theorem symEncStage_of_mem {s : State} {e : Entry} (he : e ∈ s.build.table) (hv : s.symIn.toInt = e.value) :
    symEncStage s = .ok { s with codeOut := codeWord e.code } := by
  simp only [symEncStage, hv, encodeSymbol_of_mem s.build.parts.2.1 he]

theorem symEncStage_of_unknown {s : State} (h : ∀ e ∈ s.build.table, s.symIn.toInt ≠ e.value) :
    symEncStage s = .error ⟨.unknownSymbol, 0⟩ := by
  simp only [symEncStage, encodeSymbol_eq_none.2 fun e he => (h e he).symm]

/-- Settles O31: the lookup finds the entry of the symbol, or none. -/
theorem symEncLooksUpTheSymbol : Obligations.SymEncLooksUpTheSymbol :=
  fun _ => ⟨fun _ he hv => exec_of_ok (i := .symEnc) (symEncStage_of_mem he hv),
    fun h => exec_reports_of_error_zero (i := .symEnc) (symEncStage_of_unknown h)⟩

/-! ### SYM_DEC -/

section
variable {s : State} (hb : s.bitLen.toNat ≤ 32768) (hc : s.cursor.toNat ≤ s.bitLen.toNat)
include hb hc

/-- SYM_DEC on good operands: the entry that matches at CURSOR (R157). -/
theorem symDecStage_of_match {e : Entry}
    (h : matchEntry s.build.table ((s.streamBits s.bitLen.toNat).drop s.cursor.toNat) = some e) :
    symDecStage s = .ok { s with symOut := BitVec.ofInt 32 e.value, consumed := BitVec.ofNat 8 e.code.length,
                                 cursor := s.cursor + BitVec.ofNat 16 e.code.length } := by
  have hb : ¬ Config.maxBits < s.bitLen.toNat := hb.not_gt
  simp only [symDecStage, hb, hc.not_gt, if_false, h]

theorem symDecStage_of_no_match
    (h : matchEntry s.build.table ((s.streamBits s.bitLen.toNat).drop s.cursor.toNat) = none) :
    symDecStage s = .error ⟨.malformedStream, 0⟩ := by
  have hb : ¬ Config.maxBits < s.bitLen.toNat := hb.not_gt
  simp only [symDecStage, hb, hc.not_gt, if_false, h]

end

/-- A code stands at CURSOR within BIT_LEN exactly when the rest of the stream begins with it (R154). -/
theorem State.code_isPrefix_iff (s : State) {e : Entry} (he : e ∈ s.build.table) :
    e.code <+: (s.streamBits s.bitLen.toNat).drop s.cursor.toNat ↔
      s.cursor.toNat + e.code.length ≤ s.bitLen.toNat ∧
        ∀ j, j < e.code.length → s.bit (s.cursor.toNat + j) = e.code.getD j false := by
  have hne : e.code ≠ [] := fun h => by simpa [h] using (CodeTable.lengths s.build.parts.2.1 he).1
  rw [s.isPrefix_drop_streamBits, or_iff_right hne]
  refine and_congr_right fun _ => forall₂_congr fun j hj => ?_
  rw [List.getD_eq_getElem _ _ hj]

/-- Settles O32: the code at CURSOR begins the rest of the stream, so its entry is the match; value, length and the new CURSOR
fit their registers. -/
theorem symDecMatchesAtTheCursor : Obligations.SymDecMatchesAtTheCursor := by
  intro s e he hb hc hbits
  have hlen := CodeTable.lengths s.build.parts.2.1 he
  have hval := (CodeTable.values s.build.parts.2.1).2 e he
  have hmatch := matchEntry_of_isPrefix s.build.parts.2.1 he ((s.code_isPrefix_iff he).2 ⟨hc, hbits⟩)
  refine ⟨_, exec_of_ok (i := .symDec) (symDecStage_of_match hb (by omega) hmatch), ?_, ?_, ?_, rfl⟩
  · exact BitVec.toInt_ofInt_eq_self (by decide) (by omega) (by omega)
  · simp [State.readLoc]
    omega
  · simp [State.readLoc]
    omega

/-- Settles O33: the checks of BIT_LEN and CURSOR come first; where both pass and no code stands at CURSOR, nothing matches. -/
theorem symDecReportsItsErrors : Obligations.SymDecReportsItsErrors := by
  refine fun s => ⟨?_, fun hb hc hno => ?_⟩
  · rintro (h | h)
    · exact exec_reports_of_error_zero (stage_of_bitLen_gt (.inl rfl) h)
    · exact exec_reports_of_error_zero (i := .symDec) (symDecStage_of_bitLen_lt_cursor h)
  · have hnone : matchEntry s.build.table ((s.streamBits s.bitLen.toNat).drop s.cursor.toNat) = none := by
      refine matchEntry_eq_none.2 fun e he hp => ?_
      obtain ⟨hfit, hbits⟩ := (s.code_isPrefix_iff he).1 hp
      obtain ⟨j, hj, hne⟩ := hno e he hfit
      exact hne (hbits j hj)
    exact exec_reports_of_error_zero (i := .symDec) (symDecStage_of_no_match hb hc hnone)

end Sys2Proof.Machine
end

section
/-! PROOFS. MAP_FWD and MAP_INV cell by cell: what each writes, and the first cell that stops it (R158, R159, R226). -/

namespace Sys2Proof.Machine

/-! ### The two commands by their cells -/

theorem State.getElem_residCells (s : State) {i : Nat} (h : i < s.residCells.length) :
    s.residCells[i] = (s.readLoc (.resid i)).toInt := by
  rw [s.readLoc_resid (by simpa using h), List.getD_eq_getElem _ _ h]

theorem State.getElem_codeCells (s : State) {i : Nat} (h : i < s.codeCells.length) :
    s.codeCells[i] = s.readLoc (.codegrid i) := by
  rw [s.readLoc_codegrid (by simpa using h), List.getD_eq_getElem _ _ h]

/-- A word of a written code grid reads back (R42). -/
theorem State.readLoc_codegrid_writeCodes (s : State) {ws : List Word} (hl : ws.length = s.build.cells) {i : Nat}
    (hi : i < ws.length) : (s.writeCodes ws).readLoc (.codegrid i) = ws[i] := by
  rw [(s.writeCodes ws).readLoc_codegrid (hl ▸ hi), s.codeCells_writeCodes hl, List.getD_eq_getElem _ _ hi]

section
variable {s t : State}

/-- MAP_FWD ends with the error of its first cell that cannot be coded (R226). -/
theorem mapFwdStage_error_iff {e : CmdError} : mapFwdStage s = .error e ↔ ∃ i, i < s.build.cells ∧
    mapFwdCell s.build.table i (s.readLoc (.resid i)).toInt = .error e ∧
      ∀ j, j < i → ∃ w, mapFwdCell s.build.table j (s.readLoc (.resid j)).toInt = .ok w := by
  have hwalk := mapCells_error_iff (mapFwdCell s.build.table) 0 s.residCells e
  simp only [Nat.zero_add, State.getElem_residCells, State.length_residCells, exists_prop] at hwalk
  rw [← hwalk, mapFwdStage]
  cases mapCells (mapFwdCell s.build.table) 0 s.residCells <;> simp

/-- MAP_INV ends with the error of its first word that is not canonical (R226). -/
theorem mapInvStage_error_iff {e : CmdError} : mapInvStage s = .error e ↔ ∃ i, i < s.build.cells ∧
    mapInvCell s.build.table i (s.readLoc (.codegrid i)) = .error e ∧
      ∀ j, j < i → ∃ v, mapInvCell s.build.table j (s.readLoc (.codegrid j)) = .ok v := by
  have hwalk := mapCells_error_iff (mapInvCell s.build.table) 0 s.codeCells e
  simp only [Nat.zero_add, State.getElem_codeCells, State.length_codeCells, exists_prop] at hwalk
  rw [← hwalk, mapInvStage]
  cases mapCells (mapInvCell s.build.table) 0 s.codeCells <;> simp

/-- MAP_FWD completes when every cell can be coded. -/
theorem exec_mapFwd_completes
    (h : ∀ i, i < s.build.cells → ∃ w, mapFwdCell s.build.table i (s.readLoc (.resid i)).toInt = .ok w) :
    ∃ t, exec .mapFwd s = .next t ∧ t.status = .completed none := by
  cases hs : mapFwdStage s with
  | ok t => exact ⟨_, exec_of_ok (i := .mapFwd) hs, rfl⟩
  | error e =>
    obtain ⟨i, hi, he, -⟩ := mapFwdStage_error_iff.1 hs
    obtain ⟨w, hw⟩ := h i hi
    simp [hw] at he

/-- MAP_INV completes when every word is canonical. -/
theorem exec_mapInv_completes
    (h : ∀ i, i < s.build.cells → ∃ v, mapInvCell s.build.table i (s.readLoc (.codegrid i)) = .ok v) :
    ∃ t, exec .mapInv s = .next t ∧ t.status = .completed none := by
  cases hs : mapInvStage s with
  | ok t => exact ⟨_, exec_of_ok (i := .mapInv) hs, rfl⟩
  | error e =>
    obtain ⟨i, hi, he, -⟩ := mapInvStage_error_iff.1 hs
    obtain ⟨v, hv⟩ := h i hi
    simp [hv] at he

/-- Each cell of CODEGRID after MAP_FWD is the word of its residual. -/
theorem mapFwdCell_of_exec (h : exec .mapFwd s = .next t) (herr : t.status.err = false) {i : Nat} (hi : i < s.build.cells) :
    mapFwdCell s.build.table i (s.readLoc (.resid i)).toInt = .ok (t.readLoc (.codegrid i)) := by
  obtain ⟨u, hu, rfl⟩ := stage_ok_of_exec h herr
  obtain ⟨ws, hws, hl, rfl⟩ := mapFwdStage_ok hu
  have hread : (s.writeCodes ws).completeOk.readLoc (.codegrid i) = ws[i] := s.readLoc_codegrid_writeCodes hl (hl ▸ hi)
  have hcell := ((mapCells_ok_iff _ _ _ _).1 hws).2 i (by simpa using hi) (hl ▸ hi)
  rwa [Nat.zero_add, State.getElem_residCells, ← hread] at hcell

/-- A cell of MAP_INV is a byte or a value of the table, so it fits RESID (W2). -/
theorem mapInvCell_fits {t : CodeTable} (h : t.wf = true) {i : Nat} {w : Word} {v : Int} (hv : mapInvCell t i w = .ok v) :
    -2 ^ 31 ≤ v ∧ v < 2 ^ 31 := by
  rw [mapInvCell] at hv
  split_ifs at hv
  · cases hv
    have := (w.extractLsb' 0 8).isLt
    omega
  · split at hv
    · cases hv
    · next e he =>
      cases hv
      have := (CodeTable.values h).2 e (wordEntry_eq_some he).1
      omega

/-- Each cell of RESID after MAP_INV is the value of its word. -/
theorem mapInvCell_of_exec (h : exec .mapInv s = .next t) (herr : t.status.err = false) {i : Nat} (hi : i < s.build.cells) :
    mapInvCell s.build.table i (s.readLoc (.codegrid i)) = .ok (t.readLoc (.resid i)).toInt := by
  obtain ⟨u, hu, rfl⟩ := stage_ok_of_exec h herr
  obtain ⟨vs, hvs, hl, rfl⟩ := mapInvStage_ok hu
  have hcell := ((mapCells_ok_iff _ _ _ _).1 hvs).2
  have hfits : ∀ v ∈ vs, -2 ^ 31 ≤ v ∧ v < 2 ^ 31 := by
    intro v hv
    obtain ⟨k, hk, rfl⟩ := List.getElem_of_mem hv
    exact mapInvCell_fits s.build.parts.2.1 (hcell k (by simpa [hl] using hk) hk)
  have hread : ((s.writeResid vs).completeOk.readLoc (.resid i)).toInt = vs[i] := by
    rw [← List.getD_eq_getElem vs 0 (hl ▸ hi)]
    exact ((s.writeResid vs).readLoc_resid hi).trans (by rw [s.residCells_writeResid hl hfits])
  have hi' := hcell i (by simpa using hi) (hl ▸ hi)
  rwa [Nat.zero_add, State.getElem_codeCells, ← hread] at hi'

end

/-! ### One cell of MAP_FWD -/

section
variable {t : CodeTable} {i : Nat} {v : Int}

theorem mapFwdCell_zero (h : 0 ≤ v ∧ v ≤ 255) : mapFwdCell t 0 v = .ok (codeWord (firstCellBits v.toNat)) := by
  rw [mapFwdCell, if_pos rfl, if_neg (by omega)]

theorem mapFwdCell_zero_error (h : v < 0 ∨ 255 < v) : mapFwdCell t 0 v = .error ⟨.unknownSymbol, 0⟩ := by
  rw [mapFwdCell, if_pos rfl, if_pos h]

theorem mapFwdCell_of_mem (ht : t.wf = true) (hi : i ≠ 0) {e : Entry} (he : e ∈ t) :
    mapFwdCell t i e.value = .ok (codeWord e.code) := by
  simp only [mapFwdCell, if_neg hi, encodeSymbol_of_mem ht he]

theorem mapFwdCell_of_unknown (hi : i ≠ 0) (h : ∀ e ∈ t, e.value ≠ v) :
    mapFwdCell t i v = .error ⟨.unknownSymbol, i⟩ := by
  simp only [mapFwdCell, if_neg hi, encodeSymbol_eq_none.2 h]

/-- A cell can be coded when it is a byte at cell 0, or a value of the table elsewhere (R155). -/
theorem mapFwdCell_codable (ht : t.wf = true) (f : Nat → Int)
    (h : if i = 0 then 0 ≤ f 0 ∧ f 0 ≤ 255 else ∃ e ∈ t, e.value = f i) : ∃ w, mapFwdCell t i (f i) = .ok w := by
  split_ifs at h with hi
  · exact ⟨_, hi ▸ mapFwdCell_zero h⟩
  · obtain ⟨e, he, hv⟩ := h
    exact ⟨_, hv ▸ mapFwdCell_of_mem ht hi he⟩

theorem mapFwdCell_uncodable (f : Nat → Int) (h : if i = 0 then f 0 < 0 ∨ 255 < f 0 else ∀ e ∈ t, e.value ≠ f i) :
    mapFwdCell t i (f i) = .error ⟨.unknownSymbol, i⟩ := by
  split_ifs at h with hi
  · exact hi ▸ mapFwdCell_zero_error h
  · exact mapFwdCell_of_unknown hi h

end

/-- The first-cell word of a sample (R88). -/
theorem codeWord_firstCellBits_byte (v : Byte) : codeWord (firstCellBits v.toNat) = 0x08000000#32 + v.setWidth 32 := by
  rw [codeWord_firstCellBits v.isLt, BitVec.ofNat_add, BitVec.ofNat_toNat]

/-- The first-cell word of a sample held in a word of RESID (R88). -/
theorem codeWord_firstCellBits_toInt {w : Word} (h : 0 ≤ w.toInt ∧ w.toInt ≤ 255) :
    codeWord (firstCellBits w.toInt.toNat) = 0x08000000#32 + w := by
  have hnat : w.toInt.toNat = w.toNat := by
    have := BitVec.toInt_eq_toNat_cond w
    have := w.isLt
    omega
  rw [codeWord_firstCellBits (by omega), hnat, BitVec.ofNat_add, BitVec.ofNat_toNat, BitVec.setWidth_eq]

/-- Settles O34: every cell can be coded, and its word is the one the rule gives. -/
theorem mapFwdCodesTheGrid : Obligations.MapFwdCodesTheGrid := by
  intro s h0 hall
  have hwf := s.build.parts.2.1
  obtain ⟨t, ht, hst⟩ := exec_mapFwd_completes (s := s) fun i hi =>
    mapFwdCell_codable hwf (fun i => (s.readLoc (.resid i)).toInt) <| by
      split_ifs
      · exact h0
      · exact hall i (by omega) hi
  have herr : t.status.err = false := by rw [hst]; rfl
  refine ⟨t, ht, hst, ?_, fun i hi0 hi e he hv => ?_⟩
  · have hcell := mapFwdCell_of_exec ht herr s.build.one_le_cells
    rw [mapFwdCell_zero h0] at hcell
    rw [← Except.ok.inj hcell, codeWord_firstCellBits_toInt h0]
  · have hcell := mapFwdCell_of_exec ht herr hi
    rw [← hv, mapFwdCell_of_mem hwf hi0.ne' he] at hcell
    exact (Except.ok.inj hcell).symm

/-- Settles O35: the cells before it can be coded and this one cannot. -/
theorem mapFwdReportsTheFirstUncodableCell : Obligations.MapFwdReportsTheFirstUncodableCell := by
  intro s i hi hbefore hbad
  let resid := fun j => (s.readLoc (.resid j)).toInt
  exact exec_reports_of_error (i := .mapFwd) (mapFwdStage_error_iff.2
    ⟨i, hi, mapFwdCell_uncodable resid hbad, fun j hj => mapFwdCell_codable s.build.parts.2.1 resid (hbefore j hj)⟩)

/-! ### One cell of MAP_INV -/

/-- The first-cell word holds its byte below LEN = 8 and sixteen zero bits (R88). -/
theorem firstCellWord_fields (v : Byte) : (0x08000000#32 + v.setWidth 32).extractLsb' 8 24 = 0x080000#24 ∧
    (0x08000000#32 + v.setWidth 32).extractLsb' 0 8 = v := by
  have hword : 0x08000000#32 + v.setWidth 32 = 0x080000#24 ++ v := by
    apply BitVec.eq_of_toNat_eq
    rw [BitVec.toNat_append, Nat.shiftLeft_eq, Nat.mul_comm, ← Nat.two_pow_add_eq_or_of_lt v.isLt]
    simp
    omega
  rw [hword]
  simp (disch := omega) only [BitVec.extractLsb'_append_eq_of_add_le, BitVec.extractLsb'_append_eq_of_le,
    BitVec.extractLsb'_eq_self, Nat.reduceSub, and_self]

section
variable {t : CodeTable} {i : Nat} {w : Word}

theorem mapInvCell_zero (h : w.extractLsb' 8 24 = 0x080000#24) : mapInvCell t 0 w = .ok (w.extractLsb' 0 8).toNat := by
  rw [mapInvCell, if_pos rfl, if_neg (not_not_intro h)]

theorem mapInvCell_of_mem (ht : t.wf = true) (hi : i ≠ 0) {e : Entry} (he : e ∈ t) :
    mapInvCell t i (codeWord e.code) = .ok e.value := by
  simp only [mapInvCell, if_neg hi, wordEntry_of_mem ht he]

/-- A word is read when it is a first-cell word at cell 0, or the canonical word of an entry elsewhere (R159). -/
theorem mapInvCell_readable (ht : t.wf = true) (f : Nat → Word)
    (h : if i = 0 then (f 0).extractLsb' 8 24 = 0x080000#24 else ∃ e ∈ t, f i = codeWord e.code) :
    ∃ v, mapInvCell t i (f i) = .ok v := by
  split_ifs at h with hi
  · exact ⟨_, hi ▸ mapInvCell_zero h⟩
  · obtain ⟨e, he, hw⟩ := h
    exact ⟨_, hw ▸ mapInvCell_of_mem ht hi he⟩

theorem mapInvCell_unreadable (f : Nat → Word)
    (h : if i = 0 then (f 0).extractLsb' 8 24 ≠ 0x080000#24 else ∀ e ∈ t, f i ≠ codeWord e.code) :
    mapInvCell t i (f i) = .error ⟨.malformedStream, i⟩ := by
  split_ifs at h with hi
  · subst hi
    rw [mapInvCell, if_pos rfl, if_pos h]
  · simp only [mapInvCell, if_neg hi, wordEntry_eq_none.2 fun e he => (h e he).symm]

end

/-- Settles O36: every word is read, and its value is the one the rule gives. -/
theorem mapInvReadsCanonicalWords : Obligations.MapInvReadsCanonicalWords := by
  intro s v h0 hall
  have hwf := s.build.parts.2.1
  obtain ⟨hhead, hbyte⟩ := firstCellWord_fields v
  rw [← h0] at hhead hbyte
  obtain ⟨t, ht, hst⟩ := exec_mapInv_completes (s := s) fun i hi =>
    mapInvCell_readable hwf (fun i => s.readLoc (.codegrid i)) <| by
      split_ifs
      · exact hhead
      · exact hall i (by omega) hi
  have herr : t.status.err = false := by rw [hst]; rfl
  refine ⟨t, ht, hst, ?_, fun i hi0 hi e he hv => ?_⟩
  · have hcell := mapInvCell_of_exec ht herr s.build.one_le_cells
    rw [mapInvCell_zero hhead, hbyte] at hcell
    apply BitVec.eq_of_toInt_eq
    rw [← Except.ok.inj hcell, BitVec.toInt_setWidth]
    have := v.isLt
    rw [Int.bmod_eq_of_le] <;> omega
  · have hcell := mapInvCell_of_exec ht herr hi
    rw [hv, mapInvCell_of_mem hwf hi0.ne' he] at hcell
    exact (Except.ok.inj hcell).symm

/-- Settles O37: the words before it are read and this one is not. -/
theorem mapInvReportsTheFirstBadWord : Obligations.MapInvReportsTheFirstBadWord := by
  intro s i hi hbefore hbad
  let word := fun j => s.readLoc (.codegrid j)
  exact exec_reports_of_error (i := .mapInv) (mapInvStage_error_iff.2
    ⟨i, hi, mapInvCell_unreadable word hbad, fun j hj => mapInvCell_readable s.build.parts.2.1 word (hbefore j hj)⟩)

/-! ### There and back -/

/-- MAP_INV reads back what MAP_FWD writes, cell by cell (R160). -/
theorem mapInvCell_of_mapFwdCell {t : CodeTable} (ht : t.wf = true) {i : Nat} {v : Int} {w : Word}
    (h : mapFwdCell t i v = .ok w) : mapInvCell t i w = .ok v := by
  rw [mapFwdCell] at h
  split_ifs at h with hi hv
  · cases h
    obtain ⟨b, rfl⟩ : ∃ b : Byte, v = b.toNat := ⟨BitVec.ofNat 8 v.toNat, by simp; omega⟩
    obtain ⟨hhead, hbyte⟩ := firstCellWord_fields b
    rw [hi, Int.toNat_natCast, codeWord_firstCellBits_byte, mapInvCell_zero hhead, hbyte]
  · split at h
    · cases h
    · next bs hbs =>
      cases h
      obtain ⟨e, he, rfl, rfl⟩ := encodeSymbol_eq_some hbs
      exact mapInvCell_of_mem ht hi he

/-- Settles O30: each word that MAP_FWD writes is read back as its residual; and so is the word of SYM_ENC after cell 0. -/
theorem gridMappingIsInverse : Obligations.GridMappingIsInverse := by
  refine ⟨fun s t ht herr => ?_, fun s t u v i ht herr hb hi0 hi hword hv herr' => ?_⟩
  · have hb := (exec_sameBut ht).build
    have hcell : ∀ i, i < s.build.cells →
        mapInvCell s.build.table i (t.readLoc (.codegrid i)) = .ok (s.readLoc (.resid i)).toInt :=
      fun i hi => mapInvCell_of_mapFwdCell s.build.parts.2.1 (mapFwdCell_of_exec ht herr hi)
    rw [← hb] at hcell
    obtain ⟨u, hu, hst⟩ := exec_mapInv_completes (s := t.accept (encode .mapInv)) fun i hi => ⟨_, hcell i hi⟩
    refine ⟨u, hu, hst, fun i hi => BitVec.eq_of_toInt_eq ?_⟩
    have hback := mapInvCell_of_exec hu (by rw [hst]; rfl) (hb ▸ hi : i < t.build.cells)
    exact Except.ok.inj (hback.symm.trans (hcell i (hb ▸ hi)))
  · obtain ⟨m, hm, rfl⟩ := stage_ok_of_exec ht herr
    have hm : symEncStage s = .ok m := hm
    rw [symEncStage] at hm
    split at hm
    · cases hm
    · next bs hbs =>
      cases hm
      obtain ⟨e, he, hval, rfl⟩ := encodeSymbol_eq_some hbs
      have hback := mapInvCell_of_exec hv herr' hi
      have hword : u.readLoc (.codegrid i) = codeWord e.code := hword
      rw [hword, hb, mapInvCell_of_mem s.build.parts.2.1 hi0.ne' he] at hback
      exact BitVec.eq_of_toInt_eq ((Except.ok.inj hback).symm.trans hval)

end Sys2Proof.Machine
end

section
/-! PROOFS. PACK and UNPACK: the stream PACK writes (R180) and its length (R186), and how UNPACK parses (R181 to R183). -/

namespace Sys2Proof.Machine

/-! ### PACK -/

/-- PACK writes exactly the stream of the grid and keeps every bit beyond it (R180). -/
theorem exec_pack_of_packGrid {s : State} {bs : List Bool} (h : packGrid s.codeCells = .ok bs) :
    ∃ t, exec .pack s = .next t ∧ t.status = .completed none ∧ t.bitLen.toNat = bs.length ∧
      ∀ k, t.bit k = if k < bs.length then bs.getD k false else s.bit k := by
  have hfits := packed_fits h
  have hstage : packStage s = .ok { s.writeStream bs with bitLen := BitVec.ofNat 16 bs.length } := by
    simp only [packStage, h]
  exact ⟨_, exec_of_ok (i := .pack) hstage, rfl, toNat_ofNat16 (by omega), s.bit_writeStream bs⟩

/-- BIT_LEN as the host reads it (R31). -/
theorem State.toNat_readLoc_bitLen (s : State) : (s.readLoc .bitLen).toNat = s.bitLen.toNat := by
  simp only [State.readLoc, BitVec.toNat_setWidth]
  omega

/-- CODEGRID's bits by the words the host reads. -/
theorem State.codeCells_flatMap (s : State) : s.codeCells.flatMap codeBits =
    (List.range s.build.cells).flatMap fun i => codeBits (s.readLoc (.codegrid i)) := List.flatMap_map _ _ _

/-- Settles O38: no cell is too long, so the stream is the cells' bits. -/
theorem packConcatenatesTheCells : Obligations.PackConcatenatesTheCells := by
  intro s hlen
  have hgrid : packGrid s.codeCells = .ok (s.codeCells.flatMap codeBits) := by
    refine packGrid_ok_iff.2 ⟨fun w hw => ?_, rfl⟩
    obtain ⟨i, hi, rfl⟩ := List.getElem_of_mem hw
    rw [s.getElem_codeCells]
    exact hlen i (by simpa using hi)
  rw [s.codeCells_flatMap] at hgrid
  obtain ⟨t, ht, hst, htlen, hbits⟩ := exec_pack_of_packGrid hgrid
  rw [← htlen, ← t.toNat_readLoc_bitLen] at hbits
  refine ⟨t, ht, hst, ?_, fun k hk => (hbits k).trans (if_pos hk), fun k hk => (hbits k).trans (if_neg hk.not_gt)⟩
  rw [t.toNat_readLoc_bitLen, htlen, List.length_flatMap]
  simp only [length_codeBits, codeLen]

/-! ### The length of the stream of a mapped grid -/

/-- The entry of 0 has a shortest code (W5, W6). -/
theorem exists_zero_entry {t : CodeTable} (h : t.wf = true) :
    ∃ e0 ∈ t, e0.value = 0 ∧ ∀ e ∈ t, e0.code.length ≤ e.code.length := by
  obtain ⟨-, -, -, -, hzero, hshort⟩ := CodeTable.wf_parts h
  obtain ⟨e0, he0, hv⟩ : ∃ e0 ∈ t, e0.value = 0 := by simpa [CodeTable.hasZero] using hzero
  refine ⟨e0, he0, hv, fun e he => ?_⟩
  have hall := List.all_eq_true.1 (by simpa [hv] using List.all_eq_true.1 hshort e0 he0 :
    (t.all fun e => decide (e0.code.length ≤ e.code.length)) = true)
  exact of_decide_eq_true (hall e he)

/-- Settles O43: a first-cell field and one code for each other cell, each at least as long as the code of 0 and at most
L_MAX. -/
theorem streamLengthOfAMappedGrid : Obligations.StreamLengthOfAMappedGrid := by
  intro s t ht herr
  obtain ⟨m, hm, rfl⟩ := stage_ok_of_exec ht herr
  obtain ⟨v, es, -, hes, hresid, rfl⟩ := mapFwdStage_ok_iff.1 hm
  have hwf := s.build.parts.2.1
  have hl : es.length + 1 = s.build.cells := by simpa using (congrArg List.length hresid).symm
  set t := (s.writeCodes (codeWord (firstCellBits v) :: es.map fun e => codeWord e.code)).completeOk
  have hcodes : (t.accept (encode .pack)).codeCells = codeWord (firstCellBits v) :: es.map fun e => codeWord e.code :=
    s.codeCells_writeCodes (by simp [hl])
  obtain ⟨u, hu, hst, hlen, -⟩ := exec_pack_of_packGrid (hcodes ▸ packGrid_mapped hwf es hes)
  rw [← u.toNat_readLoc_bitLen, List.length_append, length_firstCellBits, length_codes] at hlen
  obtain ⟨e0, he0, hv0, hshort⟩ := exists_zero_entry hwf
  have hlo := List.card_nsmul_le_sum (es.map fun e => e.code.length) e0.code.length
    (by simpa using fun e he => hshort e (hes e he))
  have hhi := List.sum_le_card_nsmul (es.map fun e => e.code.length) s.build.table.lMax
    (by simpa using fun e he => CodeTable.lMax_le_iff.1 le_rfl e (hes e he))
  rw [List.length_map, smul_eq_mul, show es.length = s.build.cells - 1 by omega] at hlo hhi
  refine ⟨u, e0, hu, hst, he0, hv0, ⟨es, hl, hes, fun i hi => ?_, hlen⟩, ?_, ?_⟩
  · rw [s.readLoc_resid (by omega), hresid]
    simp [List.getD_eq_getElem?_getD, hi]
  · omega
  · omega

/-! ### UNPACK -/

/-- Settles O39: the stream begins with the coding of a grid, so it parses into the grid's words. -/
theorem unpackParsesTheStream : Obligations.UnpackParsesTheStream := by
  intro s v es hb hl hes hp
  set ws := codeWord (firstCellBits v.toNat) :: es.map fun e => codeWord e.code with hws
  have hlw : ws.length = s.build.cells := by simp [hws, hl]
  have hused := length_codes_le s.build.parts.2.1 hes
  have hcells := s.build.cells_le
  refine ⟨_, exec_of_ok (i := .unpack) (unpackStage_of_stream hb hl hes hp), rfl, ?_, fun i hi => ?_, ?_⟩
  · exact (s.readLoc_codegrid_writeCodes hlw (i := 0) (by simp [hws])).trans (codeWord_firstCellBits_byte v)
  · refine (s.readLoc_codegrid_writeCodes hlw (i := i + 1) (by simp [hws, hi])).trans ?_
    simp [hws]
  · rw [← length_codes]
    exact toNat_read16 (by omega)

/-- A stream too short for the first-cell field (R181). -/
theorem unpackGrid_of_short {t : CodeTable} {bs : List Bool} (h : bs.length < 8) (cells : Nat) :
    unpackGrid t cells bs = .error ⟨.malformedStream, 0⟩ := if_pos h

/-- A stream whose first cells parse and whose rest begins with no code of the table (R181). -/
theorem unpackGrid_of_no_code {t : CodeTable} (h : t.wf = true) {first rest : List Bool} {es : List Entry} {cells : Nat}
    (h8 : first.length = 8) (hc : es.length + 1 < cells) (hes : ∀ e ∈ es, e ∈ t) (hno : ∀ e ∈ t, ¬ e.code <+: rest) :
    unpackGrid t cells (first ++ es.flatMap Entry.code ++ rest) = .error ⟨.malformedStream, es.length + 1⟩ := by
  rw [unpackGrid, if_neg (by simp; omega), List.append_assoc, List.drop_left' h8,
    unpackCells_fails h hes hno 1 (by omega), Nat.add_comm]

/-- Settles O40: the parse stops at cell 0, or at the first cell whose rest begins with no code, and its error is reported. -/
theorem unpackReportsTheFirstCellItCannotFill : Obligations.UnpackReportsTheFirstCellItCannotFill := by
  refine fun s hb => ⟨fun h8 => ?_, fun first rest es h8 hc hes hs hno => ?_⟩
  · have hgrid := unpackGrid_of_short (t := s.build.table) (bs := s.streamBits s.bitLen.toNat) (by simpa using h8) s.build.cells
    exact exec_reports_of_error_zero (i := .unpack) (unpackStage_of_unpackGrid_error hb hgrid)
  · have hgrid := unpackGrid_of_no_code s.build.parts.2.1 h8 hc hes hno
    rw [← hs] at hgrid
    exact exec_reports_of_error (i := .unpack) (unpackStage_of_unpackGrid_error hb hgrid)

end Sys2Proof.Machine
end

section
/-! PROOFS. What UNPACK, DECODE and SYM_DEC read of storage: the bits below BIT_LEN and nothing else (R182). -/

namespace Sys2Proof.Machine

/-! ### Two states that the host reads alike -/

/-- Two states of one build whose locations in `ls` read the same. -/
def State.AgreeOn (ls : Loc → Prop) (s s' : State) : Prop :=
  s'.build = s.build ∧ ∀ l, l.mapped s.build = true → ls l → s'.readLoc l = s.readLoc l

/-- Two results of a rule: the same error, or two written states that read alike in `ls`. -/
def ResultsAgree (ls : Loc → Prop) (r r' : Except CmdError State) : Prop :=
  (∃ e, r = .error e ∧ r' = .error e) ∨ ∃ t t', r = .ok t ∧ r' = .ok t' ∧ t.AgreeOn ls t'

section
variable {ls : Loc → Prop} {s s' t t' : State}

/-- Agreement survives the writing of some locations when what is written agrees. -/
theorem State.AgreeOn.writes {outs : List Loc} (h : s.AgreeOn ls s') (hw : s.Writes outs t) (hw' : s'.Writes outs t')
    (hout : t.AgreeOn (· ∈ outs) t') : t.AgreeOn (fun l => ls l ∨ l ∈ outs) t' := by
  refine ⟨hout.1, fun l hm hl => ?_⟩
  by_cases hmem : l ∈ outs
  · exact hout.2 l hm hmem
  · have hm : l.mapped s.build = true := hw.build ▸ hm
    rw [hw'.locs l (h.1 ▸ hm) hmem, hw.locs l hm hmem, h.2 l hm (hl.resolve_right hmem)]

theorem State.AgreeOn.mono {ls' : Loc → Prop} (h : s.AgreeOn ls s') (hls : ∀ l, ls' l → ls l) : s.AgreeOn ls' s' :=
  ⟨h.1, fun l hm hl => h.2 l hm (hls l hl)⟩

theorem State.AgreeOn.codeCells (h : s.AgreeOn ls s') (hls : ∀ i, i < s.build.cells → ls (.codegrid i)) :
    s'.codeCells = s.codeCells :=
  State.codeCells_congr h.1 fun i hi => h.2 (.codegrid i) (decide_eq_true hi) (hls i hi)

theorem State.AgreeOn.residCells (h : s.AgreeOn ls s') (hls : ∀ i, i < s.build.cells → ls (.resid i)) :
    s'.residCells = s.residCells :=
  State.residCells_congr h.1 fun i hi => h.2 (.resid i) (decide_eq_true hi) (hls i hi)

end

/-! ### Grids written with the same cells read alike -/

section
variable {s s' : State} (hb : s'.build = s.build)
include hb

theorem writeCodes_agreeOn {ws : List Word} (hl : ws.length = s.build.cells) :
    (s.writeCodes ws).AgreeOn (· ∈ gridLocs s.build .codegrid) (s'.writeCodes ws) := by
  refine ⟨hb, fun l _ hl' => ?_⟩
  obtain ⟨i, hi, rfl⟩ := mem_gridLocs.1 hl'
  rw [s.readLoc_codegrid_writeCodes hl (hl ▸ hi), s'.readLoc_codegrid_writeCodes (hb ▸ hl) (hl ▸ hi)]

theorem writeResid_agreeOn {vs : List Int} (hl : vs.length = s.build.cells) :
    (s.writeResid vs).AgreeOn (· ∈ gridLocs s.build .resid) (s'.writeResid vs) := by
  refine ⟨hb, fun l _ hl' => ?_⟩
  obtain ⟨i, hi, rfl⟩ := mem_gridLocs.1 hl'
  have hi' : i < (vs.map (BitVec.ofInt 32)).length := by simpa [hl] using hi
  exact (State.wordAt_writeWords_mem (State.writeResid_mem s' vs) rfl hi').trans
    (State.wordAt_writeWords_mem (State.writeResid_mem s vs) rfl hi').symm

theorem writeRecon_agreeOn {xs : List Int} (hl : xs.length = s.build.cells) :
    (s.writeRecon xs).AgreeOn (· ∈ gridLocs s.build .recon) (s'.writeRecon xs) := by
  refine ⟨hb, fun l _ hl' => ?_⟩
  obtain ⟨i, hi, rfl⟩ := mem_gridLocs.1 hl'
  refine congrArg (BitVec.setWidth 32) ?_
  rw [State.byteAt_writeSamples (State.writeRecon_mem s' xs) rfl, State.byteAt_writeSamples (State.writeRecon_mem s xs) rfl,
    if_pos (by simp [hl]; omega), if_pos (by simp [hl]; omega)]

end

/-! ### The stages -/

section
variable {ls : Loc → Prop} {s s' : State}

/-- UNPACK reads BIT_LEN and the stream below it. -/
theorem unpackStage_agree (hb : s'.build = s.build) (hlen : s'.bitLen = s.bitLen)
    (hbits : s'.streamBits s.bitLen.toNat = s.streamBits s.bitLen.toNat) :
    ResultsAgree (· ∈ outputs .unpack s.build) (unpackStage s) (unpackStage s') := by
  rw [unpackStage, unpackStage, hb, hlen, hbits]
  split_ifs
  · exact .inl ⟨_, rfl, rfl⟩
  cases hgrid : unpackGrid s.build.table s.build.cells (s.streamBits s.bitLen.toNat) with
  | error e => exact .inl ⟨e, rfl, rfl⟩
  | ok r =>
    obtain ⟨ws, n⟩ := r
    obtain ⟨es, hl, -, -, -, rfl, -⟩ := unpackGrid_ok s.build.one_le_cells hgrid
    refine .inr ⟨_, _, rfl, rfl, hb, fun l hm hout => ?_⟩
    obtain rfl | hl' := List.mem_cons.1 hout
    · rfl
    · have hlw : (codeWord ((s.streamBits s.bitLen.toNat).take 8) :: es.map fun e => codeWord e.code).length =
          s.build.cells := by simpa using hl
      have hread := (writeCodes_agreeOn hb hlw).2 l hm hl'
      obtain ⟨i, -, rfl⟩ := mem_gridLocs.1 hl'
      exact hread

/-- MAP_INV reads CODEGRID. -/
theorem mapInvStage_agree (h : s.AgreeOn ls s') (hls : ∀ i, i < s.build.cells → ls (.codegrid i)) :
    ResultsAgree (fun l => ls l ∨ l ∈ gridLocs s.build .resid) (mapInvStage s) (mapInvStage s') := by
  rw [mapInvStage, mapInvStage, h.1, h.codeCells hls]
  cases hwalk : mapCells (mapInvCell s.build.table) 0 s.codeCells with
  | error e => exact .inl ⟨e, rfl, rfl⟩
  | ok vs =>
    have hl : vs.length = s.build.cells := by simpa using ((mapCells_ok_iff _ _ _ _).1 hwalk).1
    have hw' : s'.Writes (gridLocs s.build .resid) (s'.writeResid vs) := h.1 ▸ s'.writeResid_writes (h.1 ▸ hl)
    exact .inr ⟨_, _, rfl, rfl, h.writes (s.writeResid_writes hl) hw' (writeResid_agreeOn h.1 hl)⟩

/-- XFORM_INV reads RESID. -/
theorem xformInvStage_agree (f : Selector) (h : s.AgreeOn ls s') (hls : ∀ i, i < s.build.cells → ls (.resid i)) :
    ResultsAgree (fun l => ls l ∨ l ∈ gridLocs s.build .recon) (xformInvStage f s) (xformInvStage f s') := by
  rw [xformInvStage, xformInvStage, h.1, h.residCells hls]
  cases hwalk : reconstruct s.build.side f s.residCells with
  | error e => exact .inl ⟨e, rfl, rfl⟩
  | ok xs =>
    have hl : xs.length = s.build.cells := by
      simpa using ((reconstructFrom_ok_iff s.build.side_bounds.1 f [] s.residCells xs).1 hwalk).1
    have hw' : s'.Writes (gridLocs s.build .recon) (s'.writeRecon xs) := h.1 ▸ s'.writeRecon_writes (h.1 ▸ hl)
    exact .inr ⟨_, _, rfl, rfl, h.writes (s.writeRecon_writes hl) hw' (writeRecon_agreeOn h.1 hl)⟩

/-- DECODE reads what UNPACK reads: its later stages read only what the stage before them wrote. -/
theorem decodeStage_agree (f : Selector) (hb : s'.build = s.build) (hlen : s'.bitLen = s.bitLen)
    (hbits : s'.streamBits s.bitLen.toNat = s.streamBits s.bitLen.toNat) :
    ResultsAgree (· ∈ outputs (.decode f) s.build) (decodeStage f s) (decodeStage f s') := by
  obtain ⟨e, hu, hu'⟩ | ⟨u, u', hu, hu', hagree⟩ := unpackStage_agree hb hlen hbits
  · exact .inl ⟨e, by simp only [decodeStage, hu], by simp only [decodeStage, hu']⟩
  have hub : u.build = s.build := (unpackStage_writes hu).build
  obtain ⟨e, hv, hv'⟩ | ⟨v, v', hv, hv', hagree⟩ :=
    mapInvStage_agree hagree fun i hi => List.mem_cons_of_mem _ (mem_gridLocs.2 ⟨i, hub ▸ hi, rfl⟩)
  · exact .inl ⟨e, by simp only [decodeStage, hu, hv], by simp only [decodeStage, hu', hv']⟩
  have hvb : v.build = u.build := (stage_writes (i := .mapInv) hv).build
  have hstage : decodeStage f s = xformInvStage f v := by simp only [decodeStage, hu, hv]
  have hstage' : decodeStage f s' = xformInvStage f v' := by simp only [decodeStage, hu', hv']
  rw [hstage, hstage']
  refine (xformInvStage_agree f hagree fun i hi => .inr (mem_gridLocs.2 ⟨i, hvb ▸ hi, rfl⟩)).imp_right ?_
  rintro ⟨t, t', ht, ht', hagree⟩
  refine ⟨t, t', ht, ht', hagree.mono fun l hl => ?_⟩
  rw [hvb, hub]
  simp only [outputs, List.mem_cons, List.mem_append] at hl ⊢
  tauto

/-- SYM_DEC reads BIT_LEN, CURSOR and the stream. -/
theorem symDecStage_agree (hb : s'.build = s.build) (hlen : s'.bitLen = s.bitLen) (hcur : s'.cursor = s.cursor)
    (hbits : s'.streamBits s.bitLen.toNat = s.streamBits s.bitLen.toNat) :
    ResultsAgree (· ∈ outputs .symDec s.build) (symDecStage s) (symDecStage s') := by
  rw [symDecStage, symDecStage, hb, hlen, hcur, hbits]
  split_ifs
  · exact .inl ⟨_, rfl, rfl⟩
  · exact .inl ⟨_, rfl, rfl⟩
  cases matchEntry s.build.table ((s.streamBits s.bitLen.toNat).drop s.cursor.toNat) with
  | none => exact .inl ⟨_, rfl, rfl⟩
  | some e =>
    refine .inr ⟨_, _, rfl, rfl, rfl, fun l _ hout => ?_⟩
    simp only [outputs, List.mem_cons, List.not_mem_nil, or_false] at hout
    obtain rfl | rfl | rfl := hout <;> rfl

end

/-! ### The commands -/

/-- STATUS is in no output set, so completion without an error leaves W(cmd) as the rule wrote it. -/
theorem readLoc_completeOk_of_mem_outputs (t : State) {i : Instr} {b : Build} {l : Loc} (h : l ∈ outputs i b) :
    t.completeOk.readLoc l = t.readLoc l := by
  cases l with
  | status => cases i <;> simp [outputs, mem_gridLocs, mem_bitbufLocs] at h
  | _ => rfl

/-- Commands whose rules agree complete alike. -/
theorem exec_of_resultsAgree {i : Instr} {s s' t t' : State} (hindex : s'.errIndex = s.errIndex)
    (h : ResultsAgree (· ∈ outputs i s.build) (stage i s) (stage i s')) (ht : exec i s = .next t)
    (ht' : exec i s' = .next t') :
    t'.status = t.status ∧ t'.errIndex = t.errIndex ∧
      (t.status.err = false → ∀ l ∈ outputs i s.build, t'.readLoc l = t.readLoc l) := by
  obtain ⟨e, hs, hs'⟩ | ⟨u, u', hs, hs', hagree⟩ := h
  · rw [exec_of_error hs] at ht
    rw [exec_of_error hs'] at ht'
    cases ht
    cases ht'
    exact ⟨rfl, rfl, nofun⟩
  · have hw := stage_writes hs
    have hw' := stage_writes hs'
    rw [exec_of_ok hs] at ht
    rw [exec_of_ok hs'] at ht'
    cases ht
    cases ht'
    refine ⟨rfl, hw'.errIndex.trans (hindex.trans hw.errIndex.symm), fun _ l hl => ?_⟩
    have hm : l.mapped u.build = true := hw.build ▸ outputs_mapped i s.build l hl
    rw [readLoc_completeOk_of_mem_outputs u' hl, readLoc_completeOk_of_mem_outputs u hl, hagree.2 l hm hl]

/-- Settles O41: the rules of the three commands agree on storage with the same stream, and so do their completions. -/
theorem onlyTheStreamBitsMatter : Obligations.OnlyTheStreamBitsMatter := by
  intro s m i t t' hi hbits ht ht'
  have hstream := State.streamBits_congr (t := { s with mem := m }) hbits
  refine exec_of_resultsAgree (s' := { s with mem := m }) rfl ?_ ht ht'
  obtain rfl | rfl | ⟨f, rfl⟩ := hi
  · exact unpackStage_agree rfl rfl hstream
  · exact symDecStage_agree rfl rfl rfl hstream
  · exact decodeStage_agree f rfl rfl hstream

end Sys2Proof.Machine
end

section
/-! PROOFS. The composite commands: what ENCODE writes (R204), what DECODE recovers (R205), and that both are their stages. -/

namespace Sys2Proof.Machine

/-! ### The residual grid of a raster, its first cell apart -/

theorem residuals_getD_zero {n : Nat} (hn : 0 < n) (f : Selector) (xs : List Int) :
    (residuals n f xs).getD 0 0 = xs.getD 0 0 := by
  rw [residuals_getD n f xs (Nat.mul_pos hn hn), predictionAt_zero, Int.sub_zero]

/-- The first residual is the first sample (R130). -/
theorem residuals_eq_cons {n : Nat} (hn : 0 < n) (f : Selector) (xs : List Int) :
    residuals n f xs = xs.getD 0 0 :: (residuals n f xs).tail := by
  have hhead := residuals_getD_zero hn f xs
  have hlen : 0 < (residuals n f xs).length := by simpa using hn.ne'
  cases h : residuals n f xs with
  | nil => simp [h] at hlen
  | cons r rs => simpa [h] using hhead

theorem State.toNat_readLoc_raster_lt (s : State) (i : Nat) : (s.readLoc (.raster i)).toNat < 256 := by
  have := (s.byteAt (rasterBase + 4 * i)).isLt
  simp only [State.readLoc, BitVec.toNat_setWidth]
  omega

/-- A sample of RASTER as the host reads it. -/
theorem State.rasterCells_getD (s : State) {i : Nat} (h : i < s.build.cells) :
    s.rasterCells.getD i 0 = (s.readLoc (.raster i)).toNat := by
  have := s.toNat_readLoc_raster_lt i
  rw [← s.readLoc_raster h, BitVec.toInt_eq_toNat_of_lt (by omega)]

/-! ### ENCODE -/

/-- RESID stands where a rule does not write it. -/
theorem State.Writes.residCells {s t : State} {outs : List Loc} (h : s.Writes outs t) (hout : ∀ i, Loc.resid i ∉ outs) :
    t.residCells = s.residCells :=
  State.residCells_congr h.build fun i hi => h.locs (.resid i) (decide_eq_true hi) (hout i)

/-- ENCODE on a raster whose residuals can be coded (R204): RESID holds them, and the stream is their coding. -/
theorem encodeStage_of_residuals {f : Selector} {s : State} {v : Nat} {es : List Entry} (hv : v < 256)
    (hes : ∀ e ∈ es, e ∈ s.build.table)
    (hresid : residuals s.build.side f s.rasterCells = (v : Int) :: es.map Entry.value) :
    ∃ t, encodeStage f s = .ok t ∧ t.residCells = residuals s.build.side f s.rasterCells ∧
      t.streamBits t.bitLen.toNat = firstCellBits v ++ es.flatMap Entry.code := by
  have hcells := xformFwdStage_residCells f s
  set ws := codeWord (firstCellBits v) :: es.map fun e => codeWord e.code with hws
  have hl : ws.length = s.build.cells := by
    simpa [hws, Params.cells] using (congrArg List.length hresid).symm
  have hmap : mapFwdStage (xformFwdStage f s) = .ok ((xformFwdStage f s).writeCodes ws) :=
    mapFwdStage_ok_iff.2 ⟨v, es, hv, hes, hcells.trans hresid, rfl⟩
  have hcodes : ((xformFwdStage f s).writeCodes ws).codeCells = ws := (xformFwdStage f s).codeCells_writeCodes hl
  have hgrid : packGrid ((xformFwdStage f s).writeCodes ws).codeCells = .ok (firstCellBits v ++ es.flatMap Entry.code) := by
    rw [hcodes, packGrid_mapped s.build.parts.2.1 es hes]
  obtain ⟨t, hpack, -, -, hstream⟩ := packStage_of_packGrid hgrid
  refine ⟨t, by simp only [encodeStage, hmap, hpack], ?_, hstream⟩
  have hkept := (packStage_writes hpack).residCells (by simp [outputs, mem_bitbufLocs])
  have hkept' := ((xformFwdStage f s).writeCodes_writes hl).residCells (by simp [mem_gridLocs])
  rw [hkept, hkept', hcells]

/-- Settles O45: the residuals are the first sample and values of table entries, so they can be coded. -/
theorem encodeWritesTheStream : Obligations.EncodeWritesTheStream := by
  intro f s es hes htail
  have hresid := residuals_eq_cons s.build.side_bounds.1 f s.rasterCells
  rw [s.rasterCells_getD s.build.one_le_cells, ← htail] at hresid
  obtain ⟨t, ht, hcells, hstream⟩ := encodeStage_of_residuals (s.toNat_readLoc_raster_lt 0) hes hresid
  have hlen : t.completeOk.readLoc .bitLen = t.readLoc .bitLen := rfl
  refine ⟨t.completeOk, exec_of_ok (i := .encode f) ht, rfl, hcells, ?_, ?_⟩
  · rw [hlen, t.toNat_readLoc_bitLen, ← length_codes]
    simpa using congrArg List.length hstream
  · rw [hlen, t.toNat_readLoc_bitLen]
    exact hstream

/-! ### A constant raster -/

/-- On a constant raster every cell but the first is predicted exactly (R114). -/
theorem predictionAt_const {n : Nat} (hn : 0 < n) (f : Selector) {y : Nat → Int} {k : Int} {i : Nat} (hi : 0 < i)
    (hy : ∀ j, j < i → y j = k) : predictionAt n f y i = k := by
  rw [predictionAt_congr (y' := fun _ => k) hn hy]
  by_cases hrow : i < n
  · exact predictionAt_firstRow hi hrow
  · by_cases hcol : i % n = 0
    · exact predictionAt_firstColumn hn (not_lt.1 hrow) hcol
    · exact (predictionAt_interior hn (not_lt.1 hrow) hcol).trans (equalNeighboursPredictTheirValue f k)

theorem tail_residuals_const {n : Nat} (hn : 0 < n) (f : Selector) {xs : List Int} {k : Int}
    (hx : ∀ i, i < n * n → xs.getD i 0 = k) : (residuals n f xs).tail = List.replicate (n * n - 1) 0 := by
  refine List.eq_replicate_iff.2 ⟨by simp, fun r hr => ?_⟩
  obtain ⟨i, hi, rfl⟩ := List.getElem_of_mem hr
  have hi' : i + 1 < n * n := by
    simp only [List.length_tail, length_residuals] at hi
    omega
  rw [List.getElem_tail, ← List.getD_eq_getElem _ 0 (by simpa using hi'), residuals_getD n f xs hi', hx _ hi',
    predictionAt_const hn f (Nat.succ_pos i) fun j hj => hx j (hj.trans hi'), Int.sub_self]

/-- Settles O46: every residual after the first is 0, whose entry has a shortest code. -/
theorem constantRasterEncodesToTheShortestCode : Obligations.ConstantRasterEncodesToTheShortestCode := by
  intro f s k hk
  obtain ⟨e0, he0, hv0, hshort⟩ := exists_zero_entry s.build.parts.2.1
  have hsample : ∀ i, i < s.build.cells → s.rasterCells.getD i 0 = (k.toNat : Int) := fun i hi => by
    rw [s.rasterCells_getD hi, hk i hi, BitVec.toNat_setWidth_of_le (by decide)]
  have htail : (List.replicate (s.build.cells - 1) e0).map Entry.value = (residuals s.build.side f s.rasterCells).tail := by
    rw [tail_residuals_const s.build.side_bounds.1 f hsample, List.map_replicate, hv0]
    rfl
  obtain ⟨t, ht, hst, -, hlen, hstream⟩ :=
    encodeWritesTheStream f s _ (fun e he => List.eq_of_mem_replicate he ▸ he0) htail
  rw [hk 0 s.build.one_le_cells, BitVec.toNat_setWidth_of_le (by decide), List.flatMap_def, List.map_replicate] at hstream
  exact ⟨t, e0, ht, hst, he0, hv0, hshort, by simpa using hlen, hstream⟩

/-! ### DECODE -/

/-- What DECODE leaves in RESID: the values of the unpacked words, which the walk back does not touch (R205). -/
theorem decodeStage_residCells {f : Selector} {s t u : State} {v : Nat} {es : List Entry} (hu : decodeStage f s = .ok u)
    (ht : unpackStage s = .ok t) (hv : v < 256) (hes : ∀ e ∈ es, e ∈ t.build.table)
    (hcodes : t.codeCells = codeWord (firstCellBits v) :: es.map fun e => codeWord e.code) :
    u.residCells = (v : Int) :: es.map Entry.value := by
  have hwf := t.build.parts.2.1
  obtain ⟨t', m, ht', hm, hx⟩ := decodeStage_ok hu
  cases ht'.symm.trans ht
  cases hm.symm.trans (mapInvStage_of_words hv hes hcodes)
  have hl : ((v : Int) :: es.map Entry.value).length = t.build.cells := by
    simpa using (congrArg List.length hcodes).symm
  have hfits : ∀ x ∈ (v : Int) :: es.map Entry.value, -2 ^ 31 ≤ x ∧ x < 2 ^ 31 := by
    refine List.forall_mem_cons.2 ⟨by omega, fun x hx => ?_⟩
    obtain ⟨e, he, rfl⟩ := List.mem_map.1 hx
    have := (CodeTable.values hwf).2 e (hes e he)
    omega
  rw [(stage_writes (i := .xformInv f) hx).residCells (by simp [outputs, mem_gridLocs]), t.residCells_writeResid hl hfits]

/-- Settles O47: UNPACK reads the words of the raster's residual grid, MAP_INV its values, and the walk back the raster. -/
theorem decodeRecoversTheRaster : Obligations.DecodeRecoversTheRaster := by
  intro f s ys es hb hl hy hes htail hp
  have hn := s.build.side_bounds.1
  have hv : (ys.getD 0 0).toNat < 256 := by
    have := getD_sample_range hy 0
    omega
  have hresid := residuals_eq_cons hn f ys
  rw [← htail, ← Int.toNat_of_nonneg (getD_sample_range hy 0).1] at hresid
  have hle : es.length + 1 = s.build.cells := by simpa [Params.cells] using (congrArg List.length hresid).symm
  have hunpack := unpackStage_of_stream hb hle hes hp
  set ws := codeWord (firstCellBits (ys.getD 0 0).toNat) :: es.map fun e => codeWord e.code with hws
  have hcodes : (s.writeCodes ws).codeCells = ws := s.codeCells_writeCodes (by simp [hws, hle])
  obtain ⟨u, hu, hub, hpos, -, hrecon⟩ := decodeStage_of_unpackStage hunpack hl hy hv hes hresid hcodes
  refine ⟨u.completeOk, exec_of_ok (i := .decode f) hu, rfl, ?_, fun i hi => ?_, ?_⟩
  · exact (decodeStage_residCells hu hunpack hv hes hcodes).trans hresid.symm
  · exact (u.readLoc_recon (hub ▸ hi)).trans (by rw [hrecon])
  · have hused := length_codes_le s.build.parts.2.1 hes
    have hcells := s.build.cells_le
    change (u.bitPos.setWidth 32).toNat = _
    rw [hpos, ← length_codes]
    exact toNat_read16 (by omega)

/-! ### The composites are their stages -/

/-- The rules of the stages read nothing that completion changes. -/
theorem mapFwdStage_completeOk (s : State) : mapFwdStage s.completeOk = (mapFwdStage s).map State.completeOk := by
  rw [mapFwdStage, mapFwdStage, show s.completeOk.residCells = s.residCells from rfl, State.completeOk_build]
  cases mapCells (mapFwdCell s.build.table) 0 s.residCells <;> rfl

theorem packStage_completeOk (s : State) : packStage s.completeOk = (packStage s).map State.completeOk := by
  rw [packStage, packStage, show s.completeOk.codeCells = s.codeCells from rfl]
  cases packGrid s.codeCells <;> rfl

theorem mapInvStage_completeOk (s : State) : mapInvStage s.completeOk = (mapInvStage s).map State.completeOk := by
  rw [mapInvStage, mapInvStage, show s.completeOk.codeCells = s.codeCells from rfl, State.completeOk_build]
  cases mapCells (mapInvCell s.build.table) 0 s.codeCells <;> rfl

theorem xformInvStage_completeOk (f : Selector) (s : State) :
    xformInvStage f s.completeOk = (xformInvStage f s).map State.completeOk := by
  rw [xformInvStage, xformInvStage, show s.completeOk.residCells = s.residCells from rfl, State.completeOk_build]
  cases reconstruct s.build.side f s.residCells <;> rfl

/-- A command that comes after a stage without an error completes as its rule does on what that stage wrote. -/
theorem exec_completeOk_ok {i : Instr} {s t : State} (hstage : stage i s.completeOk = (stage i s).map State.completeOk)
    (h : stage i s = .ok t) : exec i s.completeOk = .next t.completeOk :=
  exec_of_ok (t := t.completeOk) (by rw [hstage, h]; rfl)

theorem exec_completeOk_error {i : Instr} {s : State} {e : CmdError}
    (hstage : stage i s.completeOk = (stage i s).map State.completeOk) (h : stage i s = .error e) :
    exec i s.completeOk = .next (s.completeOk.completeError e (outputs i s.build)) :=
  exec_of_error (by rw [hstage, h]; rfl)

/-- PACK never fails inside ENCODE: its one error, BadOperand, is none of ENCODE's (R224). -/
theorem packStage_ok_in_encode {f : Selector} {s u : State} (h : mapFwdStage (xformFwdStage f s) = .ok u) :
    ∃ t, packStage u = .ok t := by
  cases hp : packStage u with
  | ok t => exact ⟨t, rfl⟩
  | error e =>
    have henc : stage (.encode f) s = .error e := by simp only [stage, encodeStage, h, hp]
    have hkind := (stage_error henc).1
    rw [(packStage_error hp).1] at hkind
    simp [errorKinds] at hkind

/-- Settles O48: by cases on MAP_FWD, the one stage that can fail. -/
theorem encodeIsItsStages : Obligations.EncodeIsItsStages := by
  intro f s a b c t ha hb hc ht
  rw [exec_xformFwd] at ha
  cases ha
  cases hmap : mapFwdStage (xformFwdStage f s) with
  | error e =>
    have henc : stage (.encode f) s = .error e := by simp only [stage, encodeStage, hmap]
    rw [exec_completeOk_error (i := .mapFwd) (mapFwdStage_completeOk _) hmap] at hb
    rw [exec_of_error henc] at ht
    cases hb
    cases ht
    exact ⟨nofun, fun _ => ⟨rfl, rfl⟩⟩
  | ok u =>
    obtain ⟨p, hp⟩ := packStage_ok_in_encode hmap
    have henc : stage (.encode f) s = .ok p := by simp only [stage, encodeStage, hmap, hp]
    rw [exec_completeOk_ok (i := .mapFwd) (mapFwdStage_completeOk _) hmap] at hb
    cases hb
    rw [exec_completeOk_ok (i := .pack) (packStage_completeOk u) hp] at hc
    rw [exec_of_ok henc] at ht
    cases hc
    cases ht
    exact ⟨fun _ => rfl, nofun⟩

/-- Eight bits are the first-cell field of their value (R88). -/
theorem firstCellBits_bitsVal {bs : List Bool} (h : bs.length = 8) : firstCellBits (bitsVal bs) = bs := by
  refine List.ext_getElem (by simp [h]) fun k hk hk' => ?_
  have hk8 : k < 8 := h ▸ hk'
  rw [← List.getD_eq_getElem _ false hk, ← List.getD_eq_getElem _ false hk', getD_firstCellBits _ hk8, testBit_bitsVal, h,
    if_pos (by omega), show 8 - 1 - (7 - k) = k by omega]

/-- MAP_INV never fails on what UNPACK has written (R205). -/
theorem mapInvStage_ok_after_unpack {s u : State} (h : unpackStage s = .ok u) : ∃ t, mapInvStage u = .ok t := by
  obtain ⟨-, ws, n, hgrid, hl, rfl⟩ := unpackStage_ok h
  obtain ⟨es, -, hes, h8, -, rfl, -⟩ := unpackGrid_ok s.build.one_le_cells hgrid
  set first := (s.streamBits s.bitLen.toNat).take 8
  have hlen : first.length = 8 := List.length_take_of_le h8
  have hv : bitsVal first < 256 := by simpa [hlen] using bitsVal_lt first
  have hcodes := s.codeCells_writeCodes hl
  rw [← firstCellBits_bitsVal hlen] at hcodes ⊢
  exact ⟨_, mapInvStage_of_words (s := { s.writeCodes _ with bitPos := BitVec.ofNat 16 n }) hv hes hcodes⟩

/-- Settles O49: by cases on UNPACK and XFORM_INV, the two stages that can fail. -/
theorem decodeIsItsStages : Obligations.DecodeIsItsStages := by
  intro f s a b c t ha hb hc ht
  cases hu : unpackStage s with
  | error e =>
    have hdec : stage (.decode f) s = .error e := by simp only [stage, decodeStage, hu]
    rw [exec_of_error (i := .unpack) hu] at ha
    rw [exec_of_error hdec] at ht
    cases ha
    cases ht
    exact ⟨fun _ => ⟨rfl, rfl⟩, nofun⟩
  | ok u =>
    obtain ⟨v, hv⟩ := mapInvStage_ok_after_unpack hu
    have hdec : stage (.decode f) s = xformInvStage f v := by simp only [stage, decodeStage, hu, hv]
    rw [exec_of_ok (i := .unpack) hu] at ha
    cases ha
    rw [exec_completeOk_ok (i := .mapInv) (mapInvStage_completeOk u) hv] at hb
    cases hb
    refine ⟨nofun, fun _ => ⟨rfl, ?_⟩⟩
    cases hx : xformInvStage f v with
    | error e =>
      rw [exec_completeOk_error (i := .xformInv f) (xformInvStage_completeOk f v) hx] at hc
      rw [exec_of_error (hdec.trans hx)] at ht
      cases hc
      cases ht
      exact ⟨rfl, rfl, nofun⟩
    | ok w =>
      rw [exec_completeOk_ok (i := .xformInv f) (xformInvStage_completeOk f v) hx] at hc
      rw [exec_of_ok (hdec.trans hx)] at ht
      cases hc
      cases ht
      exact ⟨rfl, rfl, fun _ => rfl⟩

end Sys2Proof.Machine
end

section
/-! PROOFS. What each command leaves unchanged (R84, R201). -/

namespace Sys2Proof.Machine

/-! ### The frame by the output set -/

section
variable {i : Instr} {s t : State}

/-- The frame of a command in the form of its statement: STATUS, what covers its output set, and ERR_INDEX with an error. -/
theorem exec_sameBut_of_outputs {exc : Loc → Prop} (h : exec i s = .next t) (hstatus : exc .status)
    (hout : ∀ l ∈ outputs i s.build, exc l) (herr : t.status.err = true → exc .errIndex) : s.SameBut exc t := by
  refine (exec_sameBut h).mono fun l hl => ?_
  obtain rfl | hl | ⟨rfl, hl⟩ := hl
  · exact hstatus
  · exact hout l hl
  · exact herr hl

/-- NOP, PREDICT and XFORM_FWD raise no error (R220). -/
theorem exec_err_of_errorKinds_nil (hi : errorKinds i = []) (h : exec i s = .next t) : t.status.err = false := by
  obtain ⟨u, -, rfl⟩ | ⟨e, he, rfl⟩ := exec_cases h
  · rfl
  · simpa [hi] using (stage_error he).1

theorem exec_sameBut_of_no_error {exc : Loc → Prop} (hi : errorKinds i = []) (h : exec i s = .next t) (hstatus : exc .status)
    (hout : ∀ l ∈ outputs i s.build, exc l) : s.SameBut exc t :=
  exec_sameBut_of_outputs h hstatus hout fun herr => by simp [exec_err_of_errorKinds_nil hi h] at herr

/-- A command whose outputs are registers leaves all of storage. -/
theorem exec_byteAt_of_registers (hi : ∀ l ∈ outputs i s.build, l.bytes = []) (h : exec i s = .next t) (a : Nat) :
    t.byteAt a = s.byteAt a := by
  refine (exec_sameBut h).bytes a fun l _ hl => ?_
  obtain rfl | hl | ⟨rfl, -⟩ := hl
  · simp [Loc.bytes]
  · simp [hi l hl]
  · simp [Loc.bytes]

end

/-- Settles O54: each by its output set, which holds registers only. -/
theorem registerCommandsFrame : Obligations.RegisterCommandsFrame := by
  intro s t
  refine ⟨fun h => ?_, fun f h => ?_, fun h => ?_, fun h => ?_, ?_⟩
  · exact exec_sameBut_of_no_error rfl h rfl (by simp [outputs])
  · exact exec_sameBut_of_no_error rfl h (.inl rfl) (by simp [outputs])
  · exact exec_sameBut_of_outputs h (.inl rfl) (by simp [outputs]) (by simp)
  · exact exec_sameBut_of_outputs h (.inl rfl) (by simp [outputs]) (by simp)
  · rintro (h | ⟨f, h⟩ | h | h) <;> exact exec_byteAt_of_registers (by simp [outputs, Loc.bytes]) h

/-- Settles O55: each output set is one grid. -/
theorem gridCommandsFrame : Obligations.GridCommandsFrame := by
  have hgrid : ∀ {b : Build} {mk : Nat → Loc}, ∀ l ∈ gridLocs b mk, ∃ i, l = mk i := fun l hl => by
    obtain ⟨i, -, rfl⟩ := mem_gridLocs.1 hl
    exact ⟨i, rfl⟩
  intro s t
  refine ⟨fun f h => ?_, fun f h => ?_, fun h => ?_, fun h => ?_⟩
  · exact exec_sameBut_of_no_error rfl h (.inl rfl) fun l hl => .inr (hgrid l hl)
  · exact exec_sameBut_of_outputs h (.inl rfl) (fun l hl => .inr (.inl (hgrid l hl))) fun herr => .inr (.inr ⟨rfl, herr⟩)
  · exact exec_sameBut_of_outputs h (.inl rfl) (fun l hl => .inr (.inl (hgrid l hl))) fun herr => .inr (.inr ⟨rfl, herr⟩)
  · exact exec_sameBut_of_outputs h (.inl rfl) (fun l hl => .inr (.inl (hgrid l hl))) fun herr => .inr (.inr ⟨rfl, herr⟩)

/-! ### The bits of BITBUF beyond the stream -/

/-- A rule whose outputs lie below BITBUF keeps every bit of it. -/
theorem State.Writes.bit {s t : State} {outs : List Loc} (h : s.Writes outs t)
    (hout : ∀ l ∈ outs, l.offset + 4 ≤ bitbufBase) (k : Nat) : t.bit k = s.bit k := by
  have hword : t.wordAt (bitbufBase + 4 * (k / 32)) = s.wordAt (bitbufBase + 4 * (k / 32)) := by
    refine State.wordAt_congr fun a hlo _ => h.bytes a fun l hl ha => ?_
    have := hout l hl
    have := Loc.bytes_offset ha
    omega
  rw [State.bit, State.bit, hword]

/-- PACK writes the bits below the new BIT_LEN only (R180). -/
theorem packStage_bit {s t : State} (h : packStage s = .ok t) {k : Nat} (hk : t.bitLen.toNat ≤ k) : t.bit k = s.bit k := by
  obtain ⟨bs, hgrid, rfl⟩ := packStage_ok h
  have hfits := packed_fits hgrid
  have hlen : bs.length ≤ k := (toNat_ofNat16 (by omega : bs.length < 65536)) ▸ hk
  exact (s.bit_writeStream bs k).trans (if_neg hlen.not_gt)

/-- The stages of ENCODE before PACK leave BITBUF alone (R204). -/
theorem encodeStage_bit {f : Selector} {s t : State} (h : encodeStage f s = .ok t) {k : Nat} (hk : t.bitLen.toNat ≤ k) :
    t.bit k = s.bit k := by
  obtain ⟨u, hmap, hpack⟩ := encodeStage_ok h
  have hcells := s.build.cells_le
  have hbelow : ∀ {mk : Nat → Loc} {base : Nat}, (∀ i, (mk i).offset = base + 4 * i) → base + 0x1000 ≤ bitbufBase →
      ∀ l ∈ gridLocs s.build mk, l.offset + 4 ≤ bitbufBase := by
    intro mk base hoff hbase l hl
    obtain ⟨i, hi, rfl⟩ := mem_gridLocs.1 hl
    rw [hoff]
    omega
  rw [packStage_bit hpack hk,
    (stage_writes (i := .mapFwd) hmap).bit (hbelow (base := codegridBase) (fun _ => rfl) (by decide)),
    (xformFwdStage_writes f s).bit (hbelow (base := residBase) (fun _ => rfl) (by decide))]

/-- Settles O56: each by its output set; the kept bits by what PACK's rule writes. -/
theorem streamCommandsFrame : Obligations.StreamCommandsFrame := by
  intro s t
  refine ⟨fun h => ?_, fun h => ?_, fun f h => ?_, fun f h => ?_, ?_⟩
  iterate 4
    refine exec_sameBut_of_outputs h (.inl rfl) (fun l hl => ?_) (by simp)
    simp only [outputs, List.mem_cons, List.mem_append, mem_gridLocs, mem_bitbufLocs] at hl
    grind
  · rintro (h | ⟨f, h⟩) herr k hk <;> obtain ⟨u, hu, rfl⟩ := stage_ok_of_exec h herr
    · exact packStage_bit hu hk
    · exact encodeStage_bit hu hk

end Sys2Proof.Machine
end
